-- ==== Sys2Proof/Word.lean ====
section
/-! DEFINITION. The word types of the record decoder block (10_state.md R10, 00_scope.md R6).
`ADDR_W` is unbounded in the model (00_scope.md R5): stream addresses, sizes and counts are `Nat`. -/

namespace Sys2Proof

/-- A byte: 8 bits in every address space of the block (20_memory.md R40). -/
abbrev Byte := BitVec 8

/-- A one-bit register or field (`TURN`, `EPV`, `PCOL`, `OPN`, a colour bit). -/
abbrev Bit := BitVec 1

/-- A square index 0..63 (10_state.md R20). -/
abbrev Sq := BitVec 6

/-- A 16-bit register or field (`VAL`, `FMN`, `MOVEW`, `PLY`, the move word). -/
abbrev Half := BitVec 16

/-- One square's content: bits 2:0 the kind number, bit 3 the colour (10_state.md R16). -/
abbrev BoardCell := BitVec 4

end Sys2Proof
end

