-- ==== Sys2Proof/Config.lean ====
section
/-! DEFINITION. The implementation parameters of 00_scope.md R5. All are constants of the spec; no value of the
block is left open by it (93_implementation_defined.md Part 1), so there is no opaque constant here. -/

namespace Sys2Proof.Config

/-- `REC_BYTES`: the size of a record (00_scope.md R5). -/
@[simp] abbrev recBytes : Nat := 40

/-- `POS_BYTES`: the size of the position field of a record (00_scope.md R5). -/
@[simp] abbrev posBytes : Nat := 32

/-- `CODE_MAX`: the greatest length of a code of the piece table (00_scope.md R5). -/
@[simp] abbrev codeMax : Nat := 4

/-- `BUF_MAX`: the capacity of the cursor buffer (00_scope.md R5, 92_eei_decisions.md D7). -/
@[simp] abbrev bufMax : Nat := 32

/-- `NBITS_MAX`: the largest operand of `CUR.RDBITS` (00_scope.md R5, 92_eei_decisions.md D8). -/
@[simp] abbrev nbitsMax : Nat := 16

end Sys2Proof.Config
end

