-- ==== Sys2Proof/Syntax.lean ====
section
/-! DEFINITION. The rows of spec/opcode_table.json as one inductive, and the formats they are written in. -/

namespace Sys2Proof

/-- The five coded piece kinds, in the source's order (10_state.md R14; the King has no code, 30_encoding.md R65). -/
inductive Kind where
  | pawn
  | knight
  | bishop
  | rook
  | queen
deriving DecidableEq, Repr

/-- A legal piece symbol: the empty square, or a kind followed by its colour bit (30_encoding.md R63). -/
inductive PieceSym where
  | empty
  | man (kind : Kind) (colour : Bit)
deriving DecidableEq, Repr

/-- The fields of the position bit stream that have a fixed width, in stream order (30_encoding.md R67);
field 4, the run of piece symbols, is `Format.posPieces`. -/
inductive PosField where
  | turn
  | k1
  | k2
  | wk
  | wq
  | bk
  | bq
  | epf
  | epsq
  | hmcLo
  | fmnLo
  | fmnHi
  | hmcHi
deriving DecidableEq, Repr

/-- The fields of a 40-byte record, in order (20_memory.md R48). -/
inductive RecField where
  | position
  | score
  | move
  | ply
  | result
  | padding
deriving DecidableEq, Repr

/-- The formats of the opcode table. Which one a word is in is not told by the word (rows of two formats share
words); it is told by where the word is met. `posPieces n` is a run of `n` piece symbols. -/
inductive Format where
  | command
  | pieceSymbol
  | moveWord
  | posField (f : PosField)
  | posPieces (n : Nat)
  | recField (f : RecField)
deriving DecidableEq, Repr

/-- One constructor per row of spec/opcode_table.json, in the table's order: 16 operation codes
(30_encoding.md R60, R73), 6 piece symbols and 3 illegal piece codes (R65, R66), 4 move forms (R71), 14 position
stream fields (R67) and 6 record fields (20_memory.md R48). -/
inductive Instr where
  | errClr
  | curAttach (len : BitVec 6) (data : List Byte)
  | curRdbit
  | curRdbits (n : BitVec 5)
  | pieceDec
  | posDec (len : BitVec 6) (data : List Byte)
  | moveDec (w : Half)
  | reserved7
  | recOpen (soff : Nat)
  | recRead
  | recRaw
  | recCount
  | reservedC
  | reservedD
  | reservedE
  | reservedF
  | empty
  | pawn (c : Bit)
  | knight (c : Bit)
  | bishop (c : Bit)
  | rook (c : Bit)
  | queen (c : Bit)
  | illegalB
  | illegalD
  | illegalF
  | moveNone (p : BitVec 2) (f t : Sq)
  | movePromo (p : BitVec 2) (f t : Sq)
  | moveEp (p : BitVec 2) (f t : Sq)
  | moveCastle (p : BitVec 2) (f t : Sq)
  | posfTurn (t : Bit)
  | posfK1 (k : Sq)
  | posfK2 (k : Sq)
  | posfPieces (syms : List PieceSym)
  | posfWk (w : Bit)
  | posfWq (w : Bit)
  | posfBk (b : Bit)
  | posfBq (b : Bit)
  | posfEpf (e : Bit)
  | posfEpsq (sq : Sq)
  | posfHmcLo (h : BitVec 6)
  | posfFmnLo (l : Byte)
  | posfFmnHi (u : Byte)
  | posfHmcHi (h : Bit)
  | recfPosition (blob : List Byte)
  | recfScore (v : Half)
  | recfMove (w : Half)
  | recfPly (v : Half)
  | recfResult (v : Byte)
  | recfPadding (v : Byte)
deriving DecidableEq, Repr

end Sys2Proof
end

