-- ==== Sys2Proof/Machine/State.lean ====
section
/-! DEFINITION. The state of the block: every register of 10_state.md R10, the hidden state of R15, the stream
that R30 makes a parameter, and the transaction interface (30_encoding.md R60, R61). Plain data throughout. -/

namespace Sys2Proof.Machine

/-- The two faults of the block (60_exceptions.md R160). A fault is taken, not a stop: see `takeFault`. -/
inductive Cause where
  | truncatedRecord
  | corruptEncoding
deriving DecidableEq, Repr

/-- What the host was answered (30_encoding.md R61). `idle`: no command has answered since reset. `okCount`: the
payload of `REC.COUNT`, the one response whose payload is not the registers it wrote (44_record.md R145). -/
inductive Response where
  | idle
  | ok
  | okCount (n : Nat)
  | fault (c : Cause)
  | refused
deriving DecidableEq, Repr

/-- What the host hands to the block. `command` is a command of 30_encoding.md R60. The other requests run ONE row
of the opcode table that is no command: the unit concerned takes its symbol where that unit finds it (the cursor,
the stream at `RP`), or for a move word from the request. They are the model's own (log entry 9). -/
inductive Request where
  | command (bits : List Bool)
  | pieceSymbol
  | moveWord (bits : List Bool)
  | posField (f : PosField)
  | posPieces
  | recField (f : RecField)
deriving DecidableEq, Repr

/-- The stream of the platform (20_memory.md R40): `size` bytes, of which `cells` lists those that are not 00
(log entry 6). -/
structure Memory where
  cells : List Host.Cell
  size : Nat
deriving DecidableEq, Repr

/-- Cells in canonical form from address `lo` on: addresses strictly rising and below `size`, no byte 00. -/
def cellsOk : Nat → Nat → List Host.Cell → Bool
  | _, _, [] => true
  | lo, size, (a, b) :: r => decide (lo ≤ a) && decide (a < size) && decide (b ≠ 0) && cellsOk (a + 1) size r

/-- The canonical form of a stream. -/
def Memory.wf (m : Memory) : Bool := cellsOk 0 m.size m.cells

/-- A stream of no bytes. -/
def Memory.empty : Memory := { cells := [], size := 0 }

/-- The locals of `DecodePosition` (10_state.md R15, 42_position.md R110): hidden state. -/
structure Work where
  board : Vector BoardCell 64
  turn : Bit
  k1 : Sq
  k2 : Sq
  castle : BitVec 4
  epv : Bit
  epsq : Sq
  hLo : BitVec 6
  fLo : Byte
  fHi : Byte
deriving DecidableEq, Repr

/-- The scratch position before step 1: every square empty, no castling flag (42_position.md R125). -/
def Work.fresh : Work :=
  { board := Vector.replicate 64 0, turn := 0, k1 := 0, k2 := 0, castle := 0, epv := 0, epsq := 0,
    hLo := 0, fLo := 0, fHi := 0 }

/-- Which result registers hold a value (10_state.md R32): one mark for each group of registers that is always
written together. -/
structure Written where
  val : Bool
  piece : Bool
  position : Bool
  move : Bool
  score : Bool
  movew : Bool
  ply : Bool
  result : Bool
  raw : Bool
deriving DecidableEq, Repr

/-- No result register has been written. -/
def Written.none : Written :=
  { val := false, piece := false, position := false, move := false, score := false, movew := false,
    ply := false, result := false, raw := false }

/-- The state of the block. -/
structure State where
  /-- `BUF[0..31]` (R11) -/
  buf : Vector Byte 32
  /-- `LEN` (R11) -/
  len : BitVec 6
  /-- `POS` (R12) -/
  pos : BitVec 9
  /-- `VAL` (R13) -/
  val : Half
  /-- `PK` (R14) -/
  pk : BitVec 3
  /-- `PCOL` (R14) -/
  pcol : Bit
  /-- `BOARD[0..63]` (R16) -/
  board : Vector BoardCell 64
  /-- `TURN` (R17) -/
  turn : Bit
  /-- `CASTLE` (R18) -/
  castle : BitVec 4
  /-- `EPV` (R19) -/
  epv : Bit
  /-- `EPSQ` (R19) -/
  epsq : Sq
  /-- `HMC` (R21) -/
  hmc : BitVec 7
  /-- `FMN` (R22) -/
  fmn : Half
  /-- `MTO` (R24) -/
  mto : Sq
  /-- `MFROM` (R24) -/
  mfrom : Sq
  /-- `MPROMO` (R24) -/
  mpromo : BitVec 3
  /-- `MSPECIAL` (R24) -/
  mspecial : BitVec 2
  /-- `SCORE` (R25), the 16-bit pattern -/
  score : Half
  /-- `MOVEW` (R25) -/
  movew : Half
  /-- `PLY` (R25) -/
  ply : Half
  /-- `RESULT` (R25), the 8-bit pattern -/
  result : Byte
  /-- `RAW[0..39]` (R26) -/
  raw : Vector Byte 40
  /-- `FSIZE` (R27) -/
  fsize : Nat
  /-- `SOFF` (R27) -/
  soff : Nat
  /-- `COUNT` (R27) -/
  count : Nat
  /-- `RP` (R27) -/
  rp : Nat
  /-- `OPN` (R27) -/
  opn : Bit
  /-- `ERR` (R28) -/
  err : BitVec 2
  /-- hidden: the locals of a position decode (R15) -/
  work : Work
  /-- the parameter `Stream` (R30) -/
  stream : Memory
  /-- the model's own: requests the block has not yet taken (log entry 7) -/
  inbox : List Request
  /-- the response of the last command (30_encoding.md R61) -/
  resp : Response
  /-- the model's own: some command of the run was refused (70_reset_and_hazards.md R198) -/
  refusedSeen : Bool
  /-- the model's own: which result registers hold a value (R32) -/
  written : Written
deriving DecidableEq, Repr

/-- The state after reset (10_state.md R32, 70_reset_and_hazards.md R190). The values of `BUF`, of the result
registers and of the hidden state are the model's (log entries 2, 3 and 4); `written` says that no result register
holds a value. -/
def State.reset : State :=
  { buf := Vector.replicate 32 0, len := 0, pos := 0, val := 0, pk := 0, pcol := 0,
    board := Vector.replicate 64 0, turn := 0, castle := 0, epv := 0, epsq := 0, hmc := 0, fmn := 0,
    mto := 0, mfrom := 0, mpromo := 0, mspecial := 0, score := 0, movew := 0, ply := 0, result := 0,
    raw := Vector.replicate 40 0, fsize := 0, soff := 0, count := 0, rp := 0, opn := 0, err := 0,
    work := Work.fresh, stream := Memory.empty, inbox := [], resp := .idle, refusedSeen := false,
    written := Written.none }

/-- Why the machine stops with a fault. The block's own two faults are not here: they are taken (60_exceptions.md
R166), and the machine goes on. -/
inductive Fault where
  /-- Raised by `REC.READ`, `REC.RAW` and a record field request when a byte below `FSIZE` is not in the stream:
  the platform has shrunk the stream while the reader is open, a launch that "has no meaning in the model"
  (70_reset_and_hazards.md R193). No run of this model reaches it. Safe. -/
  | streamShrunk
deriving DecidableEq, Repr

/-- Why the machine refuses to go on. The block's own refusals are not here: they answer REFUSED (60_exceptions.md
R170), and the machine goes on. -/
inductive Refusal where
  /-- Raised by no instruction: the host's word for an instruction without a meaning. Safe. -/
  | notModelled (mnemonic : String)
  /-- Raised by the step alone, before any instruction is known, when the host's bits are too few to be a command
  of 30_encoding.md R60 or a move word. Safe. -/
  | notACommand
deriving DecidableEq, Repr

/-- The outcome of a meaning. -/
abbrev Result := Host.Outcome State Fault Refusal

end Sys2Proof.Machine
end

