-- ==== Sys2Proof/Machine/Flags.lean ====
section
/-! DEFINITION. The block's condition state: the fault latch, the response status, the acceptance tests
(10_state.md R28, 30_encoding.md R61, 60_exceptions.md R169, R170). It has no condition codes (10_state.md R31). -/

namespace Sys2Proof.Machine

/-- The number of a cause, in `ERR` and in the response status (60_exceptions.md R160). -/
def causeCode : Cause → BitVec 2
  | .truncatedRecord => 1
  | .corruptEncoding => 2

/-- The 2-bit response status (30_encoding.md R61); none before the first response. -/
def responseStatus : Response → Option (BitVec 2)
  | .idle => none
  | .ok => some 0
  | .okCount _ => some 0
  | .fault c => some (causeCode c)
  | .refused => some 3

/-- No fault is latched: commands other than `ERR.CLR` are accepted (60_exceptions.md R169). -/
def faultFree (s : State) : Bool := s.err == 0

/-- The reader has been opened (10_state.md R27). -/
def isOpen (s : State) : Bool := s.opn == 1

/-- The operand `len` is in range (30_encoding.md R73). -/
def lenInRange (len : BitVec 6) : Bool := decide (len.toNat ≤ Config.bufMax)

/-- The operand `n` of `CUR.RDBITS` is in range (30_encoding.md R73). -/
def widthInRange (n : BitVec 5) : Bool := decide (n.toNat ≤ Config.nbitsMax)

end Sys2Proof.Machine
end

