-- ==== Sys2Proof/Machine/Operands.lean ====
section
/-! DEFINITION. Where operands come from: the bit cursor (40_bitcursor.md R95, R91, R92), the stream
(20_memory.md R42) and the assembly of multi-byte values (30_encoding.md R68, R69). -/

namespace Sys2Proof.Machine

/-! ### The bit cursor -/

/-- The cursor a decode in progress holds: `BUF`, `LEN` and `POS` as numbers (10_state.md R11, R12). -/
structure Cursor where
  buf : Vector Byte 32
  len : Nat
  pos : Nat
deriving DecidableEq, Repr

/-- The cursor of a state. -/
def cursorOf (s : State) : Cursor := { buf := s.buf, len := s.len.toNat, pos := s.pos.toNat }

/-- Byte `i` of a cursor's buffer. -/
def byteAt (buf : Vector Byte 32) (i : Nat) : Byte := buf.getD i 0

/-- The bit at bit offset `p`: bit `p mod 8` of byte `p div 8` (40_bitcursor.md R95). -/
def bitAt (buf : Vector Byte 32) (p : Nat) : Nat := ((byteAt buf (p / 8)).toNat >>> (p % 8)) &&& 1

/-- `ReadBit()` (40_bitcursor.md R91). -/
def readBit (c : Cursor) : Except Cause (Nat × Cursor) :=
  if c.pos / 8 ≥ c.len then .error .truncatedRecord
  else .ok (bitAt c.buf c.pos, { c with pos := c.pos + 1 })

/-- The loop of `ReadBits`: `left` bits are still to be read, the next one goes to position `k` of `v`. -/
def readBitsFrom : Nat → Nat → Nat → Cursor → Except Cause (Nat × Cursor)
  | 0, _, v, c => .ok (v, c)
  | left + 1, k, v, c => do
    let (b, c) ← readBit c
    readBitsFrom left (k + 1) (v ||| (b <<< k)) c

/-- `ReadBits(n)` (40_bitcursor.md R92). -/
def readBits (n : Nat) (c : Cursor) : Except Cause (Nat × Cursor) := readBitsFrom n 0 0 c

/-- `ReadBits(n)` into a field of `n` bits. -/
def readField (n : Nat) (c : Cursor) : Except Cause (BitVec n × Cursor) := do
  let (v, c) ← readBits n c
  return (BitVec.ofNat n v, c)

/-- Bytes written to a buffer from index `i` upward (the loop of 40_bitcursor.md R90). -/
def fillBytes {n : Nat} : Vector Byte n → Nat → List Byte → Vector Byte n
  | buf, _, [] => buf
  | buf, i, b :: bs => fillBytes (buf.setIfInBounds i b) (i + 1) bs

/-- A cursor at bit 0 over `len` bytes of `data`; bytes of `BUF` beyond them keep their value (40_bitcursor.md
R90). -/
def attachCursor (buf : Vector Byte 32) (len : Nat) (data : List Byte) : Cursor :=
  { buf := fillBytes buf 0 (data.take len), len := len, pos := 0 }

/-- Every bit from the cursor to the end of the valid bytes, the next one first. -/
def bitsAhead (c : Cursor) : List Bool :=
  (List.range (8 * c.len - c.pos)).map fun k => bitAt c.buf (c.pos + k) == 1

/-! ### The stream -/

/-- The byte listed for an address, 00 where none is listed (log entry 6). -/
def lookupCell : List Host.Cell → Nat → Byte
  | [], _ => 0
  | (x, b) :: r, a => if x = a then b else lookupCell r a

/-- Byte `a` of the stream; none where the stream has no such byte (20_memory.md R40). -/
def readByte (m : Memory) (a : Nat) : Option Byte :=
  if a < m.size then some (lookupCell m.cells a) else none

/-- `n` bytes of the stream from address `a` upward. -/
def readRange (m : Memory) (a : Nat) : Nat → Option (List Byte)
  | 0 => some []
  | n + 1 => do
    let b ← readByte m a
    let bs ← readRange m (a + 1) n
    return b :: bs

/-- The cells of bytes laid out from address `a` upward. -/
def cellsFrom : Nat → List Byte → List Host.Cell
  | _, [] => []
  | a, b :: bs => if b = 0 then cellsFrom (a + 1) bs else (a, b) :: cellsFrom (a + 1) bs

/-- The stream of some bytes, as the platform supplies it (70_reset_and_hazards.md R192). The block itself never
writes the stream (20_memory.md R45). -/
def streamOfBytes (bs : List Byte) : Memory := { cells := cellsFrom 0 bs, size := bs.length }

/-- What `MemRead` answers. `absent`: a byte below `FSIZE` that the stream does not have. -/
inductive MemResult where
  | bytes (bs : List Byte)
  | truncated
  | absent
deriving DecidableEq, Repr

/-- `MemRead(addr, n)` (20_memory.md R42). -/
def memRead (s : State) (addr : Nat) (n : Nat) : MemResult :=
  if addr + n > s.fsize then .truncated
  else match readRange s.stream addr n with
    | some bs => .bytes bs
    | none => .absent

/-! ### Assembly of values -/

/-- `le16(b0, b1)` (00_scope.md R6). -/
def le16 (b0 b1 : Byte) : Half := b0.setWidth 16 ||| (b1.setWidth 16 <<< 8)

/-- `sext_N(v)`: the pattern read as a two's-complement number (00_scope.md R6). -/
def sext {n : Nat} (v : BitVec n) : Int := if v.toNat < 2 ^ (n - 1) then (v.toNat : Int) else (v.toNat : Int) - 2 ^ n

/-- `SCORE` as a signed number (30_encoding.md R69). -/
def State.scoreValue (s : State) : Int := sext s.score

/-- `RESULT` as a signed number (30_encoding.md R69). -/
def State.resultValue (s : State) : Int := sext s.result

/-- The optional en-passant square that `EPV` and `EPSQ` hold (10_state.md R19). -/
def State.epTarget (s : State) : Option Sq := if s.epv = 1 then some s.epsq else none

/-- `(hmc_hi << 6) | hmc_lo` (30_encoding.md R68). -/
def joinHmc (hi : Bit) (lo : BitVec 6) : BitVec 7 := (hi.setWidth 7 <<< 6) ||| lo.setWidth 7

/-- `(fmn_hi << 8) | fmn_lo` (30_encoding.md R68). -/
def joinFmn (hi lo : Byte) : Half := (hi.setWidth 16 <<< 8) ||| lo.setWidth 16

/-- The number of a piece kind (10_state.md R16, R14). -/
def kindNumber : Kind → BitVec 3
  | .pawn => 1
  | .knight => 2
  | .bishop => 3
  | .rook => 4
  | .queen => 5

/-- The kind number of a symbol, 0 for the empty square. -/
def symKind : PieceSym → BitVec 3
  | .empty => 0
  | .man k _ => kindNumber k

/-- The colour of a symbol, 0 for the empty square. -/
def symColour : PieceSym → Bit
  | .empty => 0
  | .man _ c => c

/-- The bits of a symbol: 1 for the empty square, 5 for a piece (41_piececode.md R101). -/
def symLength : PieceSym → Nat
  | .empty => 1
  | .man _ _ => 5

/-- `(colour << 3) | kind` (10_state.md R16). -/
def boardCell (colour : Bit) (kind : BitVec 3) : BoardCell := (colour.setWidth 4 <<< 3) ||| kind.setWidth 4

/-- The kind number of the King (10_state.md R16). -/
def kingNumber : BitVec 3 := 6

end Sys2Proof.Machine
end

