-- ==== Sys2Proof/Machine/Ops.lean ====
section
/-! DEFINITION. The named operations over the registers: how a command answers, is refused, takes a fault and how a
fault is cleared (60_exceptions.md R166 to R170), and one update for each group of registers that is written
together. -/

namespace Sys2Proof.Machine

/-! ### Responses, refusal, fault entry and its return -/

/-- The response to the host (30_encoding.md R61). -/
def answer (r : Response) (s : State) : State := { s with resp := r }

/-- A refused command: no register changes, the response is REFUSED (60_exceptions.md R170). That a command of the
run was refused is remembered for 70_reset_and_hazards.md R198. -/
def refuse (s : State) : State := { s with resp := .refused, refusedSeen := true }

/-- FAULT ENTRY, the one shared operation (60_exceptions.md R166): `ERR` takes the cause, every other register keeps
its value, the response is `FAULT(cause)` with no payload. There is nothing to vector to (R167). -/
def takeFault (c : Cause) (s : State) : State := { s with err := causeCode c, resp := .fault c }

/-- The counterpart of a return from the fault (60_exceptions.md R168): the latch is cleared, nothing else is
restored, because a fault changed nothing else. -/
def returnFromFault (s : State) : State := { s with err := 0 }

/-- The acceptance test of every command but `ERR.CLR` (60_exceptions.md R169). -/
def accepted (s : State) (body : Result) : Result := if faultFree s then body else .next (refuse s)

/-- A command that ends by raising a fault. -/
def raiseFault (c : Cause) (s : State) : Result := .next (takeFault c s)

/-- A command that completes: its writes, and the response `OK`. -/
def complete (s : State) : Result := .next (answer .ok s)

/-! ### Register updates -/

/-- The cursor registers `BUF`, `LEN`, `POS`. -/
def setCursor (c : Cursor) (s : State) : State :=
  { s with buf := c.buf, len := BitVec.ofNat 6 c.len, pos := BitVec.ofNat 9 c.pos }

/-- `POS <- p` (00_scope.md R6). -/
def setPos (p : Nat) (s : State) : State := { s with pos := BitVec.ofNat 9 p }

/-- `VAL` (10_state.md R13). -/
def setVal (v : Nat) (s : State) : State :=
  { s with val := BitVec.ofNat 16 v, written := { s.written with val := true } }

/-- `PK` and `PCOL` (10_state.md R14). -/
def setPiece (sym : PieceSym) (s : State) : State :=
  { s with pk := symKind sym, pcol := symColour sym, written := { s.written with piece := true } }

/-- The result registers of a position (42_position.md R110, last lines). -/
def setPosition (w : Work) (hHi : Bit) (s : State) : State :=
  { s with
    board := w.board, turn := w.turn, castle := w.castle, epv := w.epv, epsq := w.epsq,
    hmc := joinHmc hHi w.hLo, fmn := joinFmn w.fHi w.fLo, written := { s.written with position := true } }

/-- The hidden state of a position decode (10_state.md R15). -/
def setWork (w : Work) (s : State) : State := { s with work := w }

/-- A decoded move (10_state.md R24). -/
structure Move where
  orig : Sq
  dest : Sq
  promo : BitVec 3
  special : BitVec 2
deriving DecidableEq, Repr

/-- `MFROM`, `MTO`, `MPROMO`, `MSPECIAL` (10_state.md R24). -/
def setMove (m : Move) (s : State) : State :=
  { s with
    mfrom := m.orig, mto := m.dest, mpromo := m.promo, mspecial := m.special,
    written := { s.written with move := true } }

/-- `SCORE` (10_state.md R25). -/
def setScore (v : Half) (s : State) : State := { s with score := v, written := { s.written with score := true } }

/-- `MOVEW` (10_state.md R25). -/
def setMovew (v : Half) (s : State) : State := { s with movew := v, written := { s.written with movew := true } }

/-- `PLY` (10_state.md R25). -/
def setPly (v : Half) (s : State) : State := { s with ply := v, written := { s.written with ply := true } }

/-- `RESULT` (10_state.md R25). -/
def setResult (v : Byte) (s : State) : State := { s with result := v, written := { s.written with result := true } }

/-- `RAW` (10_state.md R26). -/
def setRaw (bs : List Byte) (s : State) : State :=
  { s with raw := fillBytes s.raw 0 bs, written := { s.written with raw := true } }

/-- The reader control registers (10_state.md R27, 44_record.md R140). -/
def setReader (fsize soff : Nat) (s : State) : State :=
  { s with fsize := fsize, soff := soff, count := fsize / Config.recBytes, rp := soff, opn := 1 }

/-- `RP` (10_state.md R27). -/
def setRp (a : Nat) (s : State) : State := { s with rp := a }

/-! ### Symbols at the cursor -/

/-- `n` more bits stand between the cursor and the end of the valid bytes (40_bitcursor.md R93). -/
def hasRoom (n : Nat) (s : State) : Bool := decide (s.pos.toNat + n ≤ 8 * s.len.toNat)

/-- A symbol of `n` bits at the cursor: `POS` moves past it and its effect happens; `TruncatedRecord`, and nothing
else, where the valid bytes end before it does (40_bitcursor.md R91, 60_exceptions.md R166). -/
def consumeSymbol (n : Nat) (effect : State → State) (s : State) : Result :=
  accepted s
    (if hasRoom n s then complete (effect (setPos (s.pos.toNat + n) s)) else raiseFault .truncatedRecord s)

end Sys2Proof.Machine
end

