-- ==== Sys2Proof/Machine/BitCursor.lean ====
section
/-! DEFINITION. The BitCursor commands (40_bitcursor.md). -/

namespace Sys2Proof.Machine

/-- `CUR.ATTACH len, data` (40_bitcursor.md R90). -/
def execCurAttach (len : BitVec 6) (data : List Byte) (s : State) : Result :=
  accepted s
    (if lenInRange len then complete (setCursor (attachCursor s.buf len.toNat data) s) else .next (refuse s))

/-- `CUR.RDBIT` (40_bitcursor.md R91). -/
def execCurRdbit (s : State) : Result :=
  accepted s
    (match readBit (cursorOf s) with
     | .error c => raiseFault c s
     | .ok (b, c) => complete (setVal b (setPos c.pos s)))

/-- `CUR.RDBITS n` (40_bitcursor.md R92). -/
def execCurRdbits (n : BitVec 5) (s : State) : Result :=
  accepted s
    (if widthInRange n then
      match readBits n.toNat (cursorOf s) with
      | .error c => raiseFault c s
      | .ok (v, c) => complete (setVal v (setPos c.pos s))
     else .next (refuse s))

end Sys2Proof.Machine
end

