-- ==== Sys2Proof/Machine/Control.lean ====
section
/-! DEFINITION. `ERR.CLR` and the reserved operation codes (60_exceptions.md R168, R170; 30_encoding.md R73). -/

namespace Sys2Proof.Machine

/-- `ERR.CLR`: accepted in every state, faults never, clears the latch and writes nothing else (R168). -/
def execErrClr (s : State) : Result := complete (returnFromFault s)

/-- Reserved code 0x7: refused, in every state (R73, R170). -/
def execReserved7 (s : State) : Result := .next (refuse s)

/-- Reserved code 0xC: refused, in every state (R73, R170). -/
def execReservedC (s : State) : Result := .next (refuse s)

/-- Reserved code 0xD: refused, in every state (R73, R170). -/
def execReservedD (s : State) : Result := .next (refuse s)

/-- Reserved code 0xE: refused, in every state (R73, R170). -/
def execReservedE (s : State) : Result := .next (refuse s)

/-- Reserved code 0xF: refused, in every state (R73, R170). -/
def execReservedF (s : State) : Result := .next (refuse s)

end Sys2Proof.Machine
end

