-- ==== Sys2Proof/Machine/Move.lean ====
section
/-! DEFINITION. `DecodeMove`, the command `MOVE.DEC` and the move word rows (43_move.md). -/

namespace Sys2Proof.Machine

/-- The promotion kind: `promo_code + 2` in the promotion form, else none (43_move.md R130). -/
def promoKind (special promoCode : BitVec 2) : BitVec 3 := if special = 1 then promoCode.setWidth 3 + 2 else 0

/-- `DecodeMove(w)` (43_move.md R130). -/
def decodeMove (w : Half) : Move :=
  let promoCode := BitVec.setWidth 2 (w >>> 12)
  let special := BitVec.setWidth 2 (w >>> 14)
  { orig := BitVec.setWidth 6 (w >>> 6), dest := BitVec.setWidth 6 w, promo := promoKind special promoCode,
    special := special }

/-- `MOVE.DEC w` (43_move.md R130): writes the four move registers; `MOVEW` is `REC.READ`'s alone (10_state.md R25,
log entry 11). -/
def execMoveDec (w : Half) (s : State) : Result := accepted s (complete (setMove (decodeMove w) s))

/-- `MOVE.NONE` (30_encoding.md R71): from and to, no promotion, `p` ignored. -/
def execMoveNone (_p : BitVec 2) (f t : Sq) (s : State) : Result :=
  accepted s (complete (setMove { orig := f, dest := t, promo := 0, special := 0 } s))

/-- `MOVE.PROMO` (30_encoding.md R71): from, to and the promotion kind `p + 2`. -/
def execMovePromo (p : BitVec 2) (f t : Sq) (s : State) : Result :=
  accepted s (complete (setMove { orig := f, dest := t, promo := p.setWidth 3 + 2, special := 1 } s))

/-- `MOVE.EP` (30_encoding.md R71): built as a plain move (43_move.md R131). -/
def execMoveEp (_p : BitVec 2) (f t : Sq) (s : State) : Result :=
  accepted s (complete (setMove { orig := f, dest := t, promo := 0, special := 2 } s))

/-- `MOVE.CASTLE` (30_encoding.md R71): built as a plain move (43_move.md R131). -/
def execMoveCastle (_p : BitVec 2) (f t : Sq) (s : State) : Result :=
  accepted s (complete (setMove { orig := f, dest := t, promo := 0, special := 3 } s))

end Sys2Proof.Machine
end

