-- ==== Sys2Proof/Machine/Piece.lean ====
section
/-! DEFINITION. The PieceCodeTable, `DecodePiece()`, the command `PIECE.DEC`, and the piece symbol rows
(41_piececode.md). -/

namespace Sys2Proof.Machine

/-- An entry of the table: a code, its length, and a kind or none for the empty square (41_piececode.md R100). -/
structure CodeEntry where
  code : Nat
  length : Nat
  kind : Option Kind
deriving DecidableEq, Repr

/-- The constant table (41_piececode.md R100). -/
def pieceTable : List CodeEntry :=
  [ ⟨0b0, 1, none⟩, ⟨0b0001, 4, some .pawn⟩, ⟨0b0011, 4, some .knight⟩, ⟨0b0101, 4, some .bishop⟩,
    ⟨0b0111, 4, some .rook⟩, ⟨0b1001, 4, some .queen⟩ ]

/-- The entry that a candidate code of `nb` bits matches: code and length both (41_piececode.md R101). -/
def matchEntry (code nb : Nat) : Option CodeEntry :=
  pieceTable.find? fun e => e.code == code && e.length == nb

/-- The loop of `DecodePiece`: `nb` bits of the candidate `code` have been read, at most `left` more will be. -/
def decodePieceFrom : Nat → Nat → Nat → Cursor → Except Cause (PieceSym × Cursor)
  | 0, _, _, _ => .error .corruptEncoding
  | left + 1, nb, code, c => do
    let (b, c) ← readBit c
    let code := code ||| (b <<< nb)
    match matchEntry code (nb + 1) with
    | none => decodePieceFrom left (nb + 1) code c
    | some e =>
      match e.kind with
      | none => return (.empty, c)
      | some k =>
        let (colour, c) ← readField 1 c
        return (.man k colour, c)

/-- `DecodePiece()` (41_piececode.md R101), bounded at `CODE_MAX` bits. -/
def decodePiece (c : Cursor) : Except Cause (PieceSym × Cursor) := decodePieceFrom Config.codeMax 0 0 c

/-- `PIECE.DEC` (41_piececode.md R101). -/
def execPieceDec (s : State) : Result :=
  accepted s
    (match decodePiece (cursorOf s) with
     | .error c => raiseFault c s
     | .ok (sym, c) => complete (setPiece sym (setPos c.pos s)))

/-! ### The symbols, each met at the cursor by the piece decoder (30_encoding.md R65) -/

/-- A legal symbol delivered by the piece decoder: its bits are consumed, `PK` and `PCOL` take its result. -/
def deliverSym (sym : PieceSym) (s : State) : Result := consumeSymbol (symLength sym) (setPiece sym) s

/-- An unassigned code met by the piece decoder: `CorruptEncoding` once its fourth bit is read, `TruncatedRecord`
where the valid bytes end before that (41_piececode.md R103). -/
def rejectCode (s : State) : Result :=
  accepted s (if hasRoom Config.codeMax s then raiseFault .corruptEncoding s else raiseFault .truncatedRecord s)

/-- `EMPTY`: no piece, one bit, no colour bit. -/
def execEmpty (s : State) : Result := deliverSym .empty s

/-- `PAWN`: kind 1, colour `c`. -/
def execPawn (c : Bit) (s : State) : Result := deliverSym (.man .pawn c) s

/-- `KNIGHT`: kind 2, colour `c`. -/
def execKnight (c : Bit) (s : State) : Result := deliverSym (.man .knight c) s

/-- `BISHOP`: kind 3, colour `c`. -/
def execBishop (c : Bit) (s : State) : Result := deliverSym (.man .bishop c) s

/-- `ROOK`: kind 4, colour `c`. -/
def execRook (c : Bit) (s : State) : Result := deliverSym (.man .rook c) s

/-- `QUEEN`: kind 5, colour `c`. -/
def execQueen (c : Bit) (s : State) : Result := deliverSym (.man .queen c) s

/-- The code 1011 (R66): raises `CorruptEncoding`. -/
def execIllegalB (s : State) : Result := rejectCode s

/-- The code 1101 (R66): raises `CorruptEncoding`. -/
def execIllegalD (s : State) : Result := rejectCode s

/-- The code 1111 (R66): raises `CorruptEncoding`. -/
def execIllegalF (s : State) : Result := rejectCode s

end Sys2Proof.Machine
end

