-- ==== Sys2Proof/Machine/Position.lean ====
section
/-! DEFINITION. `DecodePosition`, the command `POS.DEC`, and the rows that are one field of the position stream
(42_position.md). -/

namespace Sys2Proof.Machine

/-! ### The nine steps, each on the scratch position -/

/-- Step 1: a fresh scratch position and the side to move (42_position.md R125, R111). -/
def startWork (t : Bit) : Work := { Work.fresh with turn := t }

/-- A cell of the scratch board. -/
def putCell (sq : Sq) (cell : BoardCell) (w : Work) : Work := { w with board := w.board.setIfInBounds sq.toNat cell }

/-- Step 2: the white King (42_position.md R112). -/
def putK1 (k : Sq) (w : Work) : Work := { putCell k (boardCell 0 kingNumber) w with k1 := k }

/-- Step 3: the black King; on the same square it replaces the white one (42_position.md R112). -/
def putK2 (k : Sq) (w : Work) : Work := { putCell k (boardCell 1 kingNumber) w with k2 := k }

/-- Step 4: the symbol of one square; an empty symbol leaves the square as it is (42_position.md R114). -/
def putSym (sq : Sq) (sym : PieceSym) (w : Work) : Work :=
  match sym with
  | .empty => w
  | .man k c => putCell sq (boardCell c (kindNumber k)) w

/-- Step 5: castling flag `i` (42_position.md R115). -/
def putCastle (i : Nat) (b : Bit) (w : Work) : Work := { w with castle := w.castle ||| (b.setWidth 4 <<< i) }

/-- Step 6: the en-passant flag; the square is 0 until it is read (42_position.md R116). -/
def putEpf (e : Bit) (w : Work) : Work := { w with epv := e, epsq := 0 }

/-- Step 6: the en-passant square (42_position.md R116). -/
def putEpsq (sq : Sq) (w : Work) : Work := { w with epsq := sq }

/-- Step 7 (42_position.md R117). -/
def putHmcLo (h : BitVec 6) (w : Work) : Work := { w with hLo := h }

/-- Step 8, low byte (42_position.md R118). -/
def putFmnLo (l : Byte) (w : Work) : Work := { w with fLo := l }

/-- Step 8, high byte (42_position.md R118). -/
def putFmnHi (u : Byte) (w : Work) : Work := { w with fHi := u }

/-- The squares in visiting order: ranks 7 down to 0, files 0 to 7, `sq(f, r) = 8*r + f` (42_position.md R113,
10_state.md R20). -/
def visitOrder : List Sq :=
  [7, 6, 5, 4, 3, 2, 1, 0].flatMap fun r => (List.range 8).map fun f => BitVec.ofNat 6 (8 * r + f)

/-- A visited square is skipped when it is a King's (42_position.md R113). -/
def isKingSq (w : Work) (sq : Sq) : Bool := sq == w.k1 || sq == w.k2

/-- Step 4: one symbol for every square that is not skipped (42_position.md R113, R114). -/
def decodeSquares : List Sq → Work → Cursor → Except Cause (Work × Cursor)
  | [], w, c => .ok (w, c)
  | sq :: rest, w, c =>
    if isKingSq w sq then decodeSquares rest w c
    else do
      let (sym, c) ← decodePiece c
      decodeSquares rest (putSym sq sym w) c

/-- The en-passant square is read only when the flag is 1 (42_position.md R116). -/
def readEpsq (w : Work) (c : Cursor) : Except Cause (Work × Cursor) :=
  if w.epv = 1 then do
    let (sq, c) ← readField 6 c
    return (putEpsq sq w, c)
  else .ok (w, c)

/-- The nine steps in order (42_position.md R110): the scratch position, the last bit `h_hi`, the cursor after it. -/
def readPosition (c : Cursor) : Except Cause (Work × Bit × Cursor) := do
  let (t, c) ← readField 1 c
  let (k1, c) ← readField 6 c
  let (k2, c) ← readField 6 c
  let (w, c) ← decodeSquares visitOrder (putK2 k2 (putK1 k1 (startWork t))) c
  let (wk, c) ← readField 1 c
  let (wq, c) ← readField 1 c
  let (bk, c) ← readField 1 c
  let (bq, c) ← readField 1 c
  let (e, c) ← readField 1 c
  let w := putEpf e (putCastle 3 bq (putCastle 2 bk (putCastle 1 wq (putCastle 0 wk w))))
  let (w, c) ← readEpsq w c
  let (h, c) ← readField 6 c
  let (l, c) ← readField 8 c
  let (u, c) ← readField 8 c
  let (hHi, c) ← readField 1 c
  return (putFmnHi u (putFmnLo l (putHmcLo h w)), hHi, c)

/-- `DecodePosition(data, len)` for `len` at most 32 (42_position.md R110, R121): a shorter buffer faults before
any bit is read. -/
def decodePosition (buf : Vector Byte 32) (data : List Byte) (len : Nat) : Except Cause (Work × Bit × Cursor) :=
  if len < Config.posBytes then .error .truncatedRecord else readPosition (attachCursor buf Config.posBytes data)

/-- What a completed position decode writes: the cursor and the position registers (42_position.md R110, R120). -/
def commitPosition (p : Work × Bit × Cursor) (s : State) : State := setPosition p.1 p.2.1 (setCursor p.2.2 s)

/-- `POS.DEC len, data` (42_position.md R110). -/
def execPosDec (len : BitVec 6) (data : List Byte) (s : State) : Result :=
  accepted s
    (if lenInRange len then
      match decodePosition s.buf data len.toNat with
      | .error c => raiseFault c s
      | .ok p => complete (commitPosition p s)
     else .next (refuse s))

/-! ### The rows of the position stream, each met at the cursor (30_encoding.md R67)

Each consumes its bits and does its step on the hidden scratch position (10_state.md R15); the last one makes the
result visible (42_position.md R120). -/

/-- A field of `n` bits met at the cursor, with its step on the scratch position. -/
def consumeField (n : Nat) (stepOn : Work → Work) (s : State) : Result :=
  consumeSymbol n (setWork (stepOn s.work)) s

/-- Symbols placed on the squares that are not skipped, in visiting order; none when there are too few or too
many. -/
def placeRun : List Sq → List PieceSym → Work → Option Work
  | [], syms, w => if syms.isEmpty then some w else none
  | sq :: rest, syms, w =>
    if isKingSq w sq then placeRun rest syms w
    else syms.head?.bind fun sym => placeRun rest syms.tail (putSym sq sym w)

/-- The bits of a run of symbols. -/
def runLength (syms : List PieceSym) : Nat := (syms.map symLength).sum

/-- How many symbols the run has: 63 when the king squares are equal, else 62 (42_position.md R113). -/
def symbolCount (w : Work) : Nat := if w.k1 = w.k2 then 63 else 62

/-- `POSF.TURN` (42_position.md R111): the first field starts from the empty position (R125). -/
def execPosfTurn (t : Bit) (s : State) : Result := consumeField 1 (fun _ => startWork t) s

/-- `POSF.K1` (42_position.md R112). -/
def execPosfK1 (k : Sq) (s : State) : Result := consumeField 6 (putK1 k) s

/-- `POSF.K2` (42_position.md R112). -/
def execPosfK2 (k : Sq) (s : State) : Result := consumeField 6 (putK2 k) s

/-- `POSF.PIECES` (42_position.md R113, R114). A run that does not have one symbol for each square to be filled is
an operand out of range: refused (log entry 18). -/
def execPosfPieces (syms : List PieceSym) (s : State) : Result :=
  accepted s
    (match placeRun visitOrder syms s.work with
     | none => .next (refuse s)
     | some w => consumeField (runLength syms) (fun _ => w) s)

/-- `POSF.WK` (42_position.md R115). -/
def execPosfWk (w : Bit) (s : State) : Result := consumeField 1 (putCastle 0 w) s

/-- `POSF.WQ` (42_position.md R115). -/
def execPosfWq (w : Bit) (s : State) : Result := consumeField 1 (putCastle 1 w) s

/-- `POSF.BK` (42_position.md R115). -/
def execPosfBk (b : Bit) (s : State) : Result := consumeField 1 (putCastle 2 b) s

/-- `POSF.BQ` (42_position.md R115). -/
def execPosfBq (b : Bit) (s : State) : Result := consumeField 1 (putCastle 3 b) s

/-- `POSF.EPF` (42_position.md R116). -/
def execPosfEpf (e : Bit) (s : State) : Result := consumeField 1 (putEpf e) s

/-- `POSF.EPSQ` (42_position.md R116). The field does not exist when the flag is 0 (30_encoding.md R72): refused
(log entry 18). -/
def execPosfEpsq (sq : Sq) (s : State) : Result :=
  accepted s (if s.work.epv = 1 then consumeField 6 (putEpsq sq) s else .next (refuse s))

/-- `POSF.HMC_LO` (42_position.md R117). -/
def execPosfHmcLo (h : BitVec 6) (s : State) : Result := consumeField 6 (putHmcLo h) s

/-- `POSF.FMN_LO` (42_position.md R118). -/
def execPosfFmnLo (l : Byte) (s : State) : Result := consumeField 8 (putFmnLo l) s

/-- `POSF.FMN_HI` (42_position.md R118). -/
def execPosfFmnHi (u : Byte) (s : State) : Result := consumeField 8 (putFmnHi u) s

/-- `POSF.HMC_HI` (42_position.md R119): the last bit of the stream; the decode is complete and the result
registers are written (R120). -/
def execPosfHmcHi (h : Bit) (s : State) : Result := consumeSymbol 1 (setPosition s.work h) s

end Sys2Proof.Machine
end

