-- ==== Sys2Proof/Machine/Record.lean ====
section
/-! DEFINITION. The RecordReader commands and the rows that are one field of a record (44_record.md). -/

namespace Sys2Proof.Machine

/-- A record command is refused until `REC.OPEN` has completed (60_exceptions.md R170). -/
def opened (s : State) (body : Result) : Result := accepted s (if isOpen s then body else .next (refuse s))

/-- Goes on with the bytes of a stream read; a read past `FSIZE` raises `TruncatedRecord` (20_memory.md R42). -/
def withBytes (m : MemResult) (s : State) (body : List Byte → Result) : Result :=
  match m with
  | .bytes bs => body bs
  | .truncated => raiseFault .truncatedRecord s
  | .absent => .fault .streamShrunk

/-- Byte `k` of bytes read. -/
def byteOf (bs : List Byte) (k : Nat) : Byte := bs.getD k 0

/-- The scalars and the move of the last eight bytes of a record; byte 7 is the padding, discarded
(44_record.md R142). -/
def setScalars (b : List Byte) (s : State) : State :=
  let movew := le16 (byteOf b 2) (byteOf b 3)
  setResult (byteOf b 6)
    (setPly (le16 (byteOf b 4) (byteOf b 5))
      (setMove (decodeMove movew) (setMovew movew (setScore (le16 (byteOf b 0) (byteOf b 1)) s))))

/-- `REC.OPEN soff` (44_record.md R140). -/
def execRecOpen (soff : Nat) (s : State) : Result := accepted s (complete (setReader s.stream.size soff s))

/-- `REC.READ` (44_record.md R142). -/
def execRecRead (s : State) : Result :=
  opened s
    (withBytes (memRead s s.rp Config.posBytes) s fun blob =>
      match decodePosition s.buf blob Config.posBytes with
      | .error c => raiseFault c s
      | .ok p =>
        withBytes (memRead s (s.rp + Config.posBytes) 8) s fun b =>
          complete (setRp (s.rp + Config.recBytes) (setScalars b (commitPosition p s))))

/-- `REC.RAW` (44_record.md R144). -/
def execRecRaw (s : State) : Result :=
  opened s
    (withBytes (memRead s s.rp Config.recBytes) s fun bs =>
      complete (setRp (s.rp + Config.recBytes) (setRaw bs s)))

/-- `REC.COUNT` (44_record.md R145): the count is the response's payload; no register is written. -/
def execRecCount (s : State) : Result := opened s (.next (answer (.okCount s.count) s))

/-! ### The fields of a record, each met in the stream at `RP` plus its offset (20_memory.md R48) -/

/-- The offset of a field in its record (20_memory.md R48). -/
def recOffset : RecField → Nat
  | .position => 0
  | .score => 32
  | .move => 34
  | .ply => 36
  | .result => 38
  | .padding => 39

/-- The size of a field in bytes (20_memory.md R48). -/
def recSize : RecField → Nat
  | .position => 32
  | .score => 2
  | .move => 2
  | .ply => 2
  | .result => 1
  | .padding => 1

/-- The extraction of one field of the record at `RP`: `TruncatedRecord` where the stream ends before the field
does (20_memory.md R42). `RP` moves only by a whole record (44_record.md R141). -/
def extractField (f : RecField) (s : State) (body : Result) : Result :=
  opened s (if s.rp + recOffset f + recSize f > s.fsize then raiseFault .truncatedRecord s else body)

/-- `RECF.POSITION`: `DecodePosition` of the 32 bytes (44_record.md R142). -/
def execRecfPosition (blob : List Byte) (s : State) : Result :=
  extractField .position s
    (match decodePosition s.buf blob Config.posBytes with
     | .error c => raiseFault c s
     | .ok p => complete (commitPosition p s))

/-- `RECF.SCORE` (30_encoding.md R69). -/
def execRecfScore (v : Half) (s : State) : Result := extractField .score s (complete (setScore v s))

/-- `RECF.MOVE`: `MOVEW`, then `DecodeMove` (44_record.md R142). -/
def execRecfMove (w : Half) (s : State) : Result :=
  extractField .move s (complete (setMove (decodeMove w) (setMovew w s)))

/-- `RECF.PLY` (30_encoding.md R69). -/
def execRecfPly (v : Half) (s : State) : Result := extractField .ply s (complete (setPly v s))

/-- `RECF.RESULT` (30_encoding.md R69). -/
def execRecfResult (v : Byte) (s : State) : Result := extractField .result s (complete (setResult v s))

/-- `RECF.PADDING`: read and discarded (20_memory.md R48). -/
def execRecfPadding (_v : Byte) (s : State) : Result := extractField .padding s (complete s)

end Sys2Proof.Machine
end

