-- ==== Sys2Proof/Machine/Dispatch.lean ====
section
/-! DEFINITION. One arm per row of spec/opcode_table.json, in the table's order. -/

namespace Sys2Proof.Machine

def exec (i : Instr) (s : State) : Host.Outcome State Fault Refusal :=
  match i with
  | .errClr => Sys2Proof.Machine.execErrClr s
  | .curAttach len data => Sys2Proof.Machine.execCurAttach len data s
  | .curRdbit => Sys2Proof.Machine.execCurRdbit s
  | .curRdbits n => Sys2Proof.Machine.execCurRdbits n s
  | .pieceDec => Sys2Proof.Machine.execPieceDec s
  | .posDec len data => Sys2Proof.Machine.execPosDec len data s
  | .moveDec w => Sys2Proof.Machine.execMoveDec w s
  | .reserved7 => Sys2Proof.Machine.execReserved7 s
  | .recOpen soff => Sys2Proof.Machine.execRecOpen soff s
  | .recRead => Sys2Proof.Machine.execRecRead s
  | .recRaw => Sys2Proof.Machine.execRecRaw s
  | .recCount => Sys2Proof.Machine.execRecCount s
  | .reservedC => Sys2Proof.Machine.execReservedC s
  | .reservedD => Sys2Proof.Machine.execReservedD s
  | .reservedE => Sys2Proof.Machine.execReservedE s
  | .reservedF => Sys2Proof.Machine.execReservedF s
  | .empty => Sys2Proof.Machine.execEmpty s
  | .pawn c => Sys2Proof.Machine.execPawn c s
  | .knight c => Sys2Proof.Machine.execKnight c s
  | .bishop c => Sys2Proof.Machine.execBishop c s
  | .rook c => Sys2Proof.Machine.execRook c s
  | .queen c => Sys2Proof.Machine.execQueen c s
  | .illegalB => Sys2Proof.Machine.execIllegalB s
  | .illegalD => Sys2Proof.Machine.execIllegalD s
  | .illegalF => Sys2Proof.Machine.execIllegalF s
  | .moveNone p f t => Sys2Proof.Machine.execMoveNone p f t s
  | .movePromo p f t => Sys2Proof.Machine.execMovePromo p f t s
  | .moveEp p f t => Sys2Proof.Machine.execMoveEp p f t s
  | .moveCastle p f t => Sys2Proof.Machine.execMoveCastle p f t s
  | .posfTurn t => Sys2Proof.Machine.execPosfTurn t s
  | .posfK1 k => Sys2Proof.Machine.execPosfK1 k s
  | .posfK2 k => Sys2Proof.Machine.execPosfK2 k s
  | .posfPieces syms => Sys2Proof.Machine.execPosfPieces syms s
  | .posfWk w => Sys2Proof.Machine.execPosfWk w s
  | .posfWq w => Sys2Proof.Machine.execPosfWq w s
  | .posfBk b => Sys2Proof.Machine.execPosfBk b s
  | .posfBq b => Sys2Proof.Machine.execPosfBq b s
  | .posfEpf e => Sys2Proof.Machine.execPosfEpf e s
  | .posfEpsq sq => Sys2Proof.Machine.execPosfEpsq sq s
  | .posfHmcLo h => Sys2Proof.Machine.execPosfHmcLo h s
  | .posfFmnLo l => Sys2Proof.Machine.execPosfFmnLo l s
  | .posfFmnHi u => Sys2Proof.Machine.execPosfFmnHi u s
  | .posfHmcHi h => Sys2Proof.Machine.execPosfHmcHi h s
  | .recfPosition blob => Sys2Proof.Machine.execRecfPosition blob s
  | .recfScore v => Sys2Proof.Machine.execRecfScore v s
  | .recfMove w => Sys2Proof.Machine.execRecfMove w s
  | .recfPly v => Sys2Proof.Machine.execRecfPly v s
  | .recfResult v => Sys2Proof.Machine.execRecfResult v s
  | .recfPadding v => Sys2Proof.Machine.execRecfPadding v s

end Sys2Proof.Machine
end

