-- ==== Sys2Proof/WellFormed.lean ====
section
/-! DEFINITION. Which instruction terms the encodings can spell: the checks on operands whose length the types do
not fix. An operand value that the block refuses (`CUR.RDBITS` with `n` above 16, `len` above 32) is well formed:
it can be issued, and its meaning is the refusal (30_encoding.md R73). -/

namespace Sys2Proof

/-- `data` is `len` bytes (30_encoding.md R60). -/
def dataFits (len : BitVec 6) (data : List Byte) : Bool := data.length == len.toNat

/-- A run of piece symbols has 62 symbols, or 63 when the king squares are equal (30_encoding.md R67). -/
def runFits (syms : List PieceSym) : Bool := syms.length == 62 || syms.length == 63

/-- The position field of a record is 32 bytes (20_memory.md R48). -/
def blobFits (blob : List Byte) : Bool := blob.length == Config.posBytes

/-- Well-formedness of an instruction, constructor by constructor. -/
def Instr.wellFormed : Instr → Bool
  | .errClr => true
  | .curAttach len data => dataFits len data
  | .curRdbit => true
  | .curRdbits _ => true
  | .pieceDec => true
  | .posDec len data => dataFits len data
  | .moveDec _ => true
  | .reserved7 => true
  | .recOpen _ => true
  | .recRead => true
  | .recRaw => true
  | .recCount => true
  | .reservedC => true
  | .reservedD => true
  | .reservedE => true
  | .reservedF => true
  | .empty => true
  | .pawn _ => true
  | .knight _ => true
  | .bishop _ => true
  | .rook _ => true
  | .queen _ => true
  | .illegalB => true
  | .illegalD => true
  | .illegalF => true
  | .moveNone _ _ _ => true
  | .movePromo _ _ _ => true
  | .moveEp _ _ _ => true
  | .moveCastle _ _ _ => true
  | .posfTurn _ => true
  | .posfK1 _ => true
  | .posfK2 _ => true
  | .posfPieces syms => runFits syms
  | .posfWk _ => true
  | .posfWq _ => true
  | .posfBk _ => true
  | .posfBq _ => true
  | .posfEpf _ => true
  | .posfEpsq _ => true
  | .posfHmcLo _ => true
  | .posfFmnLo _ => true
  | .posfFmnHi _ => true
  | .posfHmcHi _ => true
  | .recfPosition blob => blobFits blob
  | .recfScore _ => true
  | .recfMove _ => true
  | .recfPly _ => true
  | .recfResult _ => true
  | .recfPadding _ => true

end Sys2Proof
end

