-- ==== Sys2Proof/Decode.lean ====
section
/-! DEFINITION. The decoder of every row of spec/opcode_table.json, total on any bits (and so on any bytes),
rejecting by name; after it the encoder, written from the same tables.

A word is a list of bits, the bit read first at the head: bit `i` of the table's number is element `i`
(30_encoding.md R62). A command word is its 4-bit `op` and then its operands in the order and the widths of
30_encoding.md R60; the spec gives no layout, this one is the model's (log entry 8). -/

namespace Sys2Proof

/-- Why bits are rejected. -/
inductive DecodeError where
  /-- fewer bits than the row needs -/
  | tooShort
  /-- a run of piece symbols holds one of the codes 1011, 1101, 1111 (30_encoding.md R66) -/
  | badPieceCode
deriving DecidableEq, Repr

/-- The `width` low bits of a number, least significant first. -/
def bitsOfNat : Nat → Nat → List Bool
  | 0, _ => []
  | n + 1, v => (v % 2 == 1) :: bitsOfNat n (v / 2)

/-- The number whose bits, least significant first, are given (30_encoding.md R62). -/
def natOfBits : List Bool → Nat
  | [] => 0
  | b :: bs => b.toNat + 2 * natOfBits bs

/-- The bits of a bit vector, least significant first. -/
def bitsOf {n : Nat} (v : BitVec n) : List Bool := bitsOfNat n v.toNat

/-- Bytes in ascending index, each least significant bit first (00_scope.md R6). -/
def bitsOfBytes (bs : List Byte) : List Bool := bs.flatMap bitsOf

/-- An `n`-bit field at the front of the bits, and the bits after it. -/
def takeField (n : Nat) (bits : List Bool) : Except DecodeError (BitVec n × List Bool) :=
  if bits.length < n then .error .tooShort
  else .ok (BitVec.ofNat n (natOfBits (bits.take n)), bits.drop n)

/-- `n` bytes at the front of the bits, and the bits after them. -/
def takeBytes : Nat → List Bool → Except DecodeError (List Byte × List Bool)
  | 0, bits => .ok ([], bits)
  | n + 1, bits => do
    let (b, r) ← takeField 8 bits
    let (bs, r) ← takeBytes n r
    return (b :: bs, r)

/-- The kind a 4-bit code stands for: the code map of 30_encoding.md R65. -/
def kindOfCode : Nat → Option Kind
  | 0b0001 => some .pawn
  | 0b0011 => some .knight
  | 0b0101 => some .bishop
  | 0b0111 => some .rook
  | 0b1001 => some .queen
  | _ => none

/-- The code of a kind (30_encoding.md R65). -/
def codeOfKind : Kind → Nat
  | .pawn => 0b0001
  | .knight => 0b0011
  | .bishop => 0b0101
  | .rook => 0b0111
  | .queen => 0b1001

/-- The row of a piece symbol. -/
def rowOfSym : PieceSym → Instr
  | .empty => .empty
  | .man .pawn c => .pawn c
  | .man .knight c => .knight c
  | .man .bishop c => .bishop c
  | .man .rook c => .rook c
  | .man .queen c => .queen c

/-- What stands at the front of the bits of a piece stream: a legal symbol, or one of the three unassigned
4-bit codes with first bit 1 (30_encoding.md R63, R66). -/
inductive SymCode where
  | sym (s : PieceSym)
  | unassigned (code : BitVec 4)
deriving DecidableEq, Repr

/-- How the length of a symbol is told: 1 bit when the first bit is 0; when it is 1, four code bits, and after an
assigned code the colour bit (30_encoding.md R64). No colour bit is taken after an unassigned code (R66). -/
def takeSymCode : List Bool → Except DecodeError (SymCode × List Bool)
  | [] => .error .tooShort
  | false :: r => .ok (.sym .empty, r)
  | true :: r => do
    let (code, r) ← takeField 4 (true :: r)
    match kindOfCode code.toNat with
    | none => return (.unassigned code, r)
    | some k =>
      let (c, r) ← takeField 1 r
      return (.sym (.man k c), r)

/-- The row of an unassigned code. -/
def rowOfUnassigned (code : BitVec 4) : Instr :=
  match code.toNat with
  | 0b1011 => .illegalB
  | 0b1101 => .illegalD
  | _ => .illegalF

/-- A piece symbol row (30_encoding.md R65, R66). -/
def decodePieceSymbol (bits : List Bool) : Except DecodeError (Instr × List Bool) := do
  match ← takeSymCode bits with
  | (.sym s, r) => return (rowOfSym s, r)
  | (.unassigned code, r) => return (rowOfUnassigned code, r)

/-- A run of `n` legal piece symbols. -/
def takeSyms : Nat → List Bool → Except DecodeError (List PieceSym × List Bool)
  | 0, bits => .ok ([], bits)
  | n + 1, bits => do
    match ← takeSymCode bits with
    | (.unassigned _, _) => .error .badPieceCode
    | (.sym s, r) =>
      let (ss, r) ← takeSyms n r
      return (s :: ss, r)

/-- A move word: `to` in bits 5:0, `from` in 11:6, `promo_code` in 13:12, the form in 15:14
(30_encoding.md R70, R71). -/
def decodeMoveWord (bits : List Bool) : Except DecodeError (Instr × List Bool) := do
  let (t, r) ← takeField 6 bits
  let (f, r) ← takeField 6 r
  let (p, r) ← takeField 2 r
  let (special, r) ← takeField 2 r
  match special.toNat with
  | 0 => return (.moveNone p f t, r)
  | 1 => return (.movePromo p f t, r)
  | 2 => return (.moveEp p f t, r)
  | _ => return (.moveCastle p f t, r)

/-- A fixed-width field of the position stream (30_encoding.md R67). -/
def decodePosField (f : PosField) (bits : List Bool) : Except DecodeError (Instr × List Bool) :=
  match f with
  | .turn => do let (v, r) ← takeField 1 bits; return (.posfTurn v, r)
  | .k1 => do let (v, r) ← takeField 6 bits; return (.posfK1 v, r)
  | .k2 => do let (v, r) ← takeField 6 bits; return (.posfK2 v, r)
  | .wk => do let (v, r) ← takeField 1 bits; return (.posfWk v, r)
  | .wq => do let (v, r) ← takeField 1 bits; return (.posfWq v, r)
  | .bk => do let (v, r) ← takeField 1 bits; return (.posfBk v, r)
  | .bq => do let (v, r) ← takeField 1 bits; return (.posfBq v, r)
  | .epf => do let (v, r) ← takeField 1 bits; return (.posfEpf v, r)
  | .epsq => do let (v, r) ← takeField 6 bits; return (.posfEpsq v, r)
  | .hmcLo => do let (v, r) ← takeField 6 bits; return (.posfHmcLo v, r)
  | .fmnLo => do let (v, r) ← takeField 8 bits; return (.posfFmnLo v, r)
  | .fmnHi => do let (v, r) ← takeField 8 bits; return (.posfFmnHi v, r)
  | .hmcHi => do let (v, r) ← takeField 1 bits; return (.posfHmcHi v, r)

/-- A field of a record (20_memory.md R48): little-endian, the byte at the lower address first. -/
def decodeRecField (f : RecField) (bits : List Bool) : Except DecodeError (Instr × List Bool) :=
  match f with
  | .position => do let (blob, r) ← takeBytes Config.posBytes bits; return (.recfPosition blob, r)
  | .score => do let (v, r) ← takeField 16 bits; return (.recfScore v, r)
  | .move => do let (v, r) ← takeField 16 bits; return (.recfMove v, r)
  | .ply => do let (v, r) ← takeField 16 bits; return (.recfPly v, r)
  | .result => do let (v, r) ← takeField 8 bits; return (.recfResult v, r)
  | .padding => do let (v, r) ← takeField 8 bits; return (.recfPadding v, r)

/-- A command: the operation code and its operands (30_encoding.md R60, R73). `soff` has no width in the model
(00_scope.md R5): it is the number all the bits after `op` spell. -/
def decodeCommand (bits : List Bool) : Except DecodeError (Instr × List Bool) := do
  let (op, r) ← takeField 4 bits
  match op.toNat with
  | 0x0 => return (.errClr, r)
  | 0x1 =>
    let (len, r) ← takeField 6 r
    let (data, r) ← takeBytes len.toNat r
    return (.curAttach len data, r)
  | 0x2 => return (.curRdbit, r)
  | 0x3 =>
    let (n, r) ← takeField 5 r
    return (.curRdbits n, r)
  | 0x4 => return (.pieceDec, r)
  | 0x5 =>
    let (len, r) ← takeField 6 r
    let (data, r) ← takeBytes len.toNat r
    return (.posDec len data, r)
  | 0x6 =>
    let (w, r) ← takeField 16 r
    return (.moveDec w, r)
  | 0x7 => return (.reserved7, r)
  | 0x8 => return (.recOpen (natOfBits r), [])
  | 0x9 => return (.recRead, r)
  | 0xA => return (.recRaw, r)
  | 0xB => return (.recCount, r)
  | 0xC => return (.reservedC, r)
  | 0xD => return (.reservedD, r)
  | 0xE => return (.reservedE, r)
  | _ => return (.reservedF, r)

/-- The decoder: the instruction at the front of the bits, read in a format, and the bits after it. -/
def decode : Format → List Bool → Except DecodeError (Instr × List Bool)
  | .command, bits => decodeCommand bits
  | .pieceSymbol, bits => decodePieceSymbol bits
  | .moveWord, bits => decodeMoveWord bits
  | .posField f, bits => decodePosField f bits
  | .posPieces n, bits => do let (ss, r) ← takeSyms n bits; return (.posfPieces ss, r)
  | .recField f, bits => decodeRecField f bits

/-- The decoder on bytes, ascending index. -/
def decodeBytes (fmt : Format) (bs : List Byte) : Except DecodeError (Instr × List Bool) :=
  decode fmt (bitsOfBytes bs)

/-! ### The encoder -/

/-- The bits of a piece symbol (30_encoding.md R63, R65): four code bits, then the colour. -/
def encodeSym : PieceSym → List Bool
  | .empty => [false]
  | .man k c => bitsOfNat 4 (codeOfKind k) ++ bitsOf c

/-- A command's operation code (30_encoding.md R60). -/
def encodeOp (op : Nat) : List Bool := bitsOfNat 4 op

/-- A move word (30_encoding.md R70, R71). -/
def encodeMove (special : Nat) (p : BitVec 2) (f t : Sq) : List Bool :=
  bitsOf t ++ bitsOf f ++ bitsOf p ++ bitsOfNat 2 special

/-- The bits of an instruction, in its own format. -/
def encode : Instr → List Bool
  | .errClr => encodeOp 0x0
  | .curAttach len data => encodeOp 0x1 ++ bitsOf len ++ bitsOfBytes data
  | .curRdbit => encodeOp 0x2
  | .curRdbits n => encodeOp 0x3 ++ bitsOf n
  | .pieceDec => encodeOp 0x4
  | .posDec len data => encodeOp 0x5 ++ bitsOf len ++ bitsOfBytes data
  | .moveDec w => encodeOp 0x6 ++ bitsOf w
  | .reserved7 => encodeOp 0x7
  | .recOpen soff => encodeOp 0x8 ++ bitsOfNat (soff.log2 + 1) soff
  | .recRead => encodeOp 0x9
  | .recRaw => encodeOp 0xA
  | .recCount => encodeOp 0xB
  | .reservedC => encodeOp 0xC
  | .reservedD => encodeOp 0xD
  | .reservedE => encodeOp 0xE
  | .reservedF => encodeOp 0xF
  | .empty => encodeSym .empty
  | .pawn c => encodeSym (.man .pawn c)
  | .knight c => encodeSym (.man .knight c)
  | .bishop c => encodeSym (.man .bishop c)
  | .rook c => encodeSym (.man .rook c)
  | .queen c => encodeSym (.man .queen c)
  | .illegalB => bitsOfNat 4 0b1011
  | .illegalD => bitsOfNat 4 0b1101
  | .illegalF => bitsOfNat 4 0b1111
  | .moveNone p f t => encodeMove 0 p f t
  | .movePromo p f t => encodeMove 1 p f t
  | .moveEp p f t => encodeMove 2 p f t
  | .moveCastle p f t => encodeMove 3 p f t
  | .posfTurn t => bitsOf t
  | .posfK1 k => bitsOf k
  | .posfK2 k => bitsOf k
  | .posfPieces syms => syms.flatMap encodeSym
  | .posfWk w => bitsOf w
  | .posfWq w => bitsOf w
  | .posfBk b => bitsOf b
  | .posfBq b => bitsOf b
  | .posfEpf e => bitsOf e
  | .posfEpsq sq => bitsOf sq
  | .posfHmcLo h => bitsOf h
  | .posfFmnLo l => bitsOf l
  | .posfFmnHi u => bitsOf u
  | .posfHmcHi h => bitsOf h
  | .recfPosition blob => bitsOfBytes blob
  | .recfScore v => bitsOf v
  | .recfMove w => bitsOf w
  | .recfPly v => bitsOf v
  | .recfResult v => bitsOf v
  | .recfPadding v => bitsOf v

/-- The format an instruction is written in (the "format" of its row in spec/opcode_table.json). -/
def formatOf : Instr → Format
  | .errClr => .command
  | .curAttach _ _ => .command
  | .curRdbit => .command
  | .curRdbits _ => .command
  | .pieceDec => .command
  | .posDec _ _ => .command
  | .moveDec _ => .command
  | .reserved7 => .command
  | .recOpen _ => .command
  | .recRead => .command
  | .recRaw => .command
  | .recCount => .command
  | .reservedC => .command
  | .reservedD => .command
  | .reservedE => .command
  | .reservedF => .command
  | .empty => .pieceSymbol
  | .pawn _ => .pieceSymbol
  | .knight _ => .pieceSymbol
  | .bishop _ => .pieceSymbol
  | .rook _ => .pieceSymbol
  | .queen _ => .pieceSymbol
  | .illegalB => .pieceSymbol
  | .illegalD => .pieceSymbol
  | .illegalF => .pieceSymbol
  | .moveNone _ _ _ => .moveWord
  | .movePromo _ _ _ => .moveWord
  | .moveEp _ _ _ => .moveWord
  | .moveCastle _ _ _ => .moveWord
  | .posfTurn _ => .posField .turn
  | .posfK1 _ => .posField .k1
  | .posfK2 _ => .posField .k2
  | .posfPieces syms => .posPieces syms.length
  | .posfWk _ => .posField .wk
  | .posfWq _ => .posField .wq
  | .posfBk _ => .posField .bk
  | .posfBq _ => .posField .bq
  | .posfEpf _ => .posField .epf
  | .posfEpsq _ => .posField .epsq
  | .posfHmcLo _ => .posField .hmcLo
  | .posfFmnLo _ => .posField .fmnLo
  | .posfFmnHi _ => .posField .fmnHi
  | .posfHmcHi _ => .posField .hmcHi
  | .recfPosition _ => .recField .position
  | .recfScore _ => .recField .score
  | .recfMove _ => .recField .move
  | .recfPly _ => .recField .ply
  | .recfResult _ => .recField .result
  | .recfPadding _ => .recField .padding

/-! ### Words numbered as the opcode table numbers them -/

/-- The bits of the longest command word: `op`, `len` and 63 data bytes. -/
def longestWord : Nat := 4 + 6 + 8 * 63

/-- The bits of a table word of `nbits` bits; every bit above them is 0, up to the longest instruction. -/
def tableBits (nbits w : Nat) : List Bool := bitsOfNat (max nbits longestWord) (w % 2 ^ nbits)

/-- The format a table word is taken in. Rows of different formats share words, so the width decides: 16 bits is a
move word, 256 bits a record's position field; shorter words are commands, but for the five bytes `000c` `code`
with `c` = 1, which are no 4-bit operation code and spell a black piece symbol (log entry 10). -/
def tableFormat (nbits w : Nat) : Format :=
  if nbits = 256 then .recField .position
  else if nbits = 16 then .moveWord
  else if nbits ≤ 8 ∧ w / 16 = 1 ∧ (kindOfCode (w % 16)).isSome then .pieceSymbol
  else .command

/-- The instruction the decoder reads from a word numbered as spec/opcode_table.json numbers it. -/
def decodeTableWord (nbits w : Nat) : Option Instr :=
  match decode (tableFormat nbits w) (tableBits nbits w) with
  | .ok (i, _) => some i
  | .error _ => none

end Sys2Proof
end

