-- ==== Sys2Proof/Machine/Fetch.lean ====
section
/-! DEFINITION. Fetching the bits of the next instruction, and placing an instruction where the fetch finds it.
A command and a move word come with the request; a piece symbol or a position field stands at the cursor
(10_state.md R12: `POS` "selects the next symbol of the stream to decode"); a record field stands in the stream at
`RP` plus its offset (44_record.md R142). -/

namespace Sys2Proof.Machine

/-- What the fetch of a request gives. -/
inductive Fetched where
  /-- an instruction to execute -/
  | instr (i : Instr)
  /-- the symbol's bits end the decode: the fault is taken -/
  | raises (c : Cause)
  /-- the unit is not in a state to take the request: refused -/
  | turnedAway
  /-- a byte below `FSIZE` is not in the stream -/
  | absent
  /-- the host's bits are no command -/
  | notACommand
deriving DecidableEq, Repr

/-- The fault a rejected symbol raises (60_exceptions.md R161, R162). -/
def causeOfReject : DecodeError → Cause
  | .tooShort => .truncatedRecord
  | .badPieceCode => .corruptEncoding

/-- Bits met by a unit of the block, decoded in a format. -/
def fetchSymbol (fmt : Format) (bits : List Bool) : Fetched :=
  match decode fmt bits with
  | .ok (i, _) => .instr i
  | .error e => .raises (causeOfReject e)

/-- Bits handed over by the host, decoded in a format. DESIGN CHOICE (log entry 22): bits beyond a command's operands,
or beyond the 16 of a move word, are dropped and the instruction runs. Too few bits are no command (log entry 20). -/
def fetchWord (fmt : Format) (bits : List Bool) : Fetched :=
  match decode fmt bits with
  | .ok (i, _) => .instr i
  | .error _ => .notACommand

/-- The bits of a record field, from the stream. -/
def fetchRecField (f : RecField) (s : State) : Fetched :=
  match memRead s (s.rp + recOffset f) (recSize f) with
  | .bytes bs => fetchSymbol (.recField f) (bitsOfBytes bs)
  | .truncated => .raises .truncatedRecord
  | .absent => .absent

/-- A position field exists at the cursor: the en-passant square only after a flag of 1 (30_encoding.md R72). -/
def fieldExists (f : PosField) (s : State) : Bool :=
  match f with
  | .epsq => s.work.epv == 1
  | _ => true

/-- The fetch of a request. While a fault is latched no unit takes a symbol (60_exceptions.md R169). -/
def fetch (r : Request) (s : State) : Fetched :=
  match r with
  | .command bits => fetchWord .command bits
  | .moveWord bits => fetchWord .moveWord bits
  | .pieceSymbol => if faultFree s then fetchSymbol .pieceSymbol (bitsAhead (cursorOf s)) else .turnedAway
  | .posField f =>
    if faultFree s && fieldExists f s then fetchSymbol (.posField f) (bitsAhead (cursorOf s)) else .turnedAway
  | .posPieces =>
    if faultFree s then fetchSymbol (.posPieces (symbolCount s.work)) (bitsAhead (cursorOf s)) else .turnedAway
  | .recField f => if faultFree s && isOpen s then fetchRecField f s else .turnedAway

/-- Places bits at the cursor, byte by byte from bit 0 of `BUF[0]`. -/
def placeAtCursor (bs : List Byte) (s : State) : State :=
  setCursor (attachCursor s.buf bs.length bs) s

/-- Supplies bytes as the platform's stream and opens the reader on them. -/
def placeInStream (bs : List Byte) (s : State) : State :=
  setReader bs.length 0 { s with stream := streamOfBytes bs }

/-- The low `n` bytes of a number, least significant first. -/
def bytesOfNat : Nat → Nat → List Byte
  | 0, _ => []
  | n + 1, w => BitVec.ofNat 8 w :: bytesOfNat n (w / 256)

/-- Places a table word where the fetch finds it, in the format the word is taken in: a command or a move word in
the inbox; a piece symbol at the cursor; a position blob in the stream, as the first bytes of a 40-byte stream. -/
def placeTableWord (nbits w : Nat) (s : State) : State :=
  match tableFormat nbits w with
  | .command => { s with inbox := .command (tableBits nbits w) :: s.inbox }
  | .moveWord => { s with inbox := .moveWord (tableBits nbits w) :: s.inbox }
  | .pieceSymbol => placeAtCursor (bytesOfNat 1 w) { s with inbox := .pieceSymbol :: s.inbox }
  | .posField f => placeAtCursor (bytesOfNat 1 w) { s with inbox := .posField f :: s.inbox }
  | .posPieces _ => placeAtCursor (bytesOfNat 32 w) { s with inbox := .posPieces :: s.inbox }
  | .recField f => placeInStream (bytesOfNat 40 (w % 2 ^ nbits)) { s with inbox := .recField f :: s.inbox }

end Sys2Proof.Machine
end

