-- ==== Sys2Proof/Machine/Step.lean ====
section
/-! DEFINITION. One step: the next request is taken from the inbox, fetched, decoded and executed (20_memory.md
R51, 70_reset_and_hazards.md R195). -/

namespace Sys2Proof.Machine

/-- One step. With nothing asked of it the block is idle and "holds its registers" (60_exceptions.md R176). -/
def step (s : State) : Host.Outcome State Fault Refusal :=
  match s.inbox with
  | [] => .next s
  | r :: rest =>
    let t := { s with inbox := rest }
    match fetch r t with
    | .instr i => exec i t
    | .raises c => .next (takeFault c t)
    | .turnedAway => .next (refuse t)
    | .absent => .fault .streamShrunk
    | .notACommand => .refused .notACommand

/-- The state whose next step fetches and runs a word numbered as spec/opcode_table.json numbers it. -/
def State.withFetchWord (s : State) (nbits w : Nat) : State := placeTableWord nbits w s

end Sys2Proof.Machine
end

