-- ==== Sys2Proof/Safety.lean ====
section
/-! DEFINITION. What the claims about the block are said in: a final run, what a host may read, the invariant of
the registers, and the position stream of a known position. -/

namespace Sys2Proof.Machine

/-- A run is final when nothing is left to answer, no fault is latched and no command of the run was refused
(70_reset_and_hazards.md R198). DESIGN CHOICE (log entry 23): an empty inbox says that the host has issued its last
command, and a run of no commands, which has no last command, is final. -/
def State.isFinal (s : State) : Bool := s.inbox.isEmpty && s.err == 0 && !s.refusedSeen

/-- The result registers of 10_state.md R32, `BOARD` by square and `RAW` by byte. -/
inductive ResultReg where
  | val
  | pk
  | pcol
  | board (sq : Sq)
  | turn
  | castle
  | epv
  | epsq
  | hmc
  | fmn
  | mto
  | mfrom
  | mpromo
  | mspecial
  | score
  | movew
  | ply
  | result
  | raw (k : Fin 40)
deriving DecidableEq, Repr

/-- The value if the register holds one. -/
def whenWritten (mark : Bool) (v : Int) : Option Int := if mark then some v else none

/-- What a host reads from a result register: none while it holds no value (10_state.md R32,
93_implementation_defined.md U12). -/
def hostRead (r : ResultReg) (s : State) : Option Int :=
  match r with
  | .val => whenWritten s.written.val s.val.toNat
  | .pk => whenWritten s.written.piece s.pk.toNat
  | .pcol => whenWritten s.written.piece s.pcol.toNat
  | .board sq => whenWritten s.written.position (s.board.getD sq.toNat 0).toNat
  | .turn => whenWritten s.written.position s.turn.toNat
  | .castle => whenWritten s.written.position s.castle.toNat
  | .epv => whenWritten s.written.position s.epv.toNat
  | .epsq => whenWritten s.written.position s.epsq.toNat
  | .hmc => whenWritten s.written.position s.hmc.toNat
  | .fmn => whenWritten s.written.position s.fmn.toNat
  | .mto => whenWritten s.written.move s.mto.toNat
  | .mfrom => whenWritten s.written.move s.mfrom.toNat
  | .mpromo => whenWritten s.written.move s.mpromo.toNat
  | .mspecial => whenWritten s.written.move s.mspecial.toNat
  | .score => whenWritten s.written.score s.scoreValue
  | .movew => whenWritten s.written.movew s.movew.toNat
  | .ply => whenWritten s.written.ply s.ply.toNat
  | .result => whenWritten s.written.result s.resultValue
  | .raw k => whenWritten s.written.raw (s.raw.get k).toNat

/-- A board cell that can occur: empty (then the colour bit is 0 too), or a kind 1..6 of either colour
(10_state.md R16). -/
def cellLegal (c : BoardCell) : Bool := c == 0 || (decide (1 ≤ c.toNat % 8) && decide (c.toNat % 8 ≤ 6))

/-- Every cell of a board can occur. -/
def boardLegal (b : Vector BoardCell 64) : Prop := ∀ sq : Sq, cellLegal (b.getD sq.toNat 0) = true

/-- The invariant of the registers: what 93_implementation_defined.md U14 says cannot occur does not, the cursor
stays inside its bytes (10_state.md R12), the reader registers agree with the stream (R27), and the stream keeps
its canonical form. -/
structure StateInv (s : State) : Prop where
  lenBound : s.len.toNat ≤ 32
  posBound : s.pos.toNat ≤ 8 * s.len.toNat
  errLegal : s.err ≠ 3
  pieceLegal : s.pk.toNat ≤ 5 ∧ (s.pk = 0 → s.pcol = 0)
  boardCells : boardLegal s.board
  epAbsent : s.epv = 0 → s.epsq = 0
  promoLegal : s.mpromo = 0 ∨ (2 ≤ s.mpromo.toNat ∧ s.mpromo.toNat ≤ 5)
  promoForm : s.mpromo ≠ 0 ↔ s.mspecial = 1
  workCells : boardLegal s.work.board
  workEpAbsent : s.work.epv = 0 → s.work.epsq = 0
  closedReader : s.opn = 0 → s.fsize = 0 ∧ s.soff = 0 ∧ s.count = 0 ∧ s.rp = 0
  openReader : s.opn = 1 → s.fsize = s.stream.size ∧ s.count = s.fsize / 40 ∧ ∃ j, s.rp = s.soff + 40 * j
  streamWf : s.stream.wf = true

/-! ### A known position and its stream -/

/-- The values of the fields of a position stream (30_encoding.md R67); `ep` is none when the flag is 0. -/
structure PosStream where
  turn : Bit
  k1 : Sq
  k2 : Sq
  syms : List PieceSym
  wk : Bit
  wq : Bit
  bk : Bit
  bq : Bit
  ep : Option Sq
  hLo : BitVec 6
  fLo : Byte
  fHi : Byte
  hHi : Bit
deriving DecidableEq, Repr

/-- Fields 9 and 10: the flag, and the square when the flag is 1 (30_encoding.md R67). -/
def epBits : Option Sq → List Bool
  | none => [false]
  | some sq => true :: bitsOf sq

/-- The stream, field after field without gaps (30_encoding.md R67). -/
def PosStream.bits (p : PosStream) : List Bool :=
  bitsOf p.turn ++ bitsOf p.k1 ++ bitsOf p.k2 ++ p.syms.flatMap encodeSym ++ bitsOf p.wk ++ bitsOf p.wq ++
    bitsOf p.bk ++ bitsOf p.bq ++ epBits p.ep ++ bitsOf p.hLo ++ bitsOf p.fLo ++ bitsOf p.fHi ++ bitsOf p.hHi

/-- One symbol for every square that is no King's: 62, or 63 when the king squares are equal (42_position.md
R113). -/
def PosStream.countOk (p : PosStream) : Prop := p.syms.length = if p.k1 = p.k2 then 63 else 62

/-- The visiting order in numbers: the `k`-th square visited is `8*(7 - k div 8) + k mod 8` (42_position.md R113).
Written apart from the machine's own `visitOrder`, so that the claims say the order themselves. -/
def visitedSquares : List Sq := (List.range 64).map fun k => BitVec.ofNat 6 (8 * (7 - k / 8) + k % 8)

/-- The squares that take a symbol, in visiting order: all but the Kings' (42_position.md R113). -/
def dueSquares (k1 k2 : Sq) : List Sq := visitedSquares.filter fun sq => sq != k1 && sq != k2

/-- The squares of a stream that take a symbol. -/
def PosStream.filled (p : PosStream) : List Sq := dueSquares p.k1 p.k2

/-- What `BOARD` holds on a square after the decode (42_position.md R112, R114): the black King on `k2`, else the
white King on `k1`, else the result of the square's symbol. -/
def PosStream.cellAt (p : PosStream) (sq : Sq) : BoardCell :=
  if sq = p.k2 then 0xE
  else if sq = p.k1 then 0x6
  else match p.syms[p.filled.idxOf sq]? with
    | none => 0
    | some sym => boardCell (symColour sym) (symKind sym)

/-- How many symbols are pieces: the `p` of 30_encoding.md R67. -/
def PosStream.pieces (p : PosStream) : Nat := p.syms.countP fun sym => sym != .empty

/-- 1 when there is an en-passant target, else 0: the `epf` of 30_encoding.md R67. -/
def PosStream.epFlag (p : PosStream) : Nat := if p.ep.isSome then 1 else 0

/-- The registers a completed position decode leaves, apart from `BUF` (42_position.md R110, R120). -/
structure PosStream.Shown (p : PosStream) (t : State) : Prop where
  board : ∀ sq : Sq, t.board.getD sq.toNat 0 = p.cellAt sq
  turn : t.turn = p.turn
  castle : t.castle.toNat = p.wk.toNat + 2 * p.wq.toNat + 4 * p.bk.toNat + 8 * p.bq.toNat
  ep : t.epTarget = p.ep
  epsq : p.ep = none → t.epsq = 0
  hmc : t.hmc.toNat = 64 * p.hHi.toNat + p.hLo.toNat
  fmn : t.fmn.toNat = 256 * p.fHi.toNat + p.fLo.toNat
  pos : t.pos.toNat = p.bits.length
  len : t.len = 32

/-- The stream stands at the front of 32 bytes (42_position.md R110); the bits after it are ignored
(30_encoding.md R72). -/
def PosStream.heads (p : PosStream) (data : List Byte) : Prop :=
  data.length = 32 ∧ ∃ pad, bitsOfBytes data = p.bits ++ pad

/-- Bytes as one little-endian number (40_bitcursor.md R93 (d)). -/
def leNumber : List Byte → Nat
  | [] => 0
  | b :: bs => b.toNat + 256 * leNumber bs

/-! ### What a step leaves, as the claims say it -/

/-- The state after the fault `TruncatedRecord` (60_exceptions.md R166). -/
def truncatedAt (s : State) : State := { s with err := 1, resp := .fault .truncatedRecord }

/-- The state after the fault `CorruptEncoding` (60_exceptions.md R166). -/
def corruptAt (s : State) : State := { s with err := 2, resp := .fault .corruptEncoding }

/-- The state after a refusal (60_exceptions.md R170). `refusedSeen` is the model's own mark, for the definition of a
final run (70_reset_and_hazards.md R198, log entry 1). -/
def refusedAt (s : State) : State := { s with resp := .refused, refusedSeen := true }

/-- The state after a piece symbol of `n` bits, of kind number `k` and colour `c` (41_piececode.md R101). -/
def afterPiece (n : Nat) (k : BitVec 3) (c : Bit) (s : State) : State :=
  { s with
    pos := BitVec.ofNat 9 (s.pos.toNat + n), pk := k, pcol := c, written := { s.written with piece := true },
    resp := .ok }

/-- The state after a move of which `w` is the word (43_move.md R132). -/
def afterMove (w : Nat) (s : State) : State :=
  { s with
    mto := BitVec.ofNat 6 w, mfrom := BitVec.ofNat 6 (w / 64), mspecial := BitVec.ofNat 2 (w / 16384),
    mpromo := if w / 16384 = 1 then BitVec.ofNat 3 (w / 4096 % 4 + 2) else 0,
    written := { s.written with move := true }, resp := .ok }

/-- The state after a field of `n` bits of a position stream, `w` being the hidden state it leaves. -/
def afterField (n : Nat) (w : Work) (s : State) : State :=
  { s with pos := BitVec.ofNat 9 (s.pos.toNat + n), work := w, resp := .ok }

/-- `t` agrees with `s` but for the registers that a position decode writes (10_state.md R33) and the response. -/
def onlyPositionChanged (s t : State) : Prop :=
  t = { s with
    buf := t.buf, len := t.len, pos := t.pos, board := t.board, turn := t.turn, castle := t.castle, epv := t.epv,
    epsq := t.epsq, hmc := t.hmc, fmn := t.fmn, written := { s.written with position := true }, resp := t.resp }

/-- The bytes of a list stand in `BUF` from `BUF[0]` upward. -/
def bufHolds (s : State) (data : List Byte) : Prop := ∀ k, k < data.length → s.buf.getD k 0 = data.getD k 0

/-! ### Which instruction writes which register -/

/-- The registers of 10_state.md R10 in groups that are always written together; `work` is the hidden state (R15). -/
inductive RegGroup where
  /-- `BUF`, `LEN` -/
  | cursor
  | pos
  | val
  /-- `PK`, `PCOL` -/
  | piece
  /-- `BOARD`, `TURN`, `CASTLE`, `EPV`, `EPSQ`, `HMC`, `FMN` -/
  | position
  /-- `MTO`, `MFROM`, `MPROMO`, `MSPECIAL` -/
  | move
  | score
  | movew
  | ply
  | result
  | raw
  /-- `FSIZE`, `SOFF`, `COUNT`, `OPN` -/
  | reader
  | rp
  | err
  | work
deriving DecidableEq, Repr

/-- The registers of a group, with their marks of being written, are the same in two states. -/
def sameGroup (g : RegGroup) (s t : State) : Prop :=
  match g with
  | .cursor => t.buf = s.buf ∧ t.len = s.len
  | .pos => t.pos = s.pos
  | .val => t.val = s.val ∧ t.written.val = s.written.val
  | .piece => t.pk = s.pk ∧ t.pcol = s.pcol ∧ t.written.piece = s.written.piece
  | .position =>
    t.board = s.board ∧ t.turn = s.turn ∧ t.castle = s.castle ∧ t.epv = s.epv ∧ t.epsq = s.epsq ∧ t.hmc = s.hmc ∧
      t.fmn = s.fmn ∧ t.written.position = s.written.position
  | .move =>
    t.mto = s.mto ∧ t.mfrom = s.mfrom ∧ t.mpromo = s.mpromo ∧ t.mspecial = s.mspecial ∧
      t.written.move = s.written.move
  | .score => t.score = s.score ∧ t.written.score = s.written.score
  | .movew => t.movew = s.movew ∧ t.written.movew = s.written.movew
  | .ply => t.ply = s.ply ∧ t.written.ply = s.written.ply
  | .result => t.result = s.result ∧ t.written.result = s.written.result
  | .raw => t.raw = s.raw ∧ t.written.raw = s.written.raw
  | .reader => t.fsize = s.fsize ∧ t.soff = s.soff ∧ t.count = s.count ∧ t.opn = s.opn
  | .rp => t.rp = s.rp
  | .err => t.err = s.err
  | .work => t.work = s.work

/-- The groups an instruction writes when it completes: the column "Writes" of 10_state.md R33 for the commands; for
the other rows, the registers that their step of a command writes (log entry 9). -/
def writtenBy : Instr → List RegGroup
  | .errClr => [.err]
  | .curAttach _ _ => [.cursor, .pos]
  | .curRdbit => [.pos, .val]
  | .curRdbits _ => [.pos, .val]
  | .pieceDec => [.pos, .piece]
  | .posDec _ _ => [.cursor, .pos, .position]
  | .moveDec _ => [.move]
  | .reserved7 => []
  | .recOpen _ => [.reader, .rp]
  | .recRead => [.cursor, .pos, .position, .move, .score, .movew, .ply, .result, .rp]
  | .recRaw => [.raw, .rp]
  | .recCount => []
  | .reservedC => []
  | .reservedD => []
  | .reservedE => []
  | .reservedF => []
  | .empty => [.pos, .piece]
  | .pawn _ => [.pos, .piece]
  | .knight _ => [.pos, .piece]
  | .bishop _ => [.pos, .piece]
  | .rook _ => [.pos, .piece]
  | .queen _ => [.pos, .piece]
  | .illegalB => []
  | .illegalD => []
  | .illegalF => []
  | .moveNone _ _ _ => [.move]
  | .movePromo _ _ _ => [.move]
  | .moveEp _ _ _ => [.move]
  | .moveCastle _ _ _ => [.move]
  | .posfTurn _ => [.pos, .work]
  | .posfK1 _ => [.pos, .work]
  | .posfK2 _ => [.pos, .work]
  | .posfPieces _ => [.pos, .work]
  | .posfWk _ => [.pos, .work]
  | .posfWq _ => [.pos, .work]
  | .posfBk _ => [.pos, .work]
  | .posfBq _ => [.pos, .work]
  | .posfEpf _ => [.pos, .work]
  | .posfEpsq _ => [.pos, .work]
  | .posfHmcLo _ => [.pos, .work]
  | .posfFmnLo _ => [.pos, .work]
  | .posfFmnHi _ => [.pos, .work]
  | .posfHmcHi _ => [.pos, .position]
  | .recfPosition _ => [.cursor, .pos, .position]
  | .recfScore _ => [.score]
  | .recfMove _ => [.movew, .move]
  | .recfPly _ => [.ply]
  | .recfResult _ => [.result]
  | .recfPadding _ => []

/-- The group of a result register. -/
def ResultReg.group : ResultReg → RegGroup
  | .val => .val
  | .pk => .piece
  | .pcol => .piece
  | .board _ => .position
  | .turn => .position
  | .castle => .position
  | .epv => .position
  | .epsq => .position
  | .hmc => .position
  | .fmn => .position
  | .mto => .move
  | .mfrom => .move
  | .mpromo => .move
  | .mspecial => .move
  | .score => .score
  | .movew => .movew
  | .ply => .ply
  | .result => .result
  | .raw _ => .raw

/-- The reserved operation codes (30_encoding.md R73). -/
def isReserved (i : Instr) : Bool :=
  i == .reserved7 || i == .reservedC || i == .reservedD || i == .reservedE || i == .reservedF

/-- An operand of the command is out of range (30_encoding.md R73). -/
def operandOutOfRange : Instr → Bool
  | .curAttach len _ => decide (32 < len.toNat)
  | .posDec len _ => decide (32 < len.toNat)
  | .curRdbits n => decide (16 < n.toNat)
  | _ => false

/-- The commands that need an opened reader (60_exceptions.md R170). -/
def needsOpen (i : Instr) : Bool := i == .recRead || i == .recRaw || i == .recCount

/-! ### A known position, row by row -/

/-- The rows of a position stream in stream order (30_encoding.md R67). -/
def PosStream.rows (p : PosStream) : List Instr :=
  [.posfTurn p.turn, .posfK1 p.k1, .posfK2 p.k2, .posfPieces p.syms, .posfWk p.wk, .posfWq p.wq, .posfBk p.bk,
    .posfBq p.bq] ++
  (match p.ep with
   | none => [.posfEpf 0]
   | some sq => [.posfEpf 1, .posfEpsq sq]) ++
  [.posfHmcLo p.hLo, .posfFmnLo p.fLo, .posfFmnHi p.fHi, .posfHmcHi p.hHi]

/-- Instructions executed one after another, as long as there is a next state. -/
def execAll : List Instr → State → Result
  | [], s => .next s
  | i :: is, s =>
    match exec i s with
    | .next t => execAll is t
    | .fault f => .fault f
    | .refused r => .refused r

end Sys2Proof.Machine
end

