-- ==== Sys2Proof/Certificates/Slice0/Obligations.lean ====
section
/-! DEFINITION. The statements for the provers, family by family: encoding, step, reset, faults and refusals, bit
cursor, piece symbols, position, move, record, whole machine. Registers are named as in 10_state.md. -/

open Sys2Proof Sys2Proof.Machine

/-! ### Encoding -/

/-- Decoding the encoding of a well-formed instruction gives it back, every operand included, for every row of the
opcode table (30_encoding.md R60 to R71, 20_memory.md R48; the layout of a command's operands is log entry 8). -/
def Obligations.DecodeOfEncode : Prop :=
  ∀ i : Instr, i.wellFormed = true → decode (formatOf i) (encode i) = .ok (i, [])

/-- Every encoding but `REC.OPEN`'s tells its own length: whatever bits follow, they are left over. `REC.OPEN`'s
operand has no width (00_scope.md R5), and zeros after it change nothing (log entry 8). -/
def Obligations.EncodingEndsItself : Prop :=
  (∀ (i : Instr) (tail : List Bool), i.wellFormed = true → (∀ soff, i ≠ .recOpen soff) →
    decode (formatOf i) (encode i ++ tail) = .ok (i, tail)) ∧
  ∀ soff k : Nat, decode .command (encode (.recOpen soff) ++ List.replicate k false) = .ok (.recOpen soff, [])

/-- Words of the spec, bit by bit in stream order: every operation code 0x0 to 0xF (30_encoding.md R60, R73) with
operands of its widths, whose layout after the code is log entry 8; the symbols of R65, an unassigned code (R66), the
move word 0x7C38 of 43_move.md R130, the little-endian ply 01 00 (R69). -/
def Obligations.SpecWordsDecode : Prop :=
  decode .command [false, false, false, false] = .ok (.errClr, []) ∧
  decode .command
    [true, false, false, false, true, false, false, false, false, false,
      true, false, false, false, false, false, false, true] = .ok (.curAttach 1 [0x81], []) ∧
  decode .command [false, true, false, false] = .ok (.curRdbit, []) ∧
  decode .command [true, true, false, false, false, true, true, false, false] = .ok (.curRdbits 6, []) ∧
  decode .command [false, false, true, false] = .ok (.pieceDec, []) ∧
  decode .command
    [true, false, true, false, true, false, false, false, false, false,
      true, false, false, false, false, false, false, true] = .ok (.posDec 1 [0x81], []) ∧
  decode .command
    [false, true, true, false,
      false, false, false, true, true, true, false, false, false, false, true, true, true, true, true, false] =
    .ok (.moveDec 0x7C38, []) ∧
  decode .command [true, true, true, false] = .ok (.reserved7, []) ∧
  decode .command [false, false, false, true, false, false, false, true, false, true] = .ok (.recOpen 40, []) ∧
  decode .command [true, false, false, true] = .ok (.recRead, []) ∧
  decode .command [false, true, false, true] = .ok (.recRaw, []) ∧
  decode .command [true, true, false, true] = .ok (.recCount, []) ∧
  decode .command [false, false, true, true] = .ok (.reservedC, []) ∧
  decode .command [true, false, true, true] = .ok (.reservedD, []) ∧
  decode .command [false, true, true, true] = .ok (.reservedE, []) ∧
  decode .command [true, true, true, true] = .ok (.reservedF, []) ∧
  decode .pieceSymbol [false] = .ok (.empty, []) ∧
  decode .pieceSymbol [true, true, true, false, true] = .ok (.rook 1, []) ∧
  decode .pieceSymbol [true, false, false, true, false] = .ok (.queen 0, []) ∧
  decode .pieceSymbol [true, true, false, true, false] = .ok (.illegalB, [false]) ∧
  decode .moveWord
    [false, false, false, true, true, true, false, false, false, false, true, true, true, true, true, false] =
    .ok (.movePromo 3 48 56, []) ∧
  decode (.recField .ply)
    [true, false, false, false, false, false, false, false, false, false, false, false, false, false, false, false] =
    .ok (.recfPly 1, [])

/-- No piece symbol and no unassigned code is the beginning of another one (30_encoding.md R64, 41_piececode.md
R100). -/
def Obligations.PieceCodesPrefixFree : Prop :=
  ∀ (a b : Instr) (r : List Bool), formatOf a = .pieceSymbol → formatOf b = .pieceSymbol →
    encode a ++ r = encode b → a = b

/-! ### The step -/

/-- A step runs the decoded instruction: the request is taken from the inbox, and the step is `exec` of what the
decoder reads where the request's unit finds it (20_memory.md R51, R54; 10_state.md R12; log entries 7 and 9). Bits
left over after a command or a move word are dropped (log entry 22). -/
def Obligations.StepRunsDecoded : Prop :=
  ∀ (s : State) (rest : List Request) (i : Instr) (tail : List Bool),
    (∀ bits, s.inbox = .command bits :: rest → decode .command bits = .ok (i, tail) →
      step s = exec i { s with inbox := rest }) ∧
    (∀ bits, s.inbox = .moveWord bits :: rest → decode .moveWord bits = .ok (i, tail) →
      step s = exec i { s with inbox := rest }) ∧
    (s.inbox = .pieceSymbol :: rest → s.err = 0 → decode .pieceSymbol (bitsAhead (cursorOf s)) = .ok (i, tail) →
      step s = exec i { s with inbox := rest }) ∧
    (∀ f, s.inbox = .posField f :: rest → s.err = 0 → (f = .epsq → s.work.epv = 1) →
      decode (.posField f) (bitsAhead (cursorOf s)) = .ok (i, tail) → step s = exec i { s with inbox := rest }) ∧
    (s.inbox = .posPieces :: rest → s.err = 0 →
      decode (.posPieces (if s.work.k1 = s.work.k2 then 63 else 62)) (bitsAhead (cursorOf s)) = .ok (i, tail) →
      step s = exec i { s with inbox := rest }) ∧
    (∀ f bs, s.inbox = .recField f :: rest → s.err = 0 → s.opn = 1 → s.rp + recOffset f + recSize f ≤ s.fsize →
      readRange s.stream (s.rp + recOffset f) (recSize f) = some bs →
      decode (.recField f) (bitsOfBytes bs) = .ok (i, tail) → step s = exec i { s with inbox := rest })

/-- Every command the host can spell is executed when its turn comes (30_encoding.md R60, log entries 7 and 8). -/
def Obligations.IssuedCommandRuns : Prop :=
  ∀ (s : State) (rest : List Request) (i : Instr), i.wellFormed = true → formatOf i = .command →
    s.inbox = .command (encode i) :: rest → step s = exec i { s with inbox := rest }

/-- The other steps: with nothing asked the block holds everything (60_exceptions.md R176); a symbol, an unassigned
code or a field that the valid bytes cut off (at its first bit or part-way), a run of symbols cut off or holding an
unassigned code, and a record field past the stream's end raise their faults (R161, R162; requests for one row, log
entries 9 and 19); a unit that is not in a state to take a symbol turns it away (R169, R170; log entry 18); bits too
few for a command or a move word stop the machine (log entry 20). -/
def Obligations.StepOtherwise : Prop :=
  ∀ (s : State) (rest : List Request),
    (s.inbox = [] → step s = .next s) ∧
    (∀ (i : Instr) (cut : List Bool), s.inbox = .pieceSymbol :: rest → s.err = 0 → formatOf i = .pieceSymbol →
      cut ≠ [] → bitsAhead (cursorOf s) ++ cut = encode i →
      step s = .next (truncatedAt { s with inbox := rest })) ∧
    (∀ (i : Instr) (f : PosField), s.inbox = .posField f :: rest → s.err = 0 → (f = .epsq → s.work.epv = 1) →
      formatOf i = .posField f → 8 * s.len.toNat < s.pos.toNat + (encode i).length →
      step s = .next (truncatedAt { s with inbox := rest })) ∧
    (s.inbox = .posPieces :: rest → s.err = 0 →
      let run := decode (.posPieces (if s.work.k1 = s.work.k2 then 63 else 62)) (bitsAhead (cursorOf s))
      (run = .error .tooShort → step s = .next (truncatedAt { s with inbox := rest })) ∧
      (run = .error .badPieceCode → step s = .next (corruptAt { s with inbox := rest }))) ∧
    (∀ f, s.inbox = .recField f :: rest → s.err = 0 → s.opn = 1 → s.fsize < s.rp + recOffset f + recSize f →
      step s = .next (truncatedAt { s with inbox := rest })) ∧
    (s.err ≠ 0 → (s.inbox = .pieceSymbol :: rest ∨ (∃ f, s.inbox = .posField f :: rest) ∨
      s.inbox = .posPieces :: rest ∨ ∃ f, s.inbox = .recField f :: rest) →
      step s = .next (refusedAt { s with inbox := rest })) ∧
    ((s.inbox = .posField .epsq :: rest ∧ s.work.epv = 0) ∨ (∃ f, s.inbox = .recField f :: rest ∧ s.opn = 0) →
      step s = .next (refusedAt { s with inbox := rest })) ∧
    (∀ bits e, s.inbox = .command bits :: rest → decode .command bits = .error e →
      step s = .refused .notACommand) ∧
    (∀ bits, s.inbox = .moveWord bits :: rest → bits.length < 16 → step s = .refused .notACommand)

/-- The bytes of a record field give the operand of its row: little-endian, the byte at the lower address less
significant (20_memory.md R43, R48; 30_encoding.md R69). That a host can ask for one field, read at `RP` plus its
offset, is the model's (log entries 9 and 19). -/
def Obligations.RecordFieldsFetched : Prop :=
  ∀ (s : State) (rest : List Request) (b0 b1 : Byte), s.err = 0 → s.opn = 1 →
    (s.inbox = .recField .score :: rest → s.rp + 34 ≤ s.fsize → readByte s.stream (s.rp + 32) = some b0 →
      readByte s.stream (s.rp + 33) = some b1 →
      step s = exec (.recfScore (BitVec.ofNat 16 (b0.toNat + 256 * b1.toNat))) { s with inbox := rest }) ∧
    (s.inbox = .recField .move :: rest → s.rp + 36 ≤ s.fsize → readByte s.stream (s.rp + 34) = some b0 →
      readByte s.stream (s.rp + 35) = some b1 →
      step s = exec (.recfMove (BitVec.ofNat 16 (b0.toNat + 256 * b1.toNat))) { s with inbox := rest }) ∧
    (s.inbox = .recField .ply :: rest → s.rp + 38 ≤ s.fsize → readByte s.stream (s.rp + 36) = some b0 →
      readByte s.stream (s.rp + 37) = some b1 →
      step s = exec (.recfPly (BitVec.ofNat 16 (b0.toNat + 256 * b1.toNat))) { s with inbox := rest }) ∧
    (s.inbox = .recField .result :: rest → s.rp + 39 ≤ s.fsize → readByte s.stream (s.rp + 38) = some b0 →
      step s = exec (.recfResult b0) { s with inbox := rest }) ∧
    (s.inbox = .recField .padding :: rest → s.rp + 40 ≤ s.fsize → readByte s.stream (s.rp + 39) = some b0 →
      step s = exec (.recfPadding b0) { s with inbox := rest }) ∧
    (∀ blob, s.inbox = .recField .position :: rest → s.rp + 32 ≤ s.fsize →
      readRange s.stream s.rp 32 = some blob → step s = exec (.recfPosition blob) { s with inbox := rest })

/-! ### Reset -/

/-- The registers that decide behaviour are 0 after reset and no result register holds a value (10_state.md R32,
70_reset_and_hazards.md R190). What a result register's field holds is no part of this. That nothing waits in the
inbox, so that the block is idle, is log entry 7. -/
def Obligations.ResetLeaves : Prop :=
  State.reset.len = 0 ∧ State.reset.pos = 0 ∧ State.reset.opn = 0 ∧ State.reset.err = 0 ∧ State.reset.rp = 0 ∧
    State.reset.fsize = 0 ∧ State.reset.soff = 0 ∧ State.reset.count = 0 ∧
    (∀ r : ResultReg, hostRead r State.reset = none) ∧ step State.reset = .next State.reset

/-- Consequences of the reset state, on any stream the platform has put in place: a cursor read faults, a record
command is refused, `MOVE.DEC` completes and `POS.DEC` is neither refused nor without an answer
(70_reset_and_hazards.md R191; `CUR.RDBITS 0` reads no bit, 40_bitcursor.md R92). The stream is a field of the state
(log entry 5); that `MOVE.DEC` leaves `MOVEW` and its mark as they were is log entry 11. -/
def Obligations.AfterReset : Prop :=
  ∀ m : Memory, let s : State := { State.reset with stream := m }
    exec .curRdbit s = .next (truncatedAt s) ∧
    (∀ n : BitVec 5, 1 ≤ n.toNat → n.toNat ≤ 16 → exec (.curRdbits n) s = .next (truncatedAt s)) ∧
    exec .pieceDec s = .next (truncatedAt s) ∧
    exec .recRead s = .next (refusedAt s) ∧ exec .recRaw s = .next (refusedAt s) ∧
    exec .recCount s = .next (refusedAt s) ∧
    (∀ w, exec (.moveDec w) s = .next (afterMove w.toNat s)) ∧
    ∀ data : List Byte, data.length = 32 → ∃ t, exec (.posDec 32 data) s = .next t ∧
      (t.resp = .ok ∨ t = truncatedAt s ∨ t = corruptAt s)

/-- The registers after reset satisfy the invariant (10_state.md R32, 93_implementation_defined.md U14). For `PK`,
`PCOL`, `BOARD`, `EPV`, `EPSQ`, `MPROMO` and `MSPECIAL` this rests on the model's own zeros (log entry 2), for the
hidden position on those of log entry 4, for the stream on log entry 5. -/
def Obligations.ResetInvariant : Prop := StateInv State.reset

/-! ### Faults and refusals -/

/-- `ERR.CLR` is accepted in every state, faults never and writes `ERR` alone; reset clears `ERR` and no other
instruction does (60_exceptions.md R168). For the rows that are no command this is the model's (log entries 9, 18 and
19). -/
def Obligations.ErrClrClears : Prop :=
  (∀ s : State, exec .errClr s = .next { s with err := 0, resp := .ok }) ∧ State.reset.err = 0 ∧
  ∀ (i : Instr) (s t : State), i ≠ .errClr → s.err ≠ 0 → exec i s = .next t → t.err = s.err

/-- While `ERR` is not 0 every instruction but `ERR.CLR` is refused, so that a second fault cannot overwrite the
first (60_exceptions.md R169, for the commands). That the 33 rows that are no command are refused as well is the
model's choice (log entries 9, 18 and 19). -/
def Obligations.LatchedFaultRefusesAll : Prop :=
  ∀ (i : Instr) (s : State), s.err ≠ 0 → i ≠ .errClr → exec i s = .next (refusedAt s)

/-- Fault entry: `ERR` takes the cause, every other register keeps its value, the response is the fault
(60_exceptions.md R166, for the commands). That a row that is no command, executed by itself, faults in the same way is
the model's choice (log entries 9, 18 and 19). -/
def Obligations.FaultEntry : Prop :=
  ∀ (i : Instr) (s t : State) (c : Cause), exec i s = .next t → t.resp = .fault c →
    s.err = 0 ∧ t = match c with
      | .truncatedRecord => truncatedAt s
      | .corruptEncoding => corruptAt s

/-- A refused instruction changes no register, not even `ERR` (60_exceptions.md R170, for the commands). The mark that
a command of the run was refused is the model's own (log entry 1), and so is that a refused row that is no command
changes nothing and sets it (log entries 9, 18 and 19). -/
def Obligations.RefusalChangesNothing : Prop :=
  ∀ (i : Instr) (s t : State), exec i s = .next t → t.resp = .refused → t = refusedAt s

/-- When a command is refused: a reserved code, a latched fault, an operand out of range, a record command before
`REC.OPEN`; and never otherwise (60_exceptions.md R170, 30_encoding.md R73). -/
def Obligations.RefusedExactlyWhen : Prop :=
  ∀ (i : Instr) (s : State), formatOf i = .command →
    (exec i s = .next (refusedAt s) ↔
      isReserved i = true ∨ (s.err ≠ 0 ∧ i ≠ .errClr) ∨ operandOutOfRange i = true ∨
        (needsOpen i = true ∧ s.opn = 0))

/-- The reserved operation codes answer REFUSED in every state (30_encoding.md R73, 60_exceptions.md R170). -/
def Obligations.ReservedCodesRefused : Prop :=
  ∀ s : State, exec .reserved7 s = .next (refusedAt s) ∧ exec .reservedC s = .next (refusedAt s) ∧
    exec .reservedD s = .next (refusedAt s) ∧ exec .reservedE s = .next (refusedAt s) ∧
    exec .reservedF s = .next (refusedAt s)

/-- Which commands raise which fault (60_exceptions.md R160). -/
def Obligations.WhichCommandsFault : Prop :=
  ∀ (i : Instr) (s t : State), formatOf i = .command → exec i s = .next t →
    (t.resp = .fault .truncatedRecord → i = .curRdbit ∨ (∃ n, i = .curRdbits n) ∨ i = .pieceDec ∨
      (∃ len data, i = .posDec len data) ∨ i = .recRead ∨ i = .recRaw) ∧
    (t.resp = .fault .corruptEncoding → i = .pieceDec ∨ (∃ len data, i = .posDec len data) ∨ i = .recRead)

/-- A run in which a command was refused stays not final; nothing else sets the mark (70_reset_and_hazards.md R198).
The mark, and that a refused row that is no command sets it, are the model's (log entries 1 and 9), and so is that an
empty inbox stands for the end of the host's commands (log entry 23). -/
def Obligations.RefusalRemembered : Prop :=
  ∀ (i : Instr) (s t : State), exec i s = .next t →
    (t.refusedSeen = true ↔ s.refusedSeen = true ∨ t.resp = .refused) ∧
    (t.isFinal = true → s.refusedSeen = false ∧ t.err = 0 ∧ t.inbox = [])

/-! ### The bit cursor -/

/-- `CUR.ATTACH` copies `len` bytes to the front of `BUF` and puts the cursor at bit 0 (40_bitcursor.md R90); the
bytes of `BUF` from `len` on keep their value (log entry 14). -/
def Obligations.CurAttachEffect : Prop :=
  ∀ (s : State) (len : BitVec 6) (data : List Byte), s.err = 0 → len.toNat ≤ 32 → data.length = len.toNat →
    ∃ buf : Vector Byte 32,
      exec (.curAttach len data) s = .next { s with buf := buf, len := len, pos := 0, resp := .ok } ∧
      ∀ k, k < 32 → buf.getD k 0 = if k < len.toNat then data.getD k 0 else s.buf.getD k 0

/-- `CUR.RDBIT`: the bit at the cursor is bit `POS mod 8` of byte `POS div 8`; at the end of the valid bytes the
read faults and nothing moves (40_bitcursor.md R91). -/
def Obligations.CurRdbitEffect : Prop :=
  ∀ s : State, s.err = 0 →
    (s.pos.toNat / 8 < s.len.toNat →
      exec .curRdbit s = .next { s with
        pos := s.pos + 1,
        val := BitVec.ofNat 16 ((s.buf.getD (s.pos.toNat / 8) 0).toNat / 2 ^ (s.pos.toNat % 8) % 2),
        written := { s.written with val := true }, resp := .ok }) ∧
    (s.len.toNat ≤ s.pos.toNat / 8 → exec .curRdbit s = .next (truncatedAt s))

/-- `CUR.RDBITS n` takes `n` bits of `BUF` regarded as one little-endian number, at offset `POS`; `n` = 0 reads
nothing (40_bitcursor.md R92, R93 (a), (d)). -/
def Obligations.CurRdbitsEffect : Prop :=
  ∀ (s : State) (n : BitVec 5), s.err = 0 → n.toNat ≤ 16 →
    (s.pos.toNat + n.toNat ≤ 8 * s.len.toNat →
      exec (.curRdbits n) s = .next { s with
        pos := BitVec.ofNat 9 (s.pos.toNat + n.toNat),
        val := BitVec.ofNat 16 (leNumber s.buf.toList / 2 ^ s.pos.toNat % 2 ^ n.toNat),
        written := { s.written with val := true }, resp := .ok }) ∧
    (s.pos.toNat ≤ 8 * s.len.toNat → 8 * s.len.toNat < s.pos.toNat + n.toNat →
      exec (.curRdbits n) s = .next (truncatedAt s))

/-- Splitting a read: `a` bits and then `b` bits are the `a + b` bits read at once (40_bitcursor.md R93 (b)). -/
def Obligations.RdbitsSplit : Prop :=
  ∀ (s : State) (a b n : BitVec 5), s.err = 0 → n.toNat = a.toNat + b.toNat → n.toNat ≤ 16 →
    s.pos.toNat + n.toNat ≤ 8 * s.len.toNat →
    ∃ s1 s2 s3, exec (.curRdbits a) s = .next s1 ∧ exec (.curRdbits b) s1 = .next s2 ∧
      exec (.curRdbits n) s = .next s3 ∧ s3.pos = s2.pos ∧
      s3.val.toNat = s1.val.toNat + 2 ^ a.toNat * s2.val.toNat

/-- Reads at a byte boundary: 8 bits are the byte, 16 bits are the two bytes little-endian (40_bitcursor.md R93 (c),
20_memory.md R43). -/
def Obligations.RdbitsByteAligned : Prop :=
  ∀ (s : State) (i : Nat), s.err = 0 → s.pos.toNat = 8 * i →
    (i + 1 ≤ s.len.toNat → ∃ t, exec (.curRdbits 8) s = .next t ∧ t.val.toNat = (s.buf.getD i 0).toNat) ∧
    (i + 2 ≤ s.len.toNat → ∃ t, exec (.curRdbits 16) s = .next t ∧
      t.val.toNat = (s.buf.getD i 0).toNat + 256 * (s.buf.getD (i + 1) 0).toNat)

/-- `POS` decreases only where a buffer is attached (10_state.md R12, 40_bitcursor.md R90, 42_position.md R110). What
the rows that are no command do with `POS` is the model's (log entry 9). -/
def Obligations.PosNeverGoesBack : Prop :=
  ∀ (i : Instr) (s t : State), exec i s = .next t → t.pos.toNat < s.pos.toNat →
    t.resp = .ok ∧ ((∃ len data, i = .curAttach len data) ∨ (∃ len data, i = .posDec len data) ∨ i = .recRead ∨
      ∃ blob, i = .recfPosition blob)

/-! ### Piece symbols -/

/-- For every kind and colour, its code (bit 0 first) and the colour bit at the cursor decode to it and take 5 bits;
the single bit 0 decodes to no piece and takes 1 bit (41_piececode.md R101, R104; 30_encoding.md R65). -/
def Obligations.PieceDecDecodes : Prop :=
  ∀ (s : State) (r : List Bool), s.err = 0 →
    (bitsAhead (cursorOf s) = false :: r → exec .pieceDec s = .next (afterPiece 1 0 0 s)) ∧
    ∀ c : Bool,
      (bitsAhead (cursorOf s) = [true, false, false, false, c] ++ r →
        exec .pieceDec s = .next (afterPiece 5 1 (BitVec.ofBool c) s)) ∧
      (bitsAhead (cursorOf s) = [true, true, false, false, c] ++ r →
        exec .pieceDec s = .next (afterPiece 5 2 (BitVec.ofBool c) s)) ∧
      (bitsAhead (cursorOf s) = [true, false, true, false, c] ++ r →
        exec .pieceDec s = .next (afterPiece 5 3 (BitVec.ofBool c) s)) ∧
      (bitsAhead (cursorOf s) = [true, true, true, false, c] ++ r →
        exec .pieceDec s = .next (afterPiece 5 4 (BitVec.ofBool c) s)) ∧
      (bitsAhead (cursorOf s) = [true, false, false, true, c] ++ r →
        exec .pieceDec s = .next (afterPiece 5 5 (BitVec.ofBool c) s))

/-- The codes 1011, 1101 and 1111 raise `CorruptEncoding` once all four bits are there; bits that end before a
symbol or an unassigned code does raise `TruncatedRecord` (41_piececode.md R103). -/
def Obligations.PieceDecRejects : Prop :=
  ∀ s : State, s.err = 0 →
    (∀ r : List Bool, bitsAhead (cursorOf s) = [true, true, false, true] ++ r ∨
      bitsAhead (cursorOf s) = [true, false, true, true] ++ r ∨ bitsAhead (cursorOf s) = [true, true, true, true] ++ r →
      exec .pieceDec s = .next (corruptAt s)) ∧
    ∀ (i : Instr) (cut : List Bool), formatOf i = .pieceSymbol → cut ≠ [] →
      bitsAhead (cursorOf s) ++ cut = encode i → exec .pieceDec s = .next (truncatedAt s)

/-- `PIECE.DEC` is the row that the decoder finds at the cursor, executed; where the bits end too early it is the
fault (41_piececode.md R101 against 30_encoding.md R63 to R66). What a row does when it is executed by itself is the
model's (log entry 9). -/
def Obligations.PieceDecIsSymbolRow : Prop :=
  ∀ s : State, s.err = 0 →
    exec .pieceDec s = match decode .pieceSymbol (bitsAhead (cursorOf s)) with
      | .ok (i, _) => exec i s
      | .error _ => .next (truncatedAt s)

/-- The piece symbol rows: kind, colour and the bits taken (30_encoding.md R65, 10_state.md R14). That a row executed
by itself acts as `PIECE.DEC` on it is the model's (log entry 9). -/
def Obligations.PieceSymbolRows : Prop :=
  ∀ s : State, s.err = 0 →
    (s.pos.toNat + 1 ≤ 8 * s.len.toNat → exec .empty s = .next (afterPiece 1 0 0 s)) ∧
    (8 * s.len.toNat < s.pos.toNat + 1 → exec .empty s = .next (truncatedAt s)) ∧
    ∀ c : Bit,
      (s.pos.toNat + 5 ≤ 8 * s.len.toNat →
        exec (.pawn c) s = .next (afterPiece 5 1 c s) ∧ exec (.knight c) s = .next (afterPiece 5 2 c s) ∧
        exec (.bishop c) s = .next (afterPiece 5 3 c s) ∧ exec (.rook c) s = .next (afterPiece 5 4 c s) ∧
        exec (.queen c) s = .next (afterPiece 5 5 c s)) ∧
      (8 * s.len.toNat < s.pos.toNat + 5 →
        exec (.pawn c) s = .next (truncatedAt s) ∧ exec (.knight c) s = .next (truncatedAt s) ∧
        exec (.bishop c) s = .next (truncatedAt s) ∧ exec (.rook c) s = .next (truncatedAt s) ∧
        exec (.queen c) s = .next (truncatedAt s))

/-- The unassigned codes raise `CorruptEncoding` after their fourth bit, and never anything but a fault
(30_encoding.md R66, 41_piececode.md R103; as rows, log entry 9). -/
def Obligations.IllegalCodesRaise : Prop :=
  ∀ (s : State) (i : Instr), s.err = 0 → i = .illegalB ∨ i = .illegalD ∨ i = .illegalF →
    (s.pos.toNat + 4 ≤ 8 * s.len.toNat → exec i s = .next (corruptAt s)) ∧
    (8 * s.len.toNat < s.pos.toNat + 4 → exec i s = .next (truncatedAt s))

/-! ### The position -/

/-- `POS.DEC` decodes every stream that fits: the square of each symbol, the Kings, the flags, the en-passant
square, the two counters, the bits taken; it writes nothing else (42_position.md R110 to R120, 30_encoding.md R67,
R68). -/
def Obligations.PosDecDecodes : Prop :=
  ∀ (s : State) (p : PosStream) (data : List Byte), s.err = 0 → p.countOk → p.heads data →
    ∃ t, exec (.posDec 32 data) s = .next t ∧ t.resp = .ok ∧ p.Shown t ∧ bufHolds t data ∧ onlyPositionChanged s t

/-- The length of a stream (42_position.md R120, 30_encoding.md R67). -/
def Obligations.StreamLength : Prop :=
  ∀ p : PosStream, p.countOk →
    p.bits.length = (if p.k1 = p.k2 then 104 else 103) + 4 * p.pieces + 6 * p.epFlag

/-- Fewer than 32 bytes: `TruncatedRecord` before any bit is read, whatever the bytes hold (42_position.md R121
(a)). -/
def Obligations.PosDecShortFaults : Prop :=
  ∀ (s : State) (len : BitVec 6) (data : List Byte), s.err = 0 → len.toNat < 32 →
    exec (.posDec len data) s = .next (truncatedAt s)

/-- A stream that needs more than 256 bits: `TruncatedRecord` (42_position.md R121 (b)). -/
def Obligations.PosDecTooLongFaults : Prop :=
  ∀ (s : State) (p : PosStream) (data : List Byte), s.err = 0 → p.countOk → 256 < p.bits.length →
    data.length = 32 → bitsOfBytes data = p.bits.take 256 → exec (.posDec 32 data) s = .next (truncatedAt s)

/-- An unassigned piece code where a square's symbol is due: `CorruptEncoding`, whatever follows (42_position.md R121
(c), 60_exceptions.md R164). -/
def Obligations.PosDecCorruptFaults : Prop :=
  ∀ (s : State) (turn : Bit) (k1 k2 : Sq) (syms : List PieceSym) (code : Nat) (r : List Bool) (data : List Byte),
    s.err = 0 → syms.length < (if k1 = k2 then 63 else 62) → code = 0b1011 ∨ code = 0b1101 ∨ code = 0b1111 →
    data.length = 32 →
    bitsOfBytes data = bitsOf turn ++ bitsOf k1 ++ bitsOf k2 ++ syms.flatMap encodeSym ++ bitsOfNat 4 code ++ r →
    exec (.posDec 32 data) s = .next (corruptAt s)

/-- After a completed position decode whose king fields differ there is a white King on the first, a black King on
the second and no other King; when they are equal the one King is black (10_state.md R23, 42_position.md R112). The
case of the record's position row executed by itself is the model's (log entry 9). -/
def Obligations.KingPlacement : Prop :=
  ∀ (s t : State) (blob : List Byte), blob.length = 32 → t.resp = .ok →
    exec (.posDec 32 blob) s = .next t ∨ exec (.recfPosition blob) s = .next t ∨
      (exec .recRead s = .next t ∧ readRange s.stream s.rp 32 = some blob) →
    let k1 := leNumber blob / 2 % 64
    let k2 := leNumber blob / 128 % 64
    t.board.getD k2 0 = 0xE ∧ (k1 ≠ k2 → t.board.getD k1 0 = 0x6) ∧
      ∀ sq, sq < 64 → sq ≠ k1 → sq ≠ k2 → (t.board.getD sq 0).toNat % 8 ≠ 6

/-- The rows of the position stream that end before the pieces: each does its step on the hidden scratch position
(42_position.md R111, R112, R125; as rows, log entry 9). -/
def Obligations.PositionHeadRows : Prop :=
  ∀ s : State, s.err = 0 →
    (∀ t : Bit, s.pos.toNat + 1 ≤ 8 * s.len.toNat → exec (.posfTurn t) s = .next (afterField 1
      { board := Vector.replicate 64 0, turn := t, k1 := 0, k2 := 0, castle := 0, epv := 0, epsq := 0, hLo := 0,
        fLo := 0, fHi := 0 } s)) ∧
    (∀ k : Sq, s.pos.toNat + 6 ≤ 8 * s.len.toNat → exec (.posfK1 k) s = .next (afterField 6
      { s.work with board := s.work.board.setIfInBounds k.toNat 0x6, k1 := k } s)) ∧
    (∀ k : Sq, s.pos.toNat + 6 ≤ 8 * s.len.toNat → exec (.posfK2 k) s = .next (afterField 6
      { s.work with board := s.work.board.setIfInBounds k.toNat 0xE, k2 := k } s))

/-- The row of the piece symbols: one symbol for each square that is no King's, ranks 7 down to 0, files 0 to 7; an
empty symbol leaves its square (42_position.md R113, R114; as a row, log entry 9). A run with too few or too many
symbols is refused, and the right number with too few bits left is `TruncatedRecord` (log entry 18). -/
def Obligations.PositionPiecesRow : Prop :=
  ∀ (s : State) (syms : List PieceSym), s.err = 0 →
    let due := dueSquares s.work.k1 s.work.k2
    (syms.length = due.length → s.pos.toNat + (encode (.posfPieces syms)).length ≤ 8 * s.len.toNat →
      ∃ board : Vector BoardCell 64,
        exec (.posfPieces syms) s =
          .next (afterField (encode (.posfPieces syms)).length { s.work with board := board } s) ∧
        ∀ sq : Sq, board.getD sq.toNat 0 =
          if sq = s.work.k1 ∨ sq = s.work.k2 then s.work.board.getD sq.toNat 0
          else match syms.getD (due.idxOf sq) .empty with
            | .empty => s.work.board.getD sq.toNat 0
            | .man k c => BitVec.ofNat 4 (8 * c.toNat + (kindNumber k).toNat)) ∧
    (syms.length = due.length → 8 * s.len.toNat < s.pos.toNat + (encode (.posfPieces syms)).length →
      exec (.posfPieces syms) s = .next (truncatedAt s)) ∧
    (syms.length ≠ due.length → exec (.posfPieces syms) s = .next (refusedAt s))

/-- The rows after the pieces (42_position.md R115 to R118; as rows, log entry 9). The en-passant square's row is met
only after a flag of 1 (30_encoding.md R72). -/
def Obligations.PositionTailRows : Prop :=
  ∀ s : State, s.err = 0 →
    (s.pos.toNat + 1 ≤ 8 * s.len.toNat → ∀ b : Bit,
      exec (.posfWk b) s =
        .next (afterField 1 { s.work with castle := s.work.castle ||| b.setWidth 4 } s) ∧
      exec (.posfWq b) s =
        .next (afterField 1 { s.work with castle := s.work.castle ||| (b.setWidth 4 <<< 1) } s) ∧
      exec (.posfBk b) s =
        .next (afterField 1 { s.work with castle := s.work.castle ||| (b.setWidth 4 <<< 2) } s) ∧
      exec (.posfBq b) s =
        .next (afterField 1 { s.work with castle := s.work.castle ||| (b.setWidth 4 <<< 3) } s) ∧
      exec (.posfEpf b) s = .next (afterField 1 { s.work with epv := b, epsq := 0 } s)) ∧
    (s.pos.toNat + 6 ≤ 8 * s.len.toNat → s.work.epv = 1 → ∀ sq : Sq,
      exec (.posfEpsq sq) s = .next (afterField 6 { s.work with epsq := sq } s)) ∧
    (s.pos.toNat + 6 ≤ 8 * s.len.toNat → ∀ h : BitVec 6,
      exec (.posfHmcLo h) s = .next (afterField 6 { s.work with hLo := h } s)) ∧
    (s.pos.toNat + 8 ≤ 8 * s.len.toNat → ∀ b : Byte,
      exec (.posfFmnLo b) s = .next (afterField 8 { s.work with fLo := b } s) ∧
      exec (.posfFmnHi b) s = .next (afterField 8 { s.work with fHi := b } s))

/-- The last row makes the result visible: `HMC` is its bit above the low six, `FMN` the high byte above the low one
(42_position.md R119, R120; 30_encoding.md R68; as a row, log entry 9). -/
def Obligations.PositionLastRow : Prop :=
  ∀ (s : State) (h : Bit), s.err = 0 → s.pos.toNat + 1 ≤ 8 * s.len.toNat →
    exec (.posfHmcHi h) s = .next { s with
      pos := BitVec.ofNat 9 (s.pos.toNat + 1), board := s.work.board, turn := s.work.turn, castle := s.work.castle,
      epv := s.work.epv, epsq := s.work.epsq, hmc := BitVec.ofNat 7 (64 * h.toNat + s.work.hLo.toNat),
      fmn := BitVec.ofNat 16 (256 * s.work.fHi.toNat + s.work.fLo.toNat),
      written := { s.written with position := true }, resp := .ok }

/-- A row of fixed width that the valid bytes cut off raises `TruncatedRecord` and nothing moves (40_bitcursor.md
R91, 60_exceptions.md R166); the en-passant square after a flag of 0 is refused (log entry 18). As
rows, log entry 9. -/
def Obligations.PositionRowsCutOff : Prop :=
  ∀ (s : State) (i : Instr) (f : PosField), s.err = 0 → formatOf i = .posField f →
    ((f = .epsq → s.work.epv = 1) → 8 * s.len.toNat < s.pos.toNat + (encode i).length →
      exec i s = .next (truncatedAt s)) ∧
    (f = .epsq → s.work.epv = 0 → exec i s = .next (refusedAt s))

/-- Attaching 32 bytes and executing the rows of the stream at their front one by one leaves what `POS.DEC` leaves,
but for the hidden state (42_position.md R110, R122; as rows, log entry 9). -/
def Obligations.PosDecIsItsRows : Prop :=
  ∀ (s : State) (p : PosStream) (data : List Byte), s.err = 0 → p.countOk → p.heads data →
    ∃ t, execAll (.curAttach 32 data :: p.rows) s = .next t ∧
      exec (.posDec 32 data) s = .next { t with work := s.work }

/-! ### The move -/

/-- `MOVE.DEC`: `MTO` = w[5:0], `MFROM` = w[11:6], `MSPECIAL` = w[15:14], `MPROMO` = w[13:12] + 2 in the promotion
form and else 0, for every word; the promotion kind is never Pawn or King (43_move.md R132). That `MOVEW` and its mark
stay as they were is the model's reading (log entry 11). -/
def Obligations.MoveDecEffect : Prop :=
  ∀ (s : State) (w : Half), s.err = 0 →
    exec (.moveDec w) s = .next (afterMove w.toNat s) ∧
    (afterMove w.toNat s).mpromo ≠ 1 ∧ (afterMove w.toNat s).mpromo ≠ 6

/-- The four forms of the move word (30_encoding.md R71, 43_move.md R131); as rows, log entry 9. That `MOVEW` and its
mark stay as they were is log entry 11. -/
def Obligations.MoveFormRows : Prop :=
  ∀ (s : State) (p : BitVec 2) (f t : Sq), s.err = 0 →
    let moved (promo : BitVec 3) (special : BitVec 2) : State :=
      { s with
        mto := t, mfrom := f, mpromo := promo, mspecial := special, written := { s.written with move := true },
        resp := .ok }
    exec (.moveNone p f t) s = .next (moved 0 0) ∧
    exec (.movePromo p f t) s = .next (moved (BitVec.ofNat 3 (p.toNat + 2)) 1) ∧
    exec (.moveEp p f t) s = .next (moved 0 2) ∧ exec (.moveCastle p f t) s = .next (moved 0 3)

/-- `MOVE.DEC` of a word is the form that the decoder reads from it, executed (43_move.md R130 against
30_encoding.md R70, R71). What a form does when it is executed by itself is the model's (log entry 9). -/
def Obligations.MoveDecIsItsForm : Prop :=
  ∀ (s : State) (w : Half), ∃ i, decode .moveWord (bitsOf w) = .ok (i, []) ∧ exec (.moveDec w) s = exec i s

/-! ### The record reader -/

/-- `REC.OPEN` samples the stream's size, counts its whole records and starts at the offset, whatever the offset is
(44_record.md R140). -/
def Obligations.RecOpenEffect : Prop :=
  ∀ (s : State) (soff : Nat), s.err = 0 →
    exec (.recOpen soff) s = .next { s with
      fsize := s.stream.size, soff := soff, count := s.stream.size / 40, rp := soff, opn := 1, resp := .ok }

/-- `REC.COUNT` answers the count and writes no register; on a stream of `40*k + r` bytes, `r` below 40, it is `k`
after any `REC.OPEN` (44_record.md R145). -/
def Obligations.RecCountAnswers : Prop :=
  (∀ s : State, s.err = 0 → s.opn = 1 → exec .recCount s = .next { s with resp := .okCount s.count }) ∧
  ∀ (s : State) (soff k r : Nat), s.err = 0 → r < 40 → s.stream.size = 40 * k + r →
    ∃ t u, exec (.recOpen soff) s = .next t ∧ exec .recCount t = .next u ∧ u.resp = .okCount k

/-- `REC.RAW` returns the 40 bytes at `RP` as they stand in the stream and advances `RP`, whatever the bytes are; with
fewer than 40 left it faults, before `REC.OPEN` it is refused (44_record.md R144). -/
def Obligations.RecRawEffect : Prop :=
  ∀ s : State, s.err = 0 →
    (s.opn = 1 → s.rp + 40 ≤ s.fsize → s.fsize ≤ s.stream.size → ∃ raw : Vector Byte 40,
      exec .recRaw s = .next { s with
        raw := raw, rp := s.rp + 40, written := { s.written with raw := true }, resp := .ok } ∧
      ∀ k, k < 40 → readByte s.stream (s.rp + k) = some (raw.getD k 0)) ∧
    (s.opn = 1 → s.fsize < s.rp + 40 → exec .recRaw s = .next (truncatedAt s)) ∧
    (s.opn = 0 → exec .recRaw s = .next (refusedAt s))

/-- `REC.READ` on a record whose first 32 bytes hold a position stream: the position, the little-endian scalars, the
move, the padding discarded, `RP` advanced by 40, nothing else written (44_record.md R142, 30_encoding.md R69,
20_memory.md R48). -/
def Obligations.RecReadDecodes : Prop :=
  ∀ (s : State) (p : PosStream) (blob : List Byte) (b0 b1 b2 b3 b4 b5 b6 b7 : Byte), s.err = 0 → s.opn = 1 →
    s.rp + 40 ≤ s.fsize → readRange s.stream s.rp 32 = some blob →
    readRange s.stream (s.rp + 32) 8 = some [b0, b1, b2, b3, b4, b5, b6, b7] → p.countOk → p.heads blob →
    ∃ t u, exec .recRead s = .next t ∧ p.Shown t ∧ bufHolds t blob ∧ onlyPositionChanged s u ∧
      t = { afterMove (b2.toNat + 256 * b3.toNat) u with
        score := BitVec.ofNat 16 (b0.toNat + 256 * b1.toNat), movew := BitVec.ofNat 16 (b2.toNat + 256 * b3.toNat),
        ply := BitVec.ofNat 16 (b4.toNat + 256 * b5.toNat), result := b6, rp := s.rp + 40,
        written := { s.written with
          position := true, move := true, score := true, movew := true, ply := true, result := true } }

/-- `REC.READ` gives what `REC.RAW`, `POS.DEC` of the first 32 raw bytes and `MOVE.DEC` of the raw move word give,
with the scalars of the raw bytes (44_record.md R146 (c)). -/
def Obligations.RecReadIsItsParts : Prop :=
  ∀ s : State, s.err = 0 → s.opn = 1 → s.rp + 40 ≤ s.fsize → s.fsize ≤ s.stream.size →
    ∃ a, exec .recRaw s = .next a ∧
      let raw (k : Nat) : Byte := a.raw.getD k 0
      let word : Half := raw 35 ++ raw 34
      ∀ b, exec (.posDec 32 (a.raw.toList.take 32)) s = .next b → b.resp = .ok →
        ∃ c, exec (.moveDec word) b = .next c ∧
          exec .recRead s = .next { c with
            score := raw 33 ++ raw 32, movew := word, ply := raw 37 ++ raw 36, result := raw 38, rp := a.rp,
            written := { c.written with score := true, movew := true, ply := true, result := true } }

/-- Which fault `REC.READ` reports, by the bytes left: fewer than 32, and the position is not looked at; from 32 on
the position's own fault; from 32 to 39 without one, the truncation; from 40 on without one, none (44_record.md
R143). -/
def Obligations.RecReadFaultOrder : Prop :=
  ∀ s : State, s.err = 0 → s.opn = 1 → s.fsize ≤ s.stream.size →
    (s.fsize < s.rp + 32 → exec .recRead s = .next (truncatedAt s)) ∧
    (s.rp + 32 ≤ s.fsize → ∃ blob u, readRange s.stream s.rp 32 = some blob ∧ exec (.posDec 32 blob) s = .next u ∧
      (u.resp = .fault .truncatedRecord → exec .recRead s = .next (truncatedAt s)) ∧
      (u.resp = .fault .corruptEncoding → exec .recRead s = .next (corruptAt s)) ∧
      (u.resp = .ok → s.fsize < s.rp + 40 → exec .recRead s = .next (truncatedAt s)) ∧
      (u.resp = .ok → s.rp + 40 ≤ s.fsize → ∃ t, exec .recRead s = .next t ∧ t.resp = .ok ∧ t.err = 0))

/-- `RP` changes only by `REC.OPEN`, to its offset, and by a completed `REC.READ` or `REC.RAW`, by 40 (44_record.md
R141). That the rows that are no command leave it is the model's (log entries 9 and 19). -/
def Obligations.RpSequencing : Prop :=
  ∀ (i : Instr) (s t : State), exec i s = .next t →
    if t.resp ≠ .ok then t.rp = s.rp
    else match i with
      | .recOpen soff => t.rp = soff
      | .recRead => t.rp = s.rp + 40
      | .recRaw => t.rp = s.rp + 40
      | _ => t.rp = s.rp

/-- Past a bad record: after a fault of `REC.READ`, `ERR.CLR` and then `REC.RAW` complete whenever 40 bytes are
there, and `RP` is past the record (44_record.md R147). -/
def Obligations.BadRecordSkipped : Prop :=
  ∀ (s t : State) (c : Cause), exec .recRead s = .next t → t.resp = .fault c → s.rp + 40 ≤ s.fsize →
    s.fsize ≤ s.stream.size →
    ∃ u v, exec .errClr t = .next u ∧ exec .recRaw u = .next v ∧ v.resp = .ok ∧ v.rp = s.rp + 40 ∧ v.err = 0

/-- The scalar rows of a record: the register takes the field (30_encoding.md R69, 44_record.md R142); where the stream
ends before the field does, `TruncatedRecord` (20_memory.md R42). As rows, log entries 9 and 19. That the score and the
result are read as two's complement is log entry 16: R69 marks it as general knowledge. -/
def Obligations.RecordScalarRows : Prop :=
  ∀ s : State, s.err = 0 → s.opn = 1 →
    (∀ v : Half, s.rp + 34 ≤ s.fsize → ∃ t, exec (.recfScore v) s = .next t ∧
      t = { s with score := v, written := { s.written with score := true }, resp := .ok } ∧
      t.scoreValue = if v.toNat < 32768 then (v.toNat : Int) else (v.toNat : Int) - 65536) ∧
    (∀ v : Half, s.rp + 38 ≤ s.fsize → exec (.recfPly v) s =
      .next { s with ply := v, written := { s.written with ply := true }, resp := .ok }) ∧
    (∀ v : Byte, s.rp + 39 ≤ s.fsize → ∃ t, exec (.recfResult v) s = .next t ∧
      t = { s with result := v, written := { s.written with result := true }, resp := .ok } ∧
      t.resultValue = if v.toNat < 128 then (v.toNat : Int) else (v.toNat : Int) - 256) ∧
    (∀ v : Byte, s.rp + 40 ≤ s.fsize → exec (.recfPadding v) s = .next { s with resp := .ok }) ∧
    (∀ (i : Instr) (f : RecField), formatOf i = .recField f → s.fsize < s.rp + recOffset f + recSize f →
      exec i s = .next (truncatedAt s))

/-- The move and position rows of a record (44_record.md R142, 43_move.md R132); as rows, log entries 9 and 19. -/
def Obligations.RecordMoveAndPositionRows : Prop :=
  ∀ s : State, s.err = 0 → s.opn = 1 →
    (∀ w : Half, s.rp + 36 ≤ s.fsize → exec (.recfMove w) s = .next { afterMove w.toNat s with
      movew := w, written := { s.written with move := true, movew := true } }) ∧
    (∀ (p : PosStream) (blob : List Byte), s.rp + 32 ≤ s.fsize → p.countOk → p.heads blob →
      ∃ t, exec (.recfPosition blob) s = .next t ∧ t.resp = .ok ∧ p.Shown t ∧ bufHolds t blob ∧
        onlyPositionChanged s t) ∧
    (∀ blob : List Byte, s.rp + 32 ≤ s.fsize → exec (.recfPosition blob) s = exec (.posDec 32 blob) s)

/-! ### The whole machine -/

/-- Every step keeps the invariant of the registers, the memory's canonical form and the reader's agreement with the
stream (10_state.md R12, R16, R19, R24, R27, R28; 44_record.md R141; 93_implementation_defined.md U14). For the
steps that run a row that is no command it rests on log entry 9. -/
def Obligations.StepKeepsInvariant : Prop :=
  ∀ s t : State, StateInv s → step s = .next t → StateInv t

/-- Who writes what: an instruction leaves every register alone that its line of 10_state.md R33 does not name, and
never touches the stream or the inbox; `ERR` changes only by a fault or by `ERR.CLR`. What the 33 rows that are no
command write is the model's (log entry 9), and so is that `MOVE.DEC` leaves `MOVEW` (log entry 11). -/
def Obligations.OnlyNamedRegistersWritten : Prop :=
  ∀ (i : Instr) (s t : State), exec i s = .next t →
    (∀ g : RegGroup, g ≠ .err → g ∉ writtenBy i → sameGroup g s t) ∧
    t.stream = s.stream ∧ t.inbox = s.inbox ∧
    (t.err = s.err ∨ (i = .errClr ∧ t.err = 0) ∨ ∃ c, t.resp = .fault c)

/-- A step never writes the stream: every byte reads as before (20_memory.md R45). -/
def Obligations.StreamNeverWritten : Prop :=
  ∀ s t : State, step s = .next t → ∀ a : Nat, readByte t.stream a = readByte s.stream a

/-- A result register comes to hold a value only when an instruction that writes it completes (10_state.md R32). That
`MOVE.DEC` is none that writes `MOVEW` is log entry 11; what the rows that are no command write is log entry 9. -/
def Obligations.ValueOnlyWhenCompleted : Prop :=
  ∀ (i : Instr) (s t : State) (r : ResultReg), exec i s = .next t → hostRead r t ≠ hostRead r s →
    t.resp = .ok ∧ r.group ∈ writtenBy i

/-- Every instruction answers, in every state whose reader agrees with the stream: OK, a fault or a refusal
(30_encoding.md R61, 70_reset_and_hazards.md R199, for the commands). That the 33 rows that are no command answer as
well is the model's choice (log entry 9); the premise on the stream is log entry 13. -/
def Obligations.EveryInstructionAnswers : Prop :=
  ∀ (i : Instr) (s : State), (s.opn = 1 → s.fsize ≤ s.stream.size) →
    ∃ t, exec i s = .next t ∧ t.resp ≠ .idle
end

