-- ==== Sys2Proof/Laws/Arms.lean ====
section
/-! SUPPORT. The arm of each row, one lemma per row, each true by rfl. -/

namespace Sys2Proof.Machine

variable (s : State)

@[simp] theorem exec_errClr : exec .errClr s = execErrClr s := rfl
@[simp] theorem exec_curAttach (len : BitVec 6) (data : List Byte) : exec (.curAttach len data) s = execCurAttach len data s := rfl
@[simp] theorem exec_curRdbit : exec .curRdbit s = execCurRdbit s := rfl
@[simp] theorem exec_curRdbits (n : BitVec 5) : exec (.curRdbits n) s = execCurRdbits n s := rfl
@[simp] theorem exec_pieceDec : exec .pieceDec s = execPieceDec s := rfl
@[simp] theorem exec_posDec (len : BitVec 6) (data : List Byte) : exec (.posDec len data) s = execPosDec len data s := rfl
@[simp] theorem exec_moveDec (w : Half) : exec (.moveDec w) s = execMoveDec w s := rfl
@[simp] theorem exec_reserved7 : exec .reserved7 s = execReserved7 s := rfl
@[simp] theorem exec_recOpen (soff : Nat) : exec (.recOpen soff) s = execRecOpen soff s := rfl
@[simp] theorem exec_recRead : exec .recRead s = execRecRead s := rfl
@[simp] theorem exec_recRaw : exec .recRaw s = execRecRaw s := rfl
@[simp] theorem exec_recCount : exec .recCount s = execRecCount s := rfl
@[simp] theorem exec_reservedC : exec .reservedC s = execReservedC s := rfl
@[simp] theorem exec_reservedD : exec .reservedD s = execReservedD s := rfl
@[simp] theorem exec_reservedE : exec .reservedE s = execReservedE s := rfl
@[simp] theorem exec_reservedF : exec .reservedF s = execReservedF s := rfl
@[simp] theorem exec_empty : exec .empty s = execEmpty s := rfl
@[simp] theorem exec_pawn (c : Bit) : exec (.pawn c) s = execPawn c s := rfl
@[simp] theorem exec_knight (c : Bit) : exec (.knight c) s = execKnight c s := rfl
@[simp] theorem exec_bishop (c : Bit) : exec (.bishop c) s = execBishop c s := rfl
@[simp] theorem exec_rook (c : Bit) : exec (.rook c) s = execRook c s := rfl
@[simp] theorem exec_queen (c : Bit) : exec (.queen c) s = execQueen c s := rfl
@[simp] theorem exec_illegalB : exec .illegalB s = execIllegalB s := rfl
@[simp] theorem exec_illegalD : exec .illegalD s = execIllegalD s := rfl
@[simp] theorem exec_illegalF : exec .illegalF s = execIllegalF s := rfl
@[simp] theorem exec_moveNone (p : BitVec 2) (f : Sq) (t : Sq) : exec (.moveNone p f t) s = execMoveNone p f t s := rfl
@[simp] theorem exec_movePromo (p : BitVec 2) (f : Sq) (t : Sq) : exec (.movePromo p f t) s = execMovePromo p f t s := rfl
@[simp] theorem exec_moveEp (p : BitVec 2) (f : Sq) (t : Sq) : exec (.moveEp p f t) s = execMoveEp p f t s := rfl
@[simp] theorem exec_moveCastle (p : BitVec 2) (f : Sq) (t : Sq) : exec (.moveCastle p f t) s = execMoveCastle p f t s := rfl
@[simp] theorem exec_posfTurn (t : Bit) : exec (.posfTurn t) s = execPosfTurn t s := rfl
@[simp] theorem exec_posfK1 (k : Sq) : exec (.posfK1 k) s = execPosfK1 k s := rfl
@[simp] theorem exec_posfK2 (k : Sq) : exec (.posfK2 k) s = execPosfK2 k s := rfl
@[simp] theorem exec_posfPieces (syms : List PieceSym) : exec (.posfPieces syms) s = execPosfPieces syms s := rfl
@[simp] theorem exec_posfWk (w : Bit) : exec (.posfWk w) s = execPosfWk w s := rfl
@[simp] theorem exec_posfWq (w : Bit) : exec (.posfWq w) s = execPosfWq w s := rfl
@[simp] theorem exec_posfBk (b : Bit) : exec (.posfBk b) s = execPosfBk b s := rfl
@[simp] theorem exec_posfBq (b : Bit) : exec (.posfBq b) s = execPosfBq b s := rfl
@[simp] theorem exec_posfEpf (e : Bit) : exec (.posfEpf e) s = execPosfEpf e s := rfl
@[simp] theorem exec_posfEpsq (sq : Sq) : exec (.posfEpsq sq) s = execPosfEpsq sq s := rfl
@[simp] theorem exec_posfHmcLo (h : BitVec 6) : exec (.posfHmcLo h) s = execPosfHmcLo h s := rfl
@[simp] theorem exec_posfFmnLo (l : Byte) : exec (.posfFmnLo l) s = execPosfFmnLo l s := rfl
@[simp] theorem exec_posfFmnHi (u : Byte) : exec (.posfFmnHi u) s = execPosfFmnHi u s := rfl
@[simp] theorem exec_posfHmcHi (h : Bit) : exec (.posfHmcHi h) s = execPosfHmcHi h s := rfl
@[simp] theorem exec_recfPosition (blob : List Byte) : exec (.recfPosition blob) s = execRecfPosition blob s := rfl
@[simp] theorem exec_recfScore (v : Half) : exec (.recfScore v) s = execRecfScore v s := rfl
@[simp] theorem exec_recfMove (w : Half) : exec (.recfMove w) s = execRecfMove w s := rfl
@[simp] theorem exec_recfPly (v : Half) : exec (.recfPly v) s = execRecfPly v s := rfl
@[simp] theorem exec_recfResult (v : Byte) : exec (.recfResult v) s = execRecfResult v s := rfl
@[simp] theorem exec_recfPadding (v : Byte) : exec (.recfPadding v) s = execRecfPadding v s := rfl

end Sys2Proof.Machine
end

