-- ==== Sys2Proof/Laws/Bits.lean ====
section
/-! SUPPORT. The bit lists of the decoder and the encoder: lengths, values, and taking a field off the front. -/

namespace Sys2Proof

@[simp] theorem length_bitsOfNat (n v : Nat) : (bitsOfNat n v).length = n := by
  induction n generalizing v with
  | zero => rfl
  | succ n ih => simp [bitsOfNat, ih]

@[simp] theorem length_bitsOf {n : Nat} (v : BitVec n) : (bitsOf v).length = n := length_bitsOfNat n _

@[simp] theorem length_bitsOfBytes (bs : List Byte) : (bitsOfBytes bs).length = 8 * bs.length := by
  induction bs with
  | nil => rfl
  | cons b bs ih =>
    have h : bitsOfBytes (b :: bs) = bitsOf b ++ bitsOfBytes bs := rfl
    simp only [h, List.length_append, length_bitsOf, ih, List.length_cons]; omega

@[simp] theorem bitsOfBytes_nil : bitsOfBytes [] = [] := rfl

@[simp] theorem bitsOfBytes_cons (b : Byte) (bs : List Byte) : bitsOfBytes (b :: bs) = bitsOf b ++ bitsOfBytes bs := rfl

theorem bitsOfBytes_append (as bs : List Byte) : bitsOfBytes (as ++ bs) = bitsOfBytes as ++ bitsOfBytes bs := by
  simp [bitsOfBytes, List.flatMap_append]

theorem natOfBits_bitsOfNat (n v : Nat) : natOfBits (bitsOfNat n v) = v % 2 ^ n := by
  induction n generalizing v with
  | zero => simp [bitsOfNat, natOfBits, Nat.mod_one]
  | succ n ih =>
    have hb : (v % 2 == 1).toNat = v % 2 := by
      rcases Nat.mod_two_eq_zero_or_one v with h | h <;> simp [h]
    rw [bitsOfNat, natOfBits, ih, hb, Nat.pow_succ, Nat.mul_comm (2 ^ n) 2, Nat.mod_mul]

@[simp] theorem natOfBits_bitsOf {n : Nat} (v : BitVec n) : natOfBits (bitsOf v) = v.toNat := by
  rw [bitsOf, natOfBits_bitsOfNat, Nat.mod_eq_of_lt v.isLt]

theorem natOfBits_lt (bs : List Bool) : natOfBits bs < 2 ^ bs.length := by
  induction bs with
  | nil => simp [natOfBits]
  | cons b bs ih =>
    have : b.toNat ≤ 1 := by cases b <;> simp
    simp only [natOfBits, List.length_cons, Nat.pow_succ]; omega

theorem natOfBits_append (as bs : List Bool) :
    natOfBits (as ++ bs) = natOfBits as + 2 ^ as.length * natOfBits bs := by
  induction as with
  | nil => simp [natOfBits]
  | cons a as ih => simp only [List.cons_append, natOfBits, ih, List.length_cons, Nat.pow_succ]; ring

theorem bitsOfNat_natOfBits (bs : List Bool) : bitsOfNat bs.length (natOfBits bs) = bs := by
  induction bs with
  | nil => rfl
  | cons b bs ih =>
    have h1 : ((b.toNat + 2 * natOfBits bs) % 2 == 1) = b := by cases b <;> simp
    have h2 : (b.toNat + 2 * natOfBits bs) / 2 = natOfBits bs := by have := b.toNat_le; omega
    simp only [natOfBits, List.length_cons, bitsOfNat, h1, h2, ih]

/-- Bit `i` of the number is bit `i` of the list (30_encoding.md R62). -/
theorem testBit_natOfBits (bs : List Bool) (i : Nat) : (natOfBits bs).testBit i = bs.getD i false := by
  induction bs generalizing i with
  | nil => simp [natOfBits]
  | cons b bs ih =>
    cases i with
    | zero => cases b <;> simp [natOfBits, Nat.testBit_zero]
    | succ i =>
      have h2 : (b.toNat + 2 * natOfBits bs) / 2 = natOfBits bs := by have := b.toNat_le; omega
      simp [natOfBits, Nat.testBit_succ, h2, ih]

/-! ### Taking fields off the front -/

/-- What `takeField` can do. -/
theorem takeField_eq (n : Nat) (bits : List Bool) :
    takeField n bits =
      if n ≤ bits.length then .ok (BitVec.ofNat n (natOfBits (bits.take n)), bits.drop n) else .error .tooShort := by
  unfold takeField; split <;> split <;> first | rfl | omega

@[simp] theorem takeField_append {n : Nat} (v : BitVec n) (r : List Bool) :
    takeField n (bitsOf v ++ r) = .ok (v, r) := by
  have h1 : (bitsOf v ++ r).take n = bitsOf v := by
    rw [List.take_append_of_le_length (by simp), List.take_of_length_le (by simp)]
  have h2 : (bitsOf v ++ r).drop n = r := by
    rw [List.drop_append_of_le_length (by simp), List.drop_of_length_le (by simp), List.nil_append]
  rw [takeField_eq, if_pos (by simp), h1, h2]; simp

@[simp] theorem takeField_bitsOf {n : Nat} (v : BitVec n) : takeField n (bitsOf v) = .ok (v, []) := by
  simpa using takeField_append v []

theorem takeField_bitsOfNat_append (n v : Nat) (r : List Bool) :
    takeField n (bitsOfNat n v ++ r) = .ok (BitVec.ofNat n v, r) := by
  have h : bitsOfNat n v = bitsOf (BitVec.ofNat n v) := by
    have := bitsOfNat_natOfBits (bitsOfNat n v)
    rw [length_bitsOfNat, natOfBits_bitsOfNat] at this
    rw [bitsOf, BitVec.toNat_ofNat, this]
  rw [h, takeField_append]

theorem takeField_short {n : Nat} {bits : List Bool} (h : bits.length < n) : takeField n bits = .error .tooShort := by
  rw [takeField_eq, if_neg (by omega)]

@[simp] theorem takeBytes_append (bs : List Byte) (r : List Bool) :
    takeBytes bs.length (bitsOfBytes bs ++ r) = .ok (bs, r) := by
  induction bs with
  | nil => rfl
  | cons b bs ih =>
    simp only [List.length_cons, takeBytes, bitsOfBytes_cons, List.append_assoc, takeField_append]
    show (do let (bs', r') ← takeBytes bs.length (bitsOfBytes bs ++ r); return (b :: bs', r')) = _
    rw [ih]; rfl

theorem kindOfCode_codeOfKind (k : Kind) : kindOfCode (codeOfKind k) = some k := by cases k <;> rfl

theorem takeSymCode_append (sym : PieceSym) (r : List Bool) :
    takeSymCode (encodeSym sym ++ r) = .ok (.sym sym, r) := by
  cases sym with
  | empty => rfl
  | man k c =>
    have hd : ∃ l, bitsOfNat 4 (codeOfKind k) = true :: l := by cases k <;> exact ⟨_, rfl⟩
    obtain ⟨l, hl⟩ := hd
    have h4 := takeField_bitsOfNat_append 4 (codeOfKind k) (bitsOf c ++ r)
    have hk : kindOfCode (BitVec.ofNat 4 (codeOfKind k)).toNat = some k := by cases k <;> rfl
    rw [hl] at h4
    simp only [encodeSym, hl, List.append_assoc, List.cons_append] at h4 ⊢
    simp only [takeSymCode, h4]
    show (match kindOfCode (BitVec.ofNat 4 (codeOfKind k)).toNat with
      | none => _
      | some k => _) = _
    rw [hk]
    show (do let (c, r) ← takeField 1 (bitsOf c ++ r); return (SymCode.sym (.man k c), r)) = _
    rw [takeField_append]; rfl

theorem takeSyms_append (syms : List PieceSym) (r : List Bool) :
    takeSyms syms.length (syms.flatMap encodeSym ++ r) = .ok (syms, r) := by
  induction syms with
  | nil => rfl
  | cons s syms ih =>
    simp only [List.length_cons, takeSyms, List.flatMap_cons, List.append_assoc, takeSymCode_append]
    show (do let (ss, r) ← takeSyms syms.length (syms.flatMap encodeSym ++ r); return (s :: ss, r)) = _
    rw [ih]; rfl

/-! ### Bits too few for a row -/

/-- A piece symbol or an unassigned code that is cut off is too short (30_encoding.md R63, R66). -/
theorem decode_pieceSymbol_cut {i : Instr} {bits cut : List Bool} (hf : formatOf i = .pieceSymbol) (hc : cut ≠ [])
    (h : bits ++ cut = encode i) : decode .pieceSymbol bits = .error .tooShort := by
  have h1 : ∀ c : Bit, bitsOf c = [c.getLsbD 0] := by decide
  cases i <;> simp only [formatOf, reduceCtorEq] at hf <;>
    simp only [encode, encodeSym, codeOfKind, bitsOfNat, h1] at h <;>
    rcases bits with _ | ⟨b0, _ | ⟨b1, _ | ⟨b2, _ | ⟨b3, _ | ⟨b4, l⟩⟩⟩⟩⟩ <;> simp at h <;>
    first
      | rfl
      | (obtain ⟨rfl, rfl, rfl, rfl, -⟩ := h; rfl)
      | simp_all

/-- A fixed-width field of a position stream that is cut off is too short (30_encoding.md R67). -/
theorem decode_posField_short {i : Instr} {f : PosField} {bits : List Bool} (hf : formatOf i = .posField f)
    (h : bits.length < (encode i).length) : decode (.posField f) bits = .error .tooShort := by
  cases i <;> simp only [formatOf, reduceCtorEq, Format.posField.injEq] at hf <;> subst hf <;>
    simp only [encode, length_bitsOf] at h <;>
    simp only [decode, decodePosField, takeField_short h] <;> rfl

/-- A move word has 16 bits (30_encoding.md R70). -/
theorem decode_moveWord_short {bits : List Bool} (h : bits.length < 16) :
    decode .moveWord bits = .error .tooShort := by
  simp only [decode, decodeMoveWord, takeField_eq]
  by_cases h1 : 6 ≤ bits.length
  · by_cases h2 : 6 ≤ (bits.drop 6).length
    · by_cases h3 : 2 ≤ ((bits.drop 6).drop 6).length
      · have h4 : ¬ 2 ≤ (((bits.drop 6).drop 6).drop 2).length := by simp at h2 h3 ⊢; omega
        simp only [if_pos h1, if_pos h2, if_pos h3, if_neg h4, bind, Except.bind]
      · simp only [if_pos h1, if_pos h2, if_neg h3, bind, Except.bind]
    · simp only [if_pos h1, if_neg h2, bind, Except.bind]
  · simp only [if_neg h1, bind, Except.bind]

end Sys2Proof
end

