-- ==== Sys2Proof/Laws/Cursor.lean ====
section
/-! SUPPORT. What the bit cursor can do, said once: every read is a read of `bitsAhead`, the bits between the cursor
and the end of its valid bytes. -/

namespace Sys2Proof.Machine

@[simp] theorem causeCode_ne_zero (c : Cause) : causeCode c ≠ 0 := by cases c <;> decide

theorem bitAt_lt_two (buf : Vector Byte 32) (p : Nat) : bitAt buf p < 2 := by
  unfold bitAt; rw [Nat.and_one_is_mod]; omega

theorem toNat_bitAt (buf : Vector Byte 32) (p : Nat) : (bitAt buf p == 1).toNat = bitAt buf p := by
  have := bitAt_lt_two buf p
  interval_cases bitAt buf p <;> rfl

/-- A bit is bit `p mod 8` of byte `p div 8` (40_bitcursor.md R95). -/
theorem bitAt_testBit (buf : Vector Byte 32) (p : Nat) :
    (bitAt buf p == 1) = (byteAt buf (p / 8)).toNat.testBit (p % 8) := by
  unfold bitAt
  rw [Nat.and_one_is_mod, Nat.testBit_eq_decide_div_mod_eq, Nat.shiftRight_eq_div_pow]
  rfl

@[simp] theorem length_bitsAhead (c : Cursor) : (bitsAhead c).length = 8 * c.len - c.pos := by simp [bitsAhead]

theorem getElem_bitsAhead (c : Cursor) (k : Nat) (h : k < (bitsAhead c).length) :
    (bitsAhead c)[k] = (bitAt c.buf (c.pos + k) == 1) := by simp [bitsAhead]

theorem bitsAhead_cons {c : Cursor} (h : c.pos < 8 * c.len) :
    bitsAhead c = (bitAt c.buf c.pos == 1) :: bitsAhead { c with pos := c.pos + 1 } := by
  apply List.ext_getElem
  · simp; omega
  · intro k h1 h2
    cases k with
    | zero => simp [getElem_bitsAhead]
    | succ k => simp only [getElem_bitsAhead, List.getElem_cons_succ]; congr 2; omega

theorem bitsAhead_nil {c : Cursor} (h : 8 * c.len ≤ c.pos) : bitsAhead c = [] := by
  apply List.eq_nil_of_length_eq_zero; simp; omega

/-- Moving the cursor drops the bits it passes. -/
theorem bitsAhead_advance (c : Cursor) (n : Nat) : bitsAhead { c with pos := c.pos + n } = (bitsAhead c).drop n := by
  apply List.ext_getElem
  · simp; omega
  · intro k h1 h2
    simp only [getElem_bitsAhead, List.getElem_drop]; congr 2; omega

/-- The cursor moved past `n` bits. -/
def cursorAfter (c : Cursor) (n : Nat) : Cursor := { c with pos := c.pos + n }

@[simp] theorem cursorAfter_buf (c : Cursor) (n : Nat) : (cursorAfter c n).buf = c.buf := rfl
@[simp] theorem cursorAfter_len (c : Cursor) (n : Nat) : (cursorAfter c n).len = c.len := rfl
@[simp] theorem cursorAfter_pos (c : Cursor) (n : Nat) : (cursorAfter c n).pos = c.pos + n := rfl
theorem cursorAfter_after (c : Cursor) (m n : Nat) : cursorAfter (cursorAfter c m) n = cursorAfter c (m + n) := by
  simp [cursorAfter, Nat.add_assoc]

/-- Past bits that stand at the cursor stand the bits that follow them. -/
theorem bitsAhead_after {c : Cursor} {xs r : List Bool} {n : Nat} (h : bitsAhead c = xs ++ r) (hn : xs.length = n) :
    bitsAhead (cursorAfter c n) = r := by
  subst hn
  rw [cursorAfter, bitsAhead_advance, h, List.drop_append_of_le_length (by simp), List.drop_of_length_le (by simp),
    List.nil_append]

/-! ### One bit, a field -/

/-- What `ReadBit()` can do: the next bit ahead, or `TruncatedRecord` when there is none (40_bitcursor.md R91). -/
theorem readBit_eq (c : Cursor) :
    readBit c = match bitsAhead c with
      | [] => .error .truncatedRecord
      | b :: _ => .ok (b.toNat, { c with pos := c.pos + 1 }) := by
  by_cases h : c.pos < 8 * c.len
  · have h' : ¬ c.pos / 8 ≥ c.len := by omega
    rw [bitsAhead_cons h, readBit, if_neg h']
    show _ = Except.ok ((bitAt c.buf c.pos == 1).toNat, _)
    rw [toNat_bitAt]
  · have h' : c.pos / 8 ≥ c.len := by omega
    rw [bitsAhead_nil (by omega), readBit, if_pos h']

theorem readBitsFrom_eq (n k v : Nat) (c : Cursor) (hv : v < 2 ^ k) :
    readBitsFrom n k v c =
      if n ≤ (bitsAhead c).length then
        .ok (v + 2 ^ k * natOfBits ((bitsAhead c).take n), { c with pos := c.pos + n })
      else .error .truncatedRecord := by
  induction n generalizing k v c with
  | zero => simp [readBitsFrom, natOfBits]
  | succ n ih =>
    rw [readBitsFrom, readBit_eq]
    cases hb : bitsAhead c with
    | nil => rfl
    | cons b r =>
      have hadv := bitsAhead_advance c 1
      rw [hb] at hadv
      have hshift : v ||| (b.toNat <<< k) = v + 2 ^ k * b.toNat := by
        rw [Nat.or_comm, Nat.shiftLeft_eq, Nat.mul_comm, Nat.add_comm]
        exact (Nat.two_pow_add_eq_or_of_lt hv _).symm
      have hlt : v + 2 ^ k * b.toNat < 2 ^ (k + 1) := by
        have : 2 ^ k * b.toNat ≤ 2 ^ k := by cases b <;> simp
        rw [Nat.pow_succ]; omega
      show readBitsFrom n (k + 1) (v ||| (b.toNat <<< k)) { c with pos := c.pos + 1 } = _
      rw [hshift, ih (k + 1) _ _ hlt, hadv]
      simp only [List.drop_one, List.tail_cons, List.length_cons, Nat.add_le_add_iff_right, List.take_succ_cons,
        natOfBits]
      split
      · congr 2
        · rw [Nat.pow_succ]; ring
        · simp only [Cursor.mk.injEq, true_and]; omega
      · rfl

/-- What `ReadBits(n)` can do (40_bitcursor.md R93 (a)): the number the next `n` bits spell, or
`TruncatedRecord` when fewer are left. -/
theorem readBits_eq (n : Nat) (c : Cursor) :
    readBits n c =
      if n ≤ (bitsAhead c).length then .ok (natOfBits ((bitsAhead c).take n), { c with pos := c.pos + n })
      else .error .truncatedRecord := by
  rw [readBits, readBitsFrom_eq n 0 0 c (by simp)]; simp

/-- What a field read can do: the decoder's field at the front of the bits ahead. -/
theorem readField_eq (n : Nat) (c : Cursor) :
    readField n c = match takeField n (bitsAhead c) with
      | .ok (v, _) => .ok (v, { c with pos := c.pos + n })
      | .error _ => .error .truncatedRecord := by
  rw [readField, readBits_eq, takeField_eq]
  split <;> rfl

/-- A field that stands at the cursor is read whole. -/
theorem readField_append {n : Nat} {v : BitVec n} {r : List Bool} {c : Cursor} (h : bitsAhead c = bitsOf v ++ r) :
    readField n c = .ok (v, cursorAfter c n) ∧ bitsAhead (cursorAfter c n) = r :=
  ⟨by rw [readField_eq, h, takeField_append]; rfl, bitsAhead_after h (by simp)⟩

/-! ### One piece symbol -/

theorem bitsAhead_next {c : Cursor} {b : Bool} {r : List Bool} (h : bitsAhead c = b :: r) :
    bitsAhead { c with pos := c.pos + 1 } = r := by rw [bitsAhead_advance, h]; rfl

/-- The loop of `DecodePiece` at the end of the valid bytes. -/
theorem decodePieceFrom_end {c : Cursor} (h : bitsAhead c = []) (left nb code : Nat) :
    decodePieceFrom (left + 1) nb code c = .error .truncatedRecord := by
  rw [decodePieceFrom, readBit_eq, h]; rfl

/-- The loop of `DecodePiece` on a bit with which nothing matches yet. -/
theorem decodePieceFrom_more {c : Cursor} {b : Bool} {r : List Bool} (h : bitsAhead c = b :: r) {left nb code : Nat}
    (hm : matchEntry (code ||| (b.toNat <<< nb)) (nb + 1) = none) :
    decodePieceFrom (left + 1) nb code c =
      decodePieceFrom left (nb + 1) (code ||| (b.toNat <<< nb)) { c with pos := c.pos + 1 } := by
  rw [decodePieceFrom, readBit_eq, h]
  show (match matchEntry (code ||| (b.toNat <<< nb)) (nb + 1) with | none => _ | some e => _) = _
  rw [hm]

/-- The loop of `DecodePiece` on the bit that completes a code. -/
theorem decodePieceFrom_match {c : Cursor} {b : Bool} {r : List Bool} (h : bitsAhead c = b :: r) {left nb code : Nat}
    {e : CodeEntry} (hm : matchEntry (code ||| (b.toNat <<< nb)) (nb + 1) = some e) :
    decodePieceFrom (left + 1) nb code c = match e.kind with
      | none => .ok (.empty, { c with pos := c.pos + 1 })
      | some k => match takeField 1 r with
        | .ok (colour, _) => .ok (.man k colour, { c with pos := c.pos + 2 })
        | .error _ => .error .truncatedRecord := by
  rw [decodePieceFrom, readBit_eq, h]
  show (match matchEntry (code ||| (b.toNat <<< nb)) (nb + 1) with | none => _ | some e => _) = _
  rw [hm]
  show (match e.kind with | none => _ | some k => _) = _
  cases e.kind with
  | none => rfl
  | some k =>
    show (do let (colour, c) ← readField 1 { c with pos := c.pos + 1 }; return (PieceSym.man k colour, c)) = _
    rw [readField_eq, bitsAhead_next h]
    cases takeField 1 r <;> rfl

/-- Both decoders end a piece symbol with its colour bit. -/
theorem symCode_finish (k : Kind) (r : List Bool) (c : Cursor) :
    (match takeField 1 r with
      | .ok (colour, _) => (Except.ok (PieceSym.man k colour, { c with pos := c.pos + 5 }) : Except Cause _)
      | .error _ => Except.error Cause.truncatedRecord) =
    (match (do let (colour, r) ← takeField 1 r; return (SymCode.sym (.man k colour), r)) with
      | .error _ => Except.error Cause.truncatedRecord
      | .ok (.unassigned _, _) => Except.error Cause.corruptEncoding
      | .ok (.sym s, _) => Except.ok (s, { c with pos := c.pos + symLength s })) := by
  cases takeField 1 r <;> rfl

/-- What `DecodePiece()` can do (41_piececode.md R102, R103): the symbol at the front of the bits ahead and the
cursor past it; `TruncatedRecord` when the bits end first; `CorruptEncoding` on an unassigned code. -/
theorem decodePiece_eq (c : Cursor) :
    decodePiece c = match takeSymCode (bitsAhead c) with
      | .error _ => .error .truncatedRecord
      | .ok (.unassigned _, _) => .error .corruptEncoding
      | .ok (.sym s, _) => .ok (s, { c with pos := c.pos + symLength s }) := by
  show decodePieceFrom (3 + 1) 0 0 c = _
  match h : bitsAhead c with
  | [] => exact decodePieceFrom_end h 3 0 0
  | false :: r => rw [decodePieceFrom_match (e := ⟨0, 1, none⟩) h (by rfl)]; rfl
  | true :: r1 =>
    rw [decodePieceFrom_more h (by rfl)]
    have h1 := bitsAhead_next h
    match r1 with
    | [] => rw [decodePieceFrom_end h1]; rfl
    | b1 :: r2 =>
      rw [decodePieceFrom_more h1 (by cases b1 <;> rfl)]
      have h2 := bitsAhead_next h1
      match r2 with
      | [] => rw [decodePieceFrom_end h2]; rfl
      | b2 :: r3 =>
        rw [decodePieceFrom_more h2 (by cases b1 <;> cases b2 <;> rfl)]
        have h3 := bitsAhead_next h2
        match r3 with
        | [] => rw [decodePieceFrom_end h3]; rfl
        | b3 :: r4 =>
          have hk : takeField 4 (true :: b1 :: b2 :: b3 :: r4) =
              .ok (BitVec.ofNat 4 (natOfBits [true, b1, b2, b3]), r4) := by
            rw [takeField_eq, if_pos (by simp)]; rfl
          rw [takeSymCode, hk]
          cases b1 <;> cases b2 <;> cases b3
          case false.false.false =>
            rw [decodePieceFrom_match (e := ⟨1, 4, some .pawn⟩) h3 (by rfl)]; exact symCode_finish .pawn r4 c
          case true.false.false =>
            rw [decodePieceFrom_match (e := ⟨3, 4, some .knight⟩) h3 (by rfl)]; exact symCode_finish .knight r4 c
          case false.true.false =>
            rw [decodePieceFrom_match (e := ⟨5, 4, some .bishop⟩) h3 (by rfl)]; exact symCode_finish .bishop r4 c
          case true.true.false =>
            rw [decodePieceFrom_match (e := ⟨7, 4, some .rook⟩) h3 (by rfl)]; exact symCode_finish .rook r4 c
          case false.false.true =>
            rw [decodePieceFrom_match (e := ⟨9, 4, some .queen⟩) h3 (by rfl)]; exact symCode_finish .queen r4 c
          all_goals rw [decodePieceFrom_more h3 (by rfl)]; rfl

end Sys2Proof.Machine
end

