-- ==== Sys2Proof/Laws/Memory.lean ====
section
/-! SUPPORT. The stream and the byte buffers: the canonical form, reading what was laid out, ranges, filling. -/

namespace Sys2Proof.Machine

/-! ### The canonical form -/

theorem cellsOk_cellsFrom (bs : List Byte) (a size : Nat) (h : a + bs.length ≤ size) :
    cellsOk a size (cellsFrom a bs) = true := by
  have weaken : ∀ (bs : List Byte) (a lo : Nat), lo ≤ a → a + bs.length ≤ size →
      cellsOk lo size (cellsFrom a bs) = true := by
    intro bs
    induction bs with
    | nil => intro a lo _ _; rfl
    | cons b bs ih =>
      intro a lo hlo hs
      simp only [List.length_cons] at hs
      by_cases hb : b = 0
      · rw [cellsFrom, if_pos hb]; exact ih (a + 1) lo (by omega) (by omega)
      · rw [cellsFrom, if_neg hb]
        simp only [cellsOk, Bool.and_eq_true, decide_eq_true_eq]
        exact ⟨⟨⟨hlo, by omega⟩, hb⟩, ih (a + 1) (a + 1) (by omega) (by omega)⟩
  exact weaken bs a a (by omega) h

/-- The one operation that makes a stream gives the canonical form; the block writes none (20_memory.md R45). -/
theorem streamOfBytes_wf (bs : List Byte) : (streamOfBytes bs).wf = true :=
  cellsOk_cellsFrom bs 0 bs.length (by omega)

theorem empty_wf : Memory.empty.wf = true := rfl

theorem reset_stream_wf : State.reset.stream.wf = true := rfl

theorem lookupCell_below (bs : List Byte) (a k : Nat) (h : k < a) : lookupCell (cellsFrom a bs) k = 0 := by
  induction bs generalizing a with
  | nil => rfl
  | cons b bs ih =>
    by_cases hb : b = 0
    · rw [cellsFrom, if_pos hb]; exact ih (a + 1) (by omega)
    · rw [cellsFrom, if_neg hb, lookupCell, if_neg (by omega)]; exact ih (a + 1) (by omega)

theorem lookupCell_cellsFrom (bs : List Byte) (a k : Nat) (h : k < bs.length) :
    lookupCell (cellsFrom a bs) (a + k) = bs[k] := by
  induction bs generalizing a k with
  | nil => simp at h
  | cons b bs ih =>
    cases k with
    | zero =>
      by_cases hb : b = 0
      · rw [cellsFrom, if_pos hb, lookupCell_below _ _ _ (by omega)]; exact hb.symm
      · rw [cellsFrom, if_neg hb, lookupCell, if_pos (by omega)]; rfl
    | succ k =>
      have hk : k < bs.length := by simpa using h
      have := ih (a + 1) k hk
      rw [show a + 1 + k = a + (k + 1) by omega] at this
      by_cases hb : b = 0
      · rw [cellsFrom, if_pos hb, this]; rfl
      · rw [cellsFrom, if_neg hb, lookupCell, if_neg (by omega), this]; rfl

/-- The platform's bytes are what the stream reads as (20_memory.md R42). -/
theorem readByte_streamOfBytes (bs : List Byte) (a : Nat) : readByte (streamOfBytes bs) a = bs[a]? := by
  by_cases h : a < bs.length
  · have := lookupCell_cellsFrom bs 0 a h
    rw [Nat.zero_add] at this
    rw [List.getElem?_eq_getElem h, ← this]; exact if_pos h
  · rw [List.getElem?_eq_none (by omega)]; exact if_neg h

/-! ### Ranges -/

/-- A range is there when it ends inside the stream. -/
theorem readRange_isSome (m : Memory) (a n : Nat) (h : a + n ≤ m.size) : (readRange m a n).isSome = true := by
  induction n generalizing a with
  | zero => rfl
  | succ n ih =>
    have h1 : readByte m a = some (lookupCell m.cells a) := if_pos (by omega)
    obtain ⟨bs, hbs⟩ := Option.isSome_iff_exists.1 (ih (a + 1) (by omega))
    simp [readRange, h1, hbs]

/-- What a range read answers: `n` bytes, byte `k` the stream's byte `a + k`. -/
theorem readRange_some {m : Memory} {a n : Nat} {bs : List Byte} (h : readRange m a n = some bs) :
    bs.length = n ∧ ∀ k, k < n → readByte m (a + k) = bs[k]? := by
  induction n generalizing a bs with
  | zero => simp [readRange] at h; subst h; simp
  | succ n ih =>
    simp only [readRange, Option.bind_eq_bind, Option.bind_eq_some_iff] at h
    obtain ⟨b, hb, bs', hbs, hcons⟩ := h
    obtain rfl := Option.some.inj hcons
    obtain ⟨hl, hk⟩ := ih hbs
    refine ⟨by simp [hl], fun k hk' => ?_⟩
    cases k with
    | zero => simpa using hb
    | succ k =>
      have := hk k (by omega)
      rw [show a + 1 + k = a + (k + 1) by omega] at this
      simpa using this

/-- A range read splits (44_record.md R146 (c)). -/
theorem readRange_add (m : Memory) (a n k : Nat) :
    readRange m a (n + k) = (readRange m a n).bind fun xs => (readRange m (a + n) k).map fun ys => xs ++ ys := by
  induction n generalizing a with
  | zero => simp [readRange]
  | succ n ih =>
    rw [Nat.succ_add_eq_add_succ n k, Nat.add_succ, readRange, ih (a + 1), readRange,
      show a + 1 + n = a + (n + 1) by omega]
    cases readByte m a with
    | none => rfl
    | some b =>
      cases readRange m (a + 1) n with
      | none => rfl
      | some xs => cases readRange m (a + (n + 1)) k <;> rfl

/-- What `MemRead` can answer (20_memory.md R42): past `FSIZE` it is truncated; otherwise the bytes, if the stream
still has them. -/
theorem memRead_eq (s : State) (a n : Nat) (h : s.fsize ≤ s.stream.size) :
    (s.fsize < a + n ∧ memRead s a n = .truncated) ∨
    (a + n ≤ s.fsize ∧ ∃ bs, bs.length = n ∧ readRange s.stream a n = some bs ∧ memRead s a n = .bytes bs) := by
  by_cases hf : a + n > s.fsize
  · exact .inl ⟨hf, if_pos hf⟩
  · obtain ⟨bs, hbs⟩ := Option.isSome_iff_exists.1 (readRange_isSome s.stream a n (by omega))
    exact .inr ⟨by omega, bs, (readRange_some hbs).1, hbs, by simp [memRead, hf, hbs]⟩

/-! ### Filling a buffer, attaching a cursor -/

/-- Inside its bounds a vector's default is not used. -/
theorem getD_vector {α : Type} {n : Nat} (v : Vector α n) (i : Nat) (d : α) (h : i < n) : v.getD i d = v[i] := by
  simp [Vector.getD, h]

/-- What filling leaves at each index: the byte given for it, else the byte that was there. -/
theorem getElem_fillBytes {n : Nat} (buf : Vector Byte n) (i : Nat) (bs : List Byte) (k : Nat) (hk : k < n) :
    (fillBytes buf i bs)[k] = if h : i ≤ k ∧ k - i < bs.length then bs[k - i] else buf[k] := by
  induction bs generalizing buf i with
  | nil => simp [fillBytes]
  | cons b bs ih =>
    rw [fillBytes, ih]
    by_cases h1 : i + 1 ≤ k ∧ k - (i + 1) < bs.length
    · rw [dif_pos h1, dif_pos ⟨by omega, by simp; omega⟩]
      have : k - i = (k - (i + 1)) + 1 := by omega
      simp [this]
    · rw [dif_neg h1, Vector.getElem_setIfInBounds]
      by_cases h2 : i = k
      · subst h2; simp
      · rw [if_neg h2, dif_neg (by simp; omega)]

theorem getElem?_bitsOfBytes (bs : List Byte) (k : Nat) :
    (bitsOfBytes bs)[k]? = bs[k / 8]?.map fun b => b.toNat.testBit (k % 8) := by
  induction bs generalizing k with
  | nil => simp
  | cons b bs ih =>
    rw [bitsOfBytes_cons]
    by_cases h : k < 8
    · rw [List.getElem?_append_left (by simpa using h)]
      have hb : (bitsOf b)[k]? = some (b.toNat.testBit k) := by
        rw [List.getElem?_eq_getElem (by simpa using h)]
        have := testBit_natOfBits (bitsOf b) k
        rw [natOfBits_bitsOf, List.getD_eq_getElem?_getD, List.getElem?_eq_getElem (by simpa using h)] at this
        rw [this]; rfl
      rw [hb, Nat.div_eq_of_lt h, Nat.mod_eq_of_lt h]; rfl
    · rw [List.getElem?_append_right (by simp; omega), length_bitsOf, ih]
      have h1 : k / 8 = (k - 8) / 8 + 1 := by omega
      have h2 : k % 8 = (k - 8) % 8 := by omega
      rw [h1, h2]; rfl

/-- A cursor attached to `n` bytes sees exactly their bits (40_bitcursor.md R90). -/
theorem bitsAhead_attach (buf : Vector Byte 32) (data : List Byte) (h : data.length ≤ 32) :
    bitsAhead (attachCursor buf data.length data) = bitsOfBytes data := by
  apply List.ext_getElem?
  intro k
  rw [getElem?_bitsOfBytes]
  by_cases hk : k < 8 * data.length
  · have h8 : k / 8 < data.length := by omega
    rw [List.getElem?_eq_getElem (by simpa [attachCursor] using hk), getElem_bitsAhead,
      List.getElem?_eq_getElem h8, Option.map_some, bitAt_testBit]
    have hz : (attachCursor buf data.length data).pos + k = k := by simp [attachCursor]
    have hb : byteAt (attachCursor buf data.length data).buf (k / 8) = data[k / 8] := by
      have h32 : k / 8 < 32 := by omega
      simp only [attachCursor, List.take_length, byteAt]
      rw [getD_vector _ _ _ h32, getElem_fillBytes]
      simp [h8]
    rw [hz, hb]
  · rw [List.getElem?_eq_none (by simp [attachCursor]; omega), List.getElem?_eq_none (by omega)]; rfl

end Sys2Proof.Machine
end

