-- ==== Sys2Proof/Laws/Position.lean ====
section
/-! SUPPORT. What the position decode does on a stream that stands at the cursor, field by field. -/

namespace Sys2Proof.Machine

@[simp] theorem length_encodeSym (s : PieceSym) : (encodeSym s).length = symLength s := by cases s <;> simp [encodeSym, symLength]

theorem length_encodeSyms (syms : List PieceSym) : (syms.flatMap encodeSym).length = runLength syms := by
  induction syms with
  | nil => rfl
  | cons s syms ih => simp only [List.flatMap_cons, List.length_append, length_encodeSym, ih, runLength, List.map_cons, List.sum_cons]

/-- A symbol that stands at the cursor is decoded whole (41_piececode.md R104). -/
theorem decodePiece_append {c : Cursor} {s : PieceSym} {r : List Bool} (h : bitsAhead c = encodeSym s ++ r) :
    decodePiece c = .ok (s, cursorAfter c (symLength s)) := by
  rw [decodePiece_eq, h, takeSymCode_append]; rfl

/-- A King's square stays one, whatever symbols are placed. -/
theorem isKingSq_putSym (sq : Sq) (s : PieceSym) (w : Work) : isKingSq (putSym sq s w) = isKingSq w := by
  cases s <;> rfl

theorem runLength_cons (s : PieceSym) (syms : List PieceSym) : runLength (s :: syms) = symLength s + runLength syms := by
  simp [runLength]

/-- The run of step 4, when its symbols stand at the cursor (42_position.md R113, R114). -/
theorem decodeSquares_run {order : List Sq} {syms : List PieceSym} {w w' : Work} {c : Cursor} {r : List Bool}
    (hp : placeRun order syms w = some w') (hb : bitsAhead c = syms.flatMap encodeSym ++ r) :
    decodeSquares order w c = .ok (w', cursorAfter c (runLength syms)) := by
  induction order generalizing syms w c with
  | nil =>
    cases syms with
    | nil => simp only [placeRun] at hp; obtain rfl := Option.some.inj hp; rfl
    | cons s syms => simp [placeRun] at hp
  | cons sq order ih =>
    rw [decodeSquares]
    rw [placeRun] at hp
    by_cases hk : isKingSq w sq = true
    · rw [if_pos hk] at hp ⊢; exact ih hp hb
    · rw [if_neg hk] at hp ⊢
      cases syms with
      | nil => simp at hp
      | cons s syms =>
        simp only [List.head?_cons, Option.bind_some, List.tail_cons] at hp
        rw [List.flatMap_cons, List.append_assoc] at hb
        rw [decodePiece_append hb]
        show decodeSquares order (putSym sq s w) (cursorAfter c (symLength s)) = _
        rw [ih hp (bitsAhead_after hb (by simp)), runLength_cons]
        rw [cursorAfter_after]

/-- Placing succeeds exactly when there is one symbol for each square that is not a King's. -/
theorem placeRun_isSome {order : List Sq} {syms : List PieceSym} {w : Work} :
    (placeRun order syms w).isSome = true ↔ syms.length = (order.filter fun sq => !isKingSq w sq).length := by
  induction order generalizing syms w with
  | nil => cases syms <;> simp [placeRun]
  | cons sq order ih =>
    rw [placeRun]
    by_cases hk : isKingSq w sq = true
    · rw [if_pos hk, ih]; simp [hk]
    · rw [if_neg hk]
      cases syms with
      | nil => simp [hk]
      | cons s syms =>
        simp only [List.head?_cons, Option.bind_some, List.tail_cons, ih, isKingSq_putSym]; simp [hk]

/-- The cursor position a state's cursor leaves behind. -/
theorem length_epBits (ep : Option Sq) : (epBits ep).length = if ep.isSome then 7 else 1 := by
  cases ep <;> simp [epBits]

/-- The scratch position after the nine steps on a stream, from the one after step 4. -/
def finishedWork (p : PosStream) (w : Work) : Work :=
  putFmnHi p.fHi (putFmnLo p.fLo (putHmcLo p.hLo
    (match p.ep with
     | none => putEpf 0 (putCastle 3 p.bq (putCastle 2 p.bk (putCastle 1 p.wq (putCastle 0 p.wk w))))
     | some sq =>
       putEpsq sq (putEpf 1 (putCastle 3 p.bq (putCastle 2 p.bk (putCastle 1 p.wq (putCastle 0 p.wk w))))))))

/-- The nine steps on a stream that stands at the cursor (42_position.md R110): they complete, and the cursor is
past exactly the stream. -/
theorem readPosition_stream {p : PosStream} {w : Work} {c : Cursor} {r : List Bool}
    (hp : placeRun visitOrder p.syms (putK2 p.k2 (putK1 p.k1 (startWork p.turn))) = some w)
    (hb : bitsAhead c = p.bits ++ r) :
    readPosition c = .ok (finishedWork p w, p.hHi, cursorAfter c p.bits.length) := by
  simp only [PosStream.bits, List.append_assoc] at hb
  obtain ⟨e1, h1⟩ := readField_append hb
  obtain ⟨e2, h2⟩ := readField_append h1
  obtain ⟨e3, h3⟩ := readField_append h2
  have e4 := decodeSquares_run hp h3
  have h4 := bitsAhead_after h3 (length_encodeSyms p.syms)
  obtain ⟨e5, h5⟩ := readField_append h4
  obtain ⟨e6, h6⟩ := readField_append h5
  obtain ⟨e7, h7⟩ := readField_append h6
  obtain ⟨e8, h8⟩ := readField_append h7
  simp only [cursorAfter_after] at e1 e2 e3 e4 e5 e6 e7 e8 h8
  have hl := length_encodeSyms p.syms
  unfold readPosition
  simp only [e1, e2, e3, e4, e5, e6, e7, e8, bind, Except.bind]
  cases hep : p.ep with
  | none =>
    rw [hep] at h8
    obtain ⟨e9, h9⟩ := readField_append (v := (0 : Bit)) h8
    obtain ⟨e10, h10⟩ := readField_append h9
    obtain ⟨e11, h11⟩ := readField_append h10
    obtain ⟨e12, h12⟩ := readField_append h11
    obtain ⟨e13, -⟩ := readField_append h12
    simp only [cursorAfter_after] at e9 e10 e11 e12 e13
    simp [e9, e10, e11, e12, e13, readEpsq, putEpf, finishedWork, hep, pure, Except.pure, PosStream.bits, hl, epBits]
    simp [cursorAfter]; omega
  | some sq =>
    rw [hep] at h8
    obtain ⟨e9, h9⟩ := readField_append (v := (1 : Bit)) h8
    obtain ⟨e9', h9'⟩ := readField_append (show bitsAhead _ = bitsOf sq ++ _ from h9)
    obtain ⟨e10, h10⟩ := readField_append h9'
    obtain ⟨e11, h11⟩ := readField_append h10
    obtain ⟨e12, h12⟩ := readField_append h11
    obtain ⟨e13, -⟩ := readField_append h12
    simp only [cursorAfter_after] at e9 e9' e10 e11 e12 e13
    simp [e9, e9', e10, e11, e12, e13, readEpsq, putEpf, finishedWork, hep, bind, Except.bind, pure, Except.pure, PosStream.bits, hl, epBits]
    simp [cursorAfter]; omega

end Sys2Proof.Machine
end

