-- ==== Sys2Proof/Laws/Board.lean ====
section
/-! SUPPORT. What step 4 of a position decode leaves on the board, and the fields of the finished scratch position. -/

namespace Sys2Proof.Machine

/-- A cell after one placement. -/
theorem getD_set (b : Vector BoardCell 64) (sq k : Sq) (cell : BoardCell) :
    (b.setIfInBounds sq.toNat cell).getD k.toNat 0 = if k = sq then cell else b.getD k.toNat 0 := by
  have h1 := sq.isLt; have h2 := k.isLt
  rw [getD_vector _ _ _ h2, getD_vector _ _ _ h2, Vector.getElem_setIfInBounds]
  by_cases h : k = sq
  · simp [h]
  · rw [if_neg (fun hh => h (BitVec.eq_of_toNat_eq hh.symm)), if_neg h]

/-- What one symbol does to a cell. -/
def cellOf (sym : PieceSym) (old : BoardCell) : BoardCell :=
  match sym with
  | .empty => old
  | .man k c => boardCell c (kindNumber k)

/-- A cell after one symbol. -/
theorem putSym_cell (sq k : Sq) (sym : PieceSym) (w : Work) :
    (putSym sq sym w).board.getD k.toNat 0 =
      if k = sq then cellOf sym (w.board.getD k.toNat 0) else w.board.getD k.toNat 0 := by
  cases sym with
  | empty => simp [putSym, cellOf]
  | man kd c => exact getD_set _ _ _ _

/-- A symbol changes the board alone. -/
theorem putSym_rest (sq : Sq) (sym : PieceSym) (w : Work) :
    putSym sq sym w = { w with board := (putSym sq sym w).board } := by
  cases sym <;> rfl

/-- What a run of symbols leaves: every cell, and nothing but the board (42_position.md R113, R114). -/
theorem placeRun_spec {order : List Sq} {syms : List PieceSym} {w w' : Work} (h : placeRun order syms w = some w')
    (nd : order.Nodup) :
    w' = { w with board := w'.board } ∧ ∀ k : Sq, w'.board.getD k.toNat 0 =
      cellOf (syms.getD ((order.filter fun sq => !isKingSq w sq).idxOf k) .empty) (w.board.getD k.toNat 0) := by
  induction order generalizing syms w with
  | nil =>
    cases syms with
    | nil => simp [placeRun] at h; subst h; exact ⟨rfl, fun k => by simp [cellOf]⟩
    | cons a l => simp [placeRun] at h
  | cons sq order ih =>
    rw [placeRun] at h
    have nd' := (List.nodup_cons.1 nd).2
    have hni := (List.nodup_cons.1 nd).1
    split at h
    · rename_i hk
      obtain ⟨h1, h2⟩ := ih h nd'
      refine ⟨h1, fun k => ?_⟩
      rw [h2 k, List.filter_cons_of_neg (by simp [hk])]
    · rename_i hk
      cases syms with
      | nil => simp at h
      | cons sym syms =>
        simp only [List.head?_cons, Option.bind_some, List.tail_cons] at h
        obtain ⟨h1, h2⟩ := ih h nd'
        rw [isKingSq_putSym] at h2
        refine ⟨?_, fun k => ?_⟩
        · rw [h1]; rw [putSym_rest]
        · rw [h2 k, List.filter_cons_of_pos (by simp [hk]), putSym_cell]
          by_cases he : k = sq
          · subst he
            rw [List.idxOf_cons_self, if_pos rfl, List.getD_cons_zero]
            have : (order.filter fun sq => !isKingSq w sq).idxOf k =
                (order.filter fun sq => !isKingSq w sq).length := by
              apply List.idxOf_eq_length; intro hm; exact hni (List.mem_of_mem_filter hm)
            rw [this]
            have hl := (placeRun_isSome (order := order) (syms := syms) (w := putSym k sym w)).1 (by rw [h]; rfl)
            rw [isKingSq_putSym] at hl
            rw [← hl]; simp [List.getD, cellOf]
          · rw [if_neg he, List.idxOf_cons_ne _ (fun hh => he hh.symm), List.getD_cons_succ]

theorem visit_nodup : visitOrder.Nodup := by decide +kernel

theorem visit_all : ∀ k : Sq, k ∈ visitOrder := by decide +kernel

theorem visit_length : visitOrder.length = 64 := by decide +kernel

/-- The machine visits the squares in the order that 42_position.md R113 numbers. -/
theorem visitOrder_eq : visitOrder = visitedSquares := by decide +kernel

/-- The squares the machine does not skip are those due for a symbol, in the same order. -/
theorem visitOrder_filter (w : Work) :
    (visitOrder.filter fun sq => !isKingSq w sq) = dueSquares w.k1 w.k2 := by
  rw [visitOrder_eq, dueSquares]; congr 1; funext sq; simp [isKingSq, bne]

/-- A symbol is due for 62 squares, or 63 when the king squares are equal (42_position.md R113). -/
theorem due_length (k1 k2 : Sq) : (dueSquares k1 k2).length = if k1 = k2 then 63 else 62 := by
  rw [dueSquares, ← visitOrder_eq]
  have h1 : ∀ k, (visitOrder.filter fun sq => sq != k).length = 63 := by
    intro k
    have := List.length_erase_of_mem (visit_all k)
    rw [visit_length, visit_nodup.erase_eq_filter] at this
    exact this
  by_cases h : k1 = k2
  · subst h; simpa using h1 k1
  · rw [if_neg h]
    have h2 : (visitOrder.filter fun sq => sq != k1 && sq != k2) =
        ((visitOrder.filter fun sq => sq != k1).erase k2) := by
      rw [(visit_nodup.filter _).erase_eq_filter, List.filter_filter]
      congr 1; funext x; rw [Bool.and_comm]
    rw [h2, List.length_erase_of_mem, h1]
    rw [List.mem_filter]; exact ⟨visit_all k2, by simpa using fun hh => h hh.symm⟩

/-- A stream with the right count of symbols places them all. -/
theorem placeRun_some (p : PosStream) (h : p.countOk) :
    ∃ w, placeRun visitOrder p.syms (putK2 p.k2 (putK1 p.k1 (startWork p.turn))) = some w := by
  apply Option.isSome_iff_exists.1
  rw [placeRun_isSome, visitOrder_filter, h]
  exact (due_length p.k1 p.k2).symm

theorem finishedWork_board (p : PosStream) (w : Work) : (finishedWork p w).board = w.board := by
  rcases p with ⟨_, _, _, _, _, _, _, _, ep, _, _, _, _⟩; cases ep <;>
    simp [finishedWork, putFmnHi, putFmnLo, putHmcLo, putEpf, putEpsq, putCastle]

theorem finishedWork_turn (p : PosStream) (w : Work) : (finishedWork p w).turn = w.turn := by
  rcases p with ⟨_, _, _, _, _, _, _, _, ep, _, _, _, _⟩; cases ep <;>
    simp [finishedWork, putFmnHi, putFmnLo, putHmcLo, putEpf, putEpsq, putCastle]

theorem finishedWork_castle (p : PosStream) (w : Work) : (finishedWork p w).castle =
    (putCastle 3 p.bq (putCastle 2 p.bk (putCastle 1 p.wq (putCastle 0 p.wk w)))).castle := by
  rcases p with ⟨_, _, _, _, _, _, _, _, ep, _, _, _, _⟩; cases ep <;>
    simp [finishedWork, putFmnHi, putFmnLo, putHmcLo, putEpf, putEpsq, putCastle]

theorem finishedWork_epv (p : PosStream) (w : Work) : (finishedWork p w).epv = if p.ep.isSome then 1 else 0 := by
  rcases p with ⟨_, _, _, _, _, _, _, _, ep, _, _, _, _⟩; cases ep <;>
    simp [finishedWork, putFmnHi, putFmnLo, putHmcLo, putEpf, putEpsq, putCastle]

theorem finishedWork_epsq (p : PosStream) (w : Work) : (finishedWork p w).epsq = p.ep.getD 0 := by
  rcases p with ⟨_, _, _, _, _, _, _, _, ep, _, _, _, _⟩; cases ep <;>
    simp [finishedWork, putFmnHi, putFmnLo, putHmcLo, putEpf, putEpsq, putCastle]

/-- Bytes as one number, by their bits. -/
theorem leNumber_eq (bs : List Byte) : leNumber bs = natOfBits (bitsOfBytes bs) := by
  induction bs with
  | nil => rfl
  | cons b bs ih => rw [bitsOfBytes_cons, natOfBits_append, leNumber, ih]; simp

end Sys2Proof.Machine
end

