-- ==== Sys2Proof/Laws/Inversion.lean ====
section
/-! SUPPORT. The converse of the reading laws: what a completed read says about the bits that stood at the cursor. -/

namespace Sys2Proof.Machine

/-- A field that has been read stood at the cursor. -/
theorem readField_ok {n : Nat} {c c' : Cursor} {v : BitVec n} (h : readField n c = .ok (v, c')) :
    bitsAhead c = bitsOf v ++ bitsAhead c' ∧ c' = cursorAfter c n := by
  rw [readField_eq, takeField_eq] at h
  split at h
  · rename_i w _ hw
    split at hw
    · rename_i hn
      injection hw with hw; injection hw with hv hr
      injection h with h; injection h with h1 h2
      subst h2
      refine ⟨?_, rfl⟩
      rw [bitsAhead_advance, ← h1, ← hv]
      have hl : ((bitsAhead c).take n).length = n := by simp; simpa using hn
      have : bitsOf (BitVec.ofNat n (natOfBits ((bitsAhead c).take n))) = (bitsAhead c).take n := by
        have h3 := natOfBits_lt ((bitsAhead c).take n)
        rw [hl] at h3
        have h4 := bitsOfNat_natOfBits ((bitsAhead c).take n)
        rw [hl] at h4
        rw [bitsOf, BitVec.toNat_ofNat, Nat.mod_eq_of_lt h3, h4]
      rw [this, List.take_append_drop]
    · cases hw
  · cases h

/-- A legal symbol at the front of the bits is its encoding. -/
theorem takeSymCode_ok {bits r : List Bool} {s : PieceSym} (h : takeSymCode bits = .ok (.sym s, r)) :
    bits = encodeSym s ++ r := by
  cases bits with
  | nil => cases h
  | cons b l =>
    cases b with
    | false => injection h with h; injection h with h1 h2; injection h1 with h1; subst h1 h2; rfl
    | true =>
      match l, h with
      | [], h => cases h
      | [_], h => cases h
      | [_, _], h => cases h
      | [a, b, c], h => cases a <;> cases b <;> cases c <;> cases h
      | a :: b :: c :: d :: l, h =>
        cases a <;> cases b <;> cases c <;> first
          | (cases h; done)
          | (injection h with h; injection h with h1 h2; injection h1 with h1; subst h1 h2; cases d <;> rfl)

/-- A piece symbol that has been decoded stood at the cursor. -/
theorem decodePiece_ok {c c' : Cursor} {s : PieceSym} (h : decodePiece c = .ok (s, c')) :
    bitsAhead c = encodeSym s ++ bitsAhead c' ∧ c' = cursorAfter c (symLength s) := by
  rw [decodePiece_eq] at h
  split at h
  · cases h
  · cases h
  · rename_i s' r hs
    injection h with h; injection h with h1 h2
    subst h1 h2
    refine ⟨?_, rfl⟩
    have hb := takeSymCode_ok hs
    have hr : bitsAhead { c with pos := c.pos + symLength s' } = r := bitsAhead_after (n := symLength s') hb (by simp)
    rw [hr, hb]

/-- A completed run of step 4 read symbols that stood at the cursor. -/
theorem decodeSquares_ok {order : List Sq} {w w' : Work} {c c' : Cursor} (h : decodeSquares order w c = .ok (w', c')) :
    ∃ syms, placeRun order syms w = some w' ∧ bitsAhead c = syms.flatMap encodeSym ++ bitsAhead c' ∧
      c' = cursorAfter c (runLength syms) := by
  induction order generalizing w c with
  | nil => injection h with h; injection h with h1 h2; subst h1 h2; exact ⟨[], rfl, rfl, rfl⟩
  | cons sq order ih =>
    rw [decodeSquares] at h
    split at h
    · rename_i hk
      obtain ⟨syms, h1, h2⟩ := ih h
      exact ⟨syms, by rw [placeRun, if_pos hk]; exact h1, h2⟩
    · rename_i hk
      cases hd : decodePiece c with
      | error e => rw [hd] at h; cases h
      | ok p =>
        obtain ⟨sym, c1⟩ := p
        rw [hd] at h
        obtain ⟨syms, h1, h2, h3⟩ := ih h
        obtain ⟨h4, h5⟩ := decodePiece_ok hd
        refine ⟨sym :: syms, ?_, ?_, ?_⟩
        · rw [placeRun, if_neg hk]; exact h1
        · rw [h4, h2]; simp
        · rw [h3, h5, cursorAfter_after, runLength_cons]

/-- A completed sequence completed both its parts. -/
theorem bind_ok {α β : Type} {x : Except Cause α} {f : α → Except Cause β} {b : β} (h : (x >>= f) = .ok b) :
    ∃ a, x = .ok a ∧ f a = .ok b := by
  cases x with
  | error e => cases h
  | ok a => exact ⟨a, rfl, h⟩

/-- A completed position decode read a stream that stood at the cursor. -/
theorem readPosition_ok {c c' : Cursor} {w : Work} {h : Bit} (hr : readPosition c = .ok (w, h, c')) :
    ∃ (p : PosStream) (w4 : Work), placeRun visitOrder p.syms (putK2 p.k2 (putK1 p.k1 (startWork p.turn))) = some w4 ∧
      w = finishedWork p w4 ∧ h = p.hHi ∧ bitsAhead c = p.bits ++ bitsAhead c' ∧ c' = cursorAfter c p.bits.length := by
  unfold readPosition at hr
  obtain ⟨⟨t, c1⟩, h1, hr⟩ := bind_ok hr
  obtain ⟨⟨k1, c2⟩, h2, hr⟩ := bind_ok hr
  obtain ⟨⟨k2, c3⟩, h3, hr⟩ := bind_ok hr
  obtain ⟨⟨w4, c4⟩, h4, hr⟩ := bind_ok hr
  obtain ⟨⟨wk, c5⟩, h5, hr⟩ := bind_ok hr
  obtain ⟨⟨wq, c6⟩, h6, hr⟩ := bind_ok hr
  obtain ⟨⟨bk, c7⟩, h7, hr⟩ := bind_ok hr
  obtain ⟨⟨bq, c8⟩, h8, hr⟩ := bind_ok hr
  obtain ⟨⟨e, c9⟩, h9, hr⟩ := bind_ok hr
  obtain ⟨⟨w10, c10⟩, h10, hr⟩ := bind_ok hr
  obtain ⟨⟨lo, c11⟩, h11, hr⟩ := bind_ok hr
  obtain ⟨⟨fl, c12⟩, h12, hr⟩ := bind_ok hr
  obtain ⟨⟨fh, c13⟩, h13, hr⟩ := bind_ok hr
  obtain ⟨⟨hh, c14⟩, h14, hr⟩ := bind_ok hr
  injection hr with hr; injection hr with e1 hr; injection hr with e2 e3
  subst e1 e2 e3
  obtain ⟨syms, g1, g2, g3⟩ := decodeSquares_ok h4
  obtain ⟨b1, d1⟩ := readField_ok h1
  obtain ⟨b2, d2⟩ := readField_ok h2
  obtain ⟨b3, d3⟩ := readField_ok h3
  obtain ⟨b5, d5⟩ := readField_ok h5
  obtain ⟨b6, d6⟩ := readField_ok h6
  obtain ⟨b7, d7⟩ := readField_ok h7
  obtain ⟨b8, d8⟩ := readField_ok h8
  obtain ⟨b9, d9⟩ := readField_ok h9
  obtain ⟨b11, d11⟩ := readField_ok h11
  obtain ⟨b12, d12⟩ := readField_ok h12
  obtain ⟨b13, d13⟩ := readField_ok h13
  obtain ⟨b14, d14⟩ := readField_ok h14
  have hep : ∃ ep : Option Sq, bitsOf e ++ bitsAhead c9 = epBits ep ++ bitsAhead c10 ∧
      c10 = cursorAfter c8 (epBits ep).length ∧
      w10 = (match ep with
        | none => putEpf 0 (putCastle 3 bq (putCastle 2 bk (putCastle 1 wq (putCastle 0 wk w4))))
        | some sq => putEpsq sq (putEpf 1 (putCastle 3 bq (putCastle 2 bk (putCastle 1 wq (putCastle 0 wk w4)))))) := by
    unfold readEpsq at h10
    split at h10
    · rename_i he
      have he' : e = 1 := he
      subst he'
      obtain ⟨⟨sq, c10'⟩, h, h10⟩ := bind_ok h10
      injection h10 with h10; injection h10 with q1 q2; subst q1 q2
      obtain ⟨b10, d10⟩ := readField_ok h
      refine ⟨some sq, ?_, ?_, rfl⟩
      · rw [b10]; rfl
      · rw [d10, d9, cursorAfter_after]; simp [epBits]
    · rename_i he
      have he' : e = 0 := by
        have : e ≠ 1 := he
        have := e.isLt; revert this; bv_omega
      subst he'
      injection h10 with h10; injection h10 with q1 q2; subst q1 q2
      exact ⟨none, rfl, by rw [d9]; simp [epBits], rfl⟩
  obtain ⟨ep, f1, f2, f3⟩ := hep
  refine ⟨⟨t, k1, k2, syms, wk, wq, bk, bq, ep, lo, fl, fh, hh⟩, w4, g1, ?_, rfl, ?_, ?_⟩
  · subst f3; cases ep <;> rfl
  · simp only [PosStream.bits, List.append_assoc]
    rw [b1, b2, b3, g2, b5, b6, b7, b8, b9, f1, b11, b12, b13, b14]
  · rw [d14, d13, d12, d11, f2, d8, d7, d6, d5, g3, d3, d2, d1]
    simp only [cursorAfter_after, PosStream.bits, List.length_append, length_bitsOf, length_encodeSyms]

end Sys2Proof.Machine
end

