-- ==== Sys2Proof/Laws/State.lean ====
section
/-! SUPPORT. One lemma per field of State per named update, each true by rfl: later proofs rewrite with these and
never unfold a record update. -/

namespace Sys2Proof.Machine

variable (s : State)

/-! ### answer -/

@[simp] theorem answer_buf (r : Response) : (answer r s).buf = s.buf := rfl
@[simp] theorem answer_len (r : Response) : (answer r s).len = s.len := rfl
@[simp] theorem answer_pos (r : Response) : (answer r s).pos = s.pos := rfl
@[simp] theorem answer_val (r : Response) : (answer r s).val = s.val := rfl
@[simp] theorem answer_pk (r : Response) : (answer r s).pk = s.pk := rfl
@[simp] theorem answer_pcol (r : Response) : (answer r s).pcol = s.pcol := rfl
@[simp] theorem answer_board (r : Response) : (answer r s).board = s.board := rfl
@[simp] theorem answer_turn (r : Response) : (answer r s).turn = s.turn := rfl
@[simp] theorem answer_castle (r : Response) : (answer r s).castle = s.castle := rfl
@[simp] theorem answer_epv (r : Response) : (answer r s).epv = s.epv := rfl
@[simp] theorem answer_epsq (r : Response) : (answer r s).epsq = s.epsq := rfl
@[simp] theorem answer_hmc (r : Response) : (answer r s).hmc = s.hmc := rfl
@[simp] theorem answer_fmn (r : Response) : (answer r s).fmn = s.fmn := rfl
@[simp] theorem answer_mto (r : Response) : (answer r s).mto = s.mto := rfl
@[simp] theorem answer_mfrom (r : Response) : (answer r s).mfrom = s.mfrom := rfl
@[simp] theorem answer_mpromo (r : Response) : (answer r s).mpromo = s.mpromo := rfl
@[simp] theorem answer_mspecial (r : Response) : (answer r s).mspecial = s.mspecial := rfl
@[simp] theorem answer_score (r : Response) : (answer r s).score = s.score := rfl
@[simp] theorem answer_movew (r : Response) : (answer r s).movew = s.movew := rfl
@[simp] theorem answer_ply (r : Response) : (answer r s).ply = s.ply := rfl
@[simp] theorem answer_result (r : Response) : (answer r s).result = s.result := rfl
@[simp] theorem answer_raw (r : Response) : (answer r s).raw = s.raw := rfl
@[simp] theorem answer_fsize (r : Response) : (answer r s).fsize = s.fsize := rfl
@[simp] theorem answer_soff (r : Response) : (answer r s).soff = s.soff := rfl
@[simp] theorem answer_count (r : Response) : (answer r s).count = s.count := rfl
@[simp] theorem answer_rp (r : Response) : (answer r s).rp = s.rp := rfl
@[simp] theorem answer_opn (r : Response) : (answer r s).opn = s.opn := rfl
@[simp] theorem answer_err (r : Response) : (answer r s).err = s.err := rfl
@[simp] theorem answer_work (r : Response) : (answer r s).work = s.work := rfl
@[simp] theorem answer_stream (r : Response) : (answer r s).stream = s.stream := rfl
@[simp] theorem answer_inbox (r : Response) : (answer r s).inbox = s.inbox := rfl
@[simp] theorem answer_resp (r : Response) : (answer r s).resp = r := rfl
@[simp] theorem answer_refusedSeen (r : Response) : (answer r s).refusedSeen = s.refusedSeen := rfl
@[simp] theorem answer_written (r : Response) : (answer r s).written = s.written := rfl

/-! ### refuse -/

@[simp] theorem refuse_buf : (refuse s).buf = s.buf := rfl
@[simp] theorem refuse_len : (refuse s).len = s.len := rfl
@[simp] theorem refuse_pos : (refuse s).pos = s.pos := rfl
@[simp] theorem refuse_val : (refuse s).val = s.val := rfl
@[simp] theorem refuse_pk : (refuse s).pk = s.pk := rfl
@[simp] theorem refuse_pcol : (refuse s).pcol = s.pcol := rfl
@[simp] theorem refuse_board : (refuse s).board = s.board := rfl
@[simp] theorem refuse_turn : (refuse s).turn = s.turn := rfl
@[simp] theorem refuse_castle : (refuse s).castle = s.castle := rfl
@[simp] theorem refuse_epv : (refuse s).epv = s.epv := rfl
@[simp] theorem refuse_epsq : (refuse s).epsq = s.epsq := rfl
@[simp] theorem refuse_hmc : (refuse s).hmc = s.hmc := rfl
@[simp] theorem refuse_fmn : (refuse s).fmn = s.fmn := rfl
@[simp] theorem refuse_mto : (refuse s).mto = s.mto := rfl
@[simp] theorem refuse_mfrom : (refuse s).mfrom = s.mfrom := rfl
@[simp] theorem refuse_mpromo : (refuse s).mpromo = s.mpromo := rfl
@[simp] theorem refuse_mspecial : (refuse s).mspecial = s.mspecial := rfl
@[simp] theorem refuse_score : (refuse s).score = s.score := rfl
@[simp] theorem refuse_movew : (refuse s).movew = s.movew := rfl
@[simp] theorem refuse_ply : (refuse s).ply = s.ply := rfl
@[simp] theorem refuse_result : (refuse s).result = s.result := rfl
@[simp] theorem refuse_raw : (refuse s).raw = s.raw := rfl
@[simp] theorem refuse_fsize : (refuse s).fsize = s.fsize := rfl
@[simp] theorem refuse_soff : (refuse s).soff = s.soff := rfl
@[simp] theorem refuse_count : (refuse s).count = s.count := rfl
@[simp] theorem refuse_rp : (refuse s).rp = s.rp := rfl
@[simp] theorem refuse_opn : (refuse s).opn = s.opn := rfl
@[simp] theorem refuse_err : (refuse s).err = s.err := rfl
@[simp] theorem refuse_work : (refuse s).work = s.work := rfl
@[simp] theorem refuse_stream : (refuse s).stream = s.stream := rfl
@[simp] theorem refuse_inbox : (refuse s).inbox = s.inbox := rfl
@[simp] theorem refuse_resp : (refuse s).resp = .refused := rfl
@[simp] theorem refuse_refusedSeen : (refuse s).refusedSeen = true := rfl
@[simp] theorem refuse_written : (refuse s).written = s.written := rfl

/-! ### takeFault -/

@[simp] theorem takeFault_buf (c : Cause) : (takeFault c s).buf = s.buf := rfl
@[simp] theorem takeFault_len (c : Cause) : (takeFault c s).len = s.len := rfl
@[simp] theorem takeFault_pos (c : Cause) : (takeFault c s).pos = s.pos := rfl
@[simp] theorem takeFault_val (c : Cause) : (takeFault c s).val = s.val := rfl
@[simp] theorem takeFault_pk (c : Cause) : (takeFault c s).pk = s.pk := rfl
@[simp] theorem takeFault_pcol (c : Cause) : (takeFault c s).pcol = s.pcol := rfl
@[simp] theorem takeFault_board (c : Cause) : (takeFault c s).board = s.board := rfl
@[simp] theorem takeFault_turn (c : Cause) : (takeFault c s).turn = s.turn := rfl
@[simp] theorem takeFault_castle (c : Cause) : (takeFault c s).castle = s.castle := rfl
@[simp] theorem takeFault_epv (c : Cause) : (takeFault c s).epv = s.epv := rfl
@[simp] theorem takeFault_epsq (c : Cause) : (takeFault c s).epsq = s.epsq := rfl
@[simp] theorem takeFault_hmc (c : Cause) : (takeFault c s).hmc = s.hmc := rfl
@[simp] theorem takeFault_fmn (c : Cause) : (takeFault c s).fmn = s.fmn := rfl
@[simp] theorem takeFault_mto (c : Cause) : (takeFault c s).mto = s.mto := rfl
@[simp] theorem takeFault_mfrom (c : Cause) : (takeFault c s).mfrom = s.mfrom := rfl
@[simp] theorem takeFault_mpromo (c : Cause) : (takeFault c s).mpromo = s.mpromo := rfl
@[simp] theorem takeFault_mspecial (c : Cause) : (takeFault c s).mspecial = s.mspecial := rfl
@[simp] theorem takeFault_score (c : Cause) : (takeFault c s).score = s.score := rfl
@[simp] theorem takeFault_movew (c : Cause) : (takeFault c s).movew = s.movew := rfl
@[simp] theorem takeFault_ply (c : Cause) : (takeFault c s).ply = s.ply := rfl
@[simp] theorem takeFault_result (c : Cause) : (takeFault c s).result = s.result := rfl
@[simp] theorem takeFault_raw (c : Cause) : (takeFault c s).raw = s.raw := rfl
@[simp] theorem takeFault_fsize (c : Cause) : (takeFault c s).fsize = s.fsize := rfl
@[simp] theorem takeFault_soff (c : Cause) : (takeFault c s).soff = s.soff := rfl
@[simp] theorem takeFault_count (c : Cause) : (takeFault c s).count = s.count := rfl
@[simp] theorem takeFault_rp (c : Cause) : (takeFault c s).rp = s.rp := rfl
@[simp] theorem takeFault_opn (c : Cause) : (takeFault c s).opn = s.opn := rfl
@[simp] theorem takeFault_err (c : Cause) : (takeFault c s).err = causeCode c := rfl
@[simp] theorem takeFault_work (c : Cause) : (takeFault c s).work = s.work := rfl
@[simp] theorem takeFault_stream (c : Cause) : (takeFault c s).stream = s.stream := rfl
@[simp] theorem takeFault_inbox (c : Cause) : (takeFault c s).inbox = s.inbox := rfl
@[simp] theorem takeFault_resp (c : Cause) : (takeFault c s).resp = .fault c := rfl
@[simp] theorem takeFault_refusedSeen (c : Cause) : (takeFault c s).refusedSeen = s.refusedSeen := rfl
@[simp] theorem takeFault_written (c : Cause) : (takeFault c s).written = s.written := rfl

/-! ### returnFromFault -/

@[simp] theorem returnFromFault_buf : (returnFromFault s).buf = s.buf := rfl
@[simp] theorem returnFromFault_len : (returnFromFault s).len = s.len := rfl
@[simp] theorem returnFromFault_pos : (returnFromFault s).pos = s.pos := rfl
@[simp] theorem returnFromFault_val : (returnFromFault s).val = s.val := rfl
@[simp] theorem returnFromFault_pk : (returnFromFault s).pk = s.pk := rfl
@[simp] theorem returnFromFault_pcol : (returnFromFault s).pcol = s.pcol := rfl
@[simp] theorem returnFromFault_board : (returnFromFault s).board = s.board := rfl
@[simp] theorem returnFromFault_turn : (returnFromFault s).turn = s.turn := rfl
@[simp] theorem returnFromFault_castle : (returnFromFault s).castle = s.castle := rfl
@[simp] theorem returnFromFault_epv : (returnFromFault s).epv = s.epv := rfl
@[simp] theorem returnFromFault_epsq : (returnFromFault s).epsq = s.epsq := rfl
@[simp] theorem returnFromFault_hmc : (returnFromFault s).hmc = s.hmc := rfl
@[simp] theorem returnFromFault_fmn : (returnFromFault s).fmn = s.fmn := rfl
@[simp] theorem returnFromFault_mto : (returnFromFault s).mto = s.mto := rfl
@[simp] theorem returnFromFault_mfrom : (returnFromFault s).mfrom = s.mfrom := rfl
@[simp] theorem returnFromFault_mpromo : (returnFromFault s).mpromo = s.mpromo := rfl
@[simp] theorem returnFromFault_mspecial : (returnFromFault s).mspecial = s.mspecial := rfl
@[simp] theorem returnFromFault_score : (returnFromFault s).score = s.score := rfl
@[simp] theorem returnFromFault_movew : (returnFromFault s).movew = s.movew := rfl
@[simp] theorem returnFromFault_ply : (returnFromFault s).ply = s.ply := rfl
@[simp] theorem returnFromFault_result : (returnFromFault s).result = s.result := rfl
@[simp] theorem returnFromFault_raw : (returnFromFault s).raw = s.raw := rfl
@[simp] theorem returnFromFault_fsize : (returnFromFault s).fsize = s.fsize := rfl
@[simp] theorem returnFromFault_soff : (returnFromFault s).soff = s.soff := rfl
@[simp] theorem returnFromFault_count : (returnFromFault s).count = s.count := rfl
@[simp] theorem returnFromFault_rp : (returnFromFault s).rp = s.rp := rfl
@[simp] theorem returnFromFault_opn : (returnFromFault s).opn = s.opn := rfl
@[simp] theorem returnFromFault_err : (returnFromFault s).err = 0 := rfl
@[simp] theorem returnFromFault_work : (returnFromFault s).work = s.work := rfl
@[simp] theorem returnFromFault_stream : (returnFromFault s).stream = s.stream := rfl
@[simp] theorem returnFromFault_inbox : (returnFromFault s).inbox = s.inbox := rfl
@[simp] theorem returnFromFault_resp : (returnFromFault s).resp = s.resp := rfl
@[simp] theorem returnFromFault_refusedSeen : (returnFromFault s).refusedSeen = s.refusedSeen := rfl
@[simp] theorem returnFromFault_written : (returnFromFault s).written = s.written := rfl

/-! ### setCursor -/

@[simp] theorem setCursor_buf (c : Cursor) : (setCursor c s).buf = c.buf := rfl
@[simp] theorem setCursor_len (c : Cursor) : (setCursor c s).len = BitVec.ofNat 6 c.len := rfl
@[simp] theorem setCursor_pos (c : Cursor) : (setCursor c s).pos = BitVec.ofNat 9 c.pos := rfl
@[simp] theorem setCursor_val (c : Cursor) : (setCursor c s).val = s.val := rfl
@[simp] theorem setCursor_pk (c : Cursor) : (setCursor c s).pk = s.pk := rfl
@[simp] theorem setCursor_pcol (c : Cursor) : (setCursor c s).pcol = s.pcol := rfl
@[simp] theorem setCursor_board (c : Cursor) : (setCursor c s).board = s.board := rfl
@[simp] theorem setCursor_turn (c : Cursor) : (setCursor c s).turn = s.turn := rfl
@[simp] theorem setCursor_castle (c : Cursor) : (setCursor c s).castle = s.castle := rfl
@[simp] theorem setCursor_epv (c : Cursor) : (setCursor c s).epv = s.epv := rfl
@[simp] theorem setCursor_epsq (c : Cursor) : (setCursor c s).epsq = s.epsq := rfl
@[simp] theorem setCursor_hmc (c : Cursor) : (setCursor c s).hmc = s.hmc := rfl
@[simp] theorem setCursor_fmn (c : Cursor) : (setCursor c s).fmn = s.fmn := rfl
@[simp] theorem setCursor_mto (c : Cursor) : (setCursor c s).mto = s.mto := rfl
@[simp] theorem setCursor_mfrom (c : Cursor) : (setCursor c s).mfrom = s.mfrom := rfl
@[simp] theorem setCursor_mpromo (c : Cursor) : (setCursor c s).mpromo = s.mpromo := rfl
@[simp] theorem setCursor_mspecial (c : Cursor) : (setCursor c s).mspecial = s.mspecial := rfl
@[simp] theorem setCursor_score (c : Cursor) : (setCursor c s).score = s.score := rfl
@[simp] theorem setCursor_movew (c : Cursor) : (setCursor c s).movew = s.movew := rfl
@[simp] theorem setCursor_ply (c : Cursor) : (setCursor c s).ply = s.ply := rfl
@[simp] theorem setCursor_result (c : Cursor) : (setCursor c s).result = s.result := rfl
@[simp] theorem setCursor_raw (c : Cursor) : (setCursor c s).raw = s.raw := rfl
@[simp] theorem setCursor_fsize (c : Cursor) : (setCursor c s).fsize = s.fsize := rfl
@[simp] theorem setCursor_soff (c : Cursor) : (setCursor c s).soff = s.soff := rfl
@[simp] theorem setCursor_count (c : Cursor) : (setCursor c s).count = s.count := rfl
@[simp] theorem setCursor_rp (c : Cursor) : (setCursor c s).rp = s.rp := rfl
@[simp] theorem setCursor_opn (c : Cursor) : (setCursor c s).opn = s.opn := rfl
@[simp] theorem setCursor_err (c : Cursor) : (setCursor c s).err = s.err := rfl
@[simp] theorem setCursor_work (c : Cursor) : (setCursor c s).work = s.work := rfl
@[simp] theorem setCursor_stream (c : Cursor) : (setCursor c s).stream = s.stream := rfl
@[simp] theorem setCursor_inbox (c : Cursor) : (setCursor c s).inbox = s.inbox := rfl
@[simp] theorem setCursor_resp (c : Cursor) : (setCursor c s).resp = s.resp := rfl
@[simp] theorem setCursor_refusedSeen (c : Cursor) : (setCursor c s).refusedSeen = s.refusedSeen := rfl
@[simp] theorem setCursor_written (c : Cursor) : (setCursor c s).written = s.written := rfl

/-! ### setPos -/

@[simp] theorem setPos_buf (p : Nat) : (setPos p s).buf = s.buf := rfl
@[simp] theorem setPos_len (p : Nat) : (setPos p s).len = s.len := rfl
@[simp] theorem setPos_pos (p : Nat) : (setPos p s).pos = BitVec.ofNat 9 p := rfl
@[simp] theorem setPos_val (p : Nat) : (setPos p s).val = s.val := rfl
@[simp] theorem setPos_pk (p : Nat) : (setPos p s).pk = s.pk := rfl
@[simp] theorem setPos_pcol (p : Nat) : (setPos p s).pcol = s.pcol := rfl
@[simp] theorem setPos_board (p : Nat) : (setPos p s).board = s.board := rfl
@[simp] theorem setPos_turn (p : Nat) : (setPos p s).turn = s.turn := rfl
@[simp] theorem setPos_castle (p : Nat) : (setPos p s).castle = s.castle := rfl
@[simp] theorem setPos_epv (p : Nat) : (setPos p s).epv = s.epv := rfl
@[simp] theorem setPos_epsq (p : Nat) : (setPos p s).epsq = s.epsq := rfl
@[simp] theorem setPos_hmc (p : Nat) : (setPos p s).hmc = s.hmc := rfl
@[simp] theorem setPos_fmn (p : Nat) : (setPos p s).fmn = s.fmn := rfl
@[simp] theorem setPos_mto (p : Nat) : (setPos p s).mto = s.mto := rfl
@[simp] theorem setPos_mfrom (p : Nat) : (setPos p s).mfrom = s.mfrom := rfl
@[simp] theorem setPos_mpromo (p : Nat) : (setPos p s).mpromo = s.mpromo := rfl
@[simp] theorem setPos_mspecial (p : Nat) : (setPos p s).mspecial = s.mspecial := rfl
@[simp] theorem setPos_score (p : Nat) : (setPos p s).score = s.score := rfl
@[simp] theorem setPos_movew (p : Nat) : (setPos p s).movew = s.movew := rfl
@[simp] theorem setPos_ply (p : Nat) : (setPos p s).ply = s.ply := rfl
@[simp] theorem setPos_result (p : Nat) : (setPos p s).result = s.result := rfl
@[simp] theorem setPos_raw (p : Nat) : (setPos p s).raw = s.raw := rfl
@[simp] theorem setPos_fsize (p : Nat) : (setPos p s).fsize = s.fsize := rfl
@[simp] theorem setPos_soff (p : Nat) : (setPos p s).soff = s.soff := rfl
@[simp] theorem setPos_count (p : Nat) : (setPos p s).count = s.count := rfl
@[simp] theorem setPos_rp (p : Nat) : (setPos p s).rp = s.rp := rfl
@[simp] theorem setPos_opn (p : Nat) : (setPos p s).opn = s.opn := rfl
@[simp] theorem setPos_err (p : Nat) : (setPos p s).err = s.err := rfl
@[simp] theorem setPos_work (p : Nat) : (setPos p s).work = s.work := rfl
@[simp] theorem setPos_stream (p : Nat) : (setPos p s).stream = s.stream := rfl
@[simp] theorem setPos_inbox (p : Nat) : (setPos p s).inbox = s.inbox := rfl
@[simp] theorem setPos_resp (p : Nat) : (setPos p s).resp = s.resp := rfl
@[simp] theorem setPos_refusedSeen (p : Nat) : (setPos p s).refusedSeen = s.refusedSeen := rfl
@[simp] theorem setPos_written (p : Nat) : (setPos p s).written = s.written := rfl

/-! ### setVal -/

@[simp] theorem setVal_buf (v : Nat) : (setVal v s).buf = s.buf := rfl
@[simp] theorem setVal_len (v : Nat) : (setVal v s).len = s.len := rfl
@[simp] theorem setVal_pos (v : Nat) : (setVal v s).pos = s.pos := rfl
@[simp] theorem setVal_val (v : Nat) : (setVal v s).val = BitVec.ofNat 16 v := rfl
@[simp] theorem setVal_pk (v : Nat) : (setVal v s).pk = s.pk := rfl
@[simp] theorem setVal_pcol (v : Nat) : (setVal v s).pcol = s.pcol := rfl
@[simp] theorem setVal_board (v : Nat) : (setVal v s).board = s.board := rfl
@[simp] theorem setVal_turn (v : Nat) : (setVal v s).turn = s.turn := rfl
@[simp] theorem setVal_castle (v : Nat) : (setVal v s).castle = s.castle := rfl
@[simp] theorem setVal_epv (v : Nat) : (setVal v s).epv = s.epv := rfl
@[simp] theorem setVal_epsq (v : Nat) : (setVal v s).epsq = s.epsq := rfl
@[simp] theorem setVal_hmc (v : Nat) : (setVal v s).hmc = s.hmc := rfl
@[simp] theorem setVal_fmn (v : Nat) : (setVal v s).fmn = s.fmn := rfl
@[simp] theorem setVal_mto (v : Nat) : (setVal v s).mto = s.mto := rfl
@[simp] theorem setVal_mfrom (v : Nat) : (setVal v s).mfrom = s.mfrom := rfl
@[simp] theorem setVal_mpromo (v : Nat) : (setVal v s).mpromo = s.mpromo := rfl
@[simp] theorem setVal_mspecial (v : Nat) : (setVal v s).mspecial = s.mspecial := rfl
@[simp] theorem setVal_score (v : Nat) : (setVal v s).score = s.score := rfl
@[simp] theorem setVal_movew (v : Nat) : (setVal v s).movew = s.movew := rfl
@[simp] theorem setVal_ply (v : Nat) : (setVal v s).ply = s.ply := rfl
@[simp] theorem setVal_result (v : Nat) : (setVal v s).result = s.result := rfl
@[simp] theorem setVal_raw (v : Nat) : (setVal v s).raw = s.raw := rfl
@[simp] theorem setVal_fsize (v : Nat) : (setVal v s).fsize = s.fsize := rfl
@[simp] theorem setVal_soff (v : Nat) : (setVal v s).soff = s.soff := rfl
@[simp] theorem setVal_count (v : Nat) : (setVal v s).count = s.count := rfl
@[simp] theorem setVal_rp (v : Nat) : (setVal v s).rp = s.rp := rfl
@[simp] theorem setVal_opn (v : Nat) : (setVal v s).opn = s.opn := rfl
@[simp] theorem setVal_err (v : Nat) : (setVal v s).err = s.err := rfl
@[simp] theorem setVal_work (v : Nat) : (setVal v s).work = s.work := rfl
@[simp] theorem setVal_stream (v : Nat) : (setVal v s).stream = s.stream := rfl
@[simp] theorem setVal_inbox (v : Nat) : (setVal v s).inbox = s.inbox := rfl
@[simp] theorem setVal_resp (v : Nat) : (setVal v s).resp = s.resp := rfl
@[simp] theorem setVal_refusedSeen (v : Nat) : (setVal v s).refusedSeen = s.refusedSeen := rfl
@[simp] theorem setVal_written (v : Nat) : (setVal v s).written = { s.written with val := true } := rfl

/-! ### setPiece -/

@[simp] theorem setPiece_buf (y : PieceSym) : (setPiece y s).buf = s.buf := rfl
@[simp] theorem setPiece_len (y : PieceSym) : (setPiece y s).len = s.len := rfl
@[simp] theorem setPiece_pos (y : PieceSym) : (setPiece y s).pos = s.pos := rfl
@[simp] theorem setPiece_val (y : PieceSym) : (setPiece y s).val = s.val := rfl
@[simp] theorem setPiece_pk (y : PieceSym) : (setPiece y s).pk = symKind y := rfl
@[simp] theorem setPiece_pcol (y : PieceSym) : (setPiece y s).pcol = symColour y := rfl
@[simp] theorem setPiece_board (y : PieceSym) : (setPiece y s).board = s.board := rfl
@[simp] theorem setPiece_turn (y : PieceSym) : (setPiece y s).turn = s.turn := rfl
@[simp] theorem setPiece_castle (y : PieceSym) : (setPiece y s).castle = s.castle := rfl
@[simp] theorem setPiece_epv (y : PieceSym) : (setPiece y s).epv = s.epv := rfl
@[simp] theorem setPiece_epsq (y : PieceSym) : (setPiece y s).epsq = s.epsq := rfl
@[simp] theorem setPiece_hmc (y : PieceSym) : (setPiece y s).hmc = s.hmc := rfl
@[simp] theorem setPiece_fmn (y : PieceSym) : (setPiece y s).fmn = s.fmn := rfl
@[simp] theorem setPiece_mto (y : PieceSym) : (setPiece y s).mto = s.mto := rfl
@[simp] theorem setPiece_mfrom (y : PieceSym) : (setPiece y s).mfrom = s.mfrom := rfl
@[simp] theorem setPiece_mpromo (y : PieceSym) : (setPiece y s).mpromo = s.mpromo := rfl
@[simp] theorem setPiece_mspecial (y : PieceSym) : (setPiece y s).mspecial = s.mspecial := rfl
@[simp] theorem setPiece_score (y : PieceSym) : (setPiece y s).score = s.score := rfl
@[simp] theorem setPiece_movew (y : PieceSym) : (setPiece y s).movew = s.movew := rfl
@[simp] theorem setPiece_ply (y : PieceSym) : (setPiece y s).ply = s.ply := rfl
@[simp] theorem setPiece_result (y : PieceSym) : (setPiece y s).result = s.result := rfl
@[simp] theorem setPiece_raw (y : PieceSym) : (setPiece y s).raw = s.raw := rfl
@[simp] theorem setPiece_fsize (y : PieceSym) : (setPiece y s).fsize = s.fsize := rfl
@[simp] theorem setPiece_soff (y : PieceSym) : (setPiece y s).soff = s.soff := rfl
@[simp] theorem setPiece_count (y : PieceSym) : (setPiece y s).count = s.count := rfl
@[simp] theorem setPiece_rp (y : PieceSym) : (setPiece y s).rp = s.rp := rfl
@[simp] theorem setPiece_opn (y : PieceSym) : (setPiece y s).opn = s.opn := rfl
@[simp] theorem setPiece_err (y : PieceSym) : (setPiece y s).err = s.err := rfl
@[simp] theorem setPiece_work (y : PieceSym) : (setPiece y s).work = s.work := rfl
@[simp] theorem setPiece_stream (y : PieceSym) : (setPiece y s).stream = s.stream := rfl
@[simp] theorem setPiece_inbox (y : PieceSym) : (setPiece y s).inbox = s.inbox := rfl
@[simp] theorem setPiece_resp (y : PieceSym) : (setPiece y s).resp = s.resp := rfl
@[simp] theorem setPiece_refusedSeen (y : PieceSym) : (setPiece y s).refusedSeen = s.refusedSeen := rfl
@[simp] theorem setPiece_written (y : PieceSym) : (setPiece y s).written = { s.written with piece := true } := rfl

/-! ### setPosition -/

@[simp] theorem setPosition_buf (w : Work) (h : Bit) : (setPosition w h s).buf = s.buf := rfl
@[simp] theorem setPosition_len (w : Work) (h : Bit) : (setPosition w h s).len = s.len := rfl
@[simp] theorem setPosition_pos (w : Work) (h : Bit) : (setPosition w h s).pos = s.pos := rfl
@[simp] theorem setPosition_val (w : Work) (h : Bit) : (setPosition w h s).val = s.val := rfl
@[simp] theorem setPosition_pk (w : Work) (h : Bit) : (setPosition w h s).pk = s.pk := rfl
@[simp] theorem setPosition_pcol (w : Work) (h : Bit) : (setPosition w h s).pcol = s.pcol := rfl
@[simp] theorem setPosition_board (w : Work) (h : Bit) : (setPosition w h s).board = w.board := rfl
@[simp] theorem setPosition_turn (w : Work) (h : Bit) : (setPosition w h s).turn = w.turn := rfl
@[simp] theorem setPosition_castle (w : Work) (h : Bit) : (setPosition w h s).castle = w.castle := rfl
@[simp] theorem setPosition_epv (w : Work) (h : Bit) : (setPosition w h s).epv = w.epv := rfl
@[simp] theorem setPosition_epsq (w : Work) (h : Bit) : (setPosition w h s).epsq = w.epsq := rfl
@[simp] theorem setPosition_hmc (w : Work) (h : Bit) : (setPosition w h s).hmc = joinHmc h w.hLo := rfl
@[simp] theorem setPosition_fmn (w : Work) (h : Bit) : (setPosition w h s).fmn = joinFmn w.fHi w.fLo := rfl
@[simp] theorem setPosition_mto (w : Work) (h : Bit) : (setPosition w h s).mto = s.mto := rfl
@[simp] theorem setPosition_mfrom (w : Work) (h : Bit) : (setPosition w h s).mfrom = s.mfrom := rfl
@[simp] theorem setPosition_mpromo (w : Work) (h : Bit) : (setPosition w h s).mpromo = s.mpromo := rfl
@[simp] theorem setPosition_mspecial (w : Work) (h : Bit) : (setPosition w h s).mspecial = s.mspecial := rfl
@[simp] theorem setPosition_score (w : Work) (h : Bit) : (setPosition w h s).score = s.score := rfl
@[simp] theorem setPosition_movew (w : Work) (h : Bit) : (setPosition w h s).movew = s.movew := rfl
@[simp] theorem setPosition_ply (w : Work) (h : Bit) : (setPosition w h s).ply = s.ply := rfl
@[simp] theorem setPosition_result (w : Work) (h : Bit) : (setPosition w h s).result = s.result := rfl
@[simp] theorem setPosition_raw (w : Work) (h : Bit) : (setPosition w h s).raw = s.raw := rfl
@[simp] theorem setPosition_fsize (w : Work) (h : Bit) : (setPosition w h s).fsize = s.fsize := rfl
@[simp] theorem setPosition_soff (w : Work) (h : Bit) : (setPosition w h s).soff = s.soff := rfl
@[simp] theorem setPosition_count (w : Work) (h : Bit) : (setPosition w h s).count = s.count := rfl
@[simp] theorem setPosition_rp (w : Work) (h : Bit) : (setPosition w h s).rp = s.rp := rfl
@[simp] theorem setPosition_opn (w : Work) (h : Bit) : (setPosition w h s).opn = s.opn := rfl
@[simp] theorem setPosition_err (w : Work) (h : Bit) : (setPosition w h s).err = s.err := rfl
@[simp] theorem setPosition_work (w : Work) (h : Bit) : (setPosition w h s).work = s.work := rfl
@[simp] theorem setPosition_stream (w : Work) (h : Bit) : (setPosition w h s).stream = s.stream := rfl
@[simp] theorem setPosition_inbox (w : Work) (h : Bit) : (setPosition w h s).inbox = s.inbox := rfl
@[simp] theorem setPosition_resp (w : Work) (h : Bit) : (setPosition w h s).resp = s.resp := rfl
@[simp] theorem setPosition_refusedSeen (w : Work) (h : Bit) : (setPosition w h s).refusedSeen = s.refusedSeen := rfl
@[simp] theorem setPosition_written (w : Work) (h : Bit) : (setPosition w h s).written = { s.written with position := true } := rfl

/-! ### setWork -/

@[simp] theorem setWork_buf (w : Work) : (setWork w s).buf = s.buf := rfl
@[simp] theorem setWork_len (w : Work) : (setWork w s).len = s.len := rfl
@[simp] theorem setWork_pos (w : Work) : (setWork w s).pos = s.pos := rfl
@[simp] theorem setWork_val (w : Work) : (setWork w s).val = s.val := rfl
@[simp] theorem setWork_pk (w : Work) : (setWork w s).pk = s.pk := rfl
@[simp] theorem setWork_pcol (w : Work) : (setWork w s).pcol = s.pcol := rfl
@[simp] theorem setWork_board (w : Work) : (setWork w s).board = s.board := rfl
@[simp] theorem setWork_turn (w : Work) : (setWork w s).turn = s.turn := rfl
@[simp] theorem setWork_castle (w : Work) : (setWork w s).castle = s.castle := rfl
@[simp] theorem setWork_epv (w : Work) : (setWork w s).epv = s.epv := rfl
@[simp] theorem setWork_epsq (w : Work) : (setWork w s).epsq = s.epsq := rfl
@[simp] theorem setWork_hmc (w : Work) : (setWork w s).hmc = s.hmc := rfl
@[simp] theorem setWork_fmn (w : Work) : (setWork w s).fmn = s.fmn := rfl
@[simp] theorem setWork_mto (w : Work) : (setWork w s).mto = s.mto := rfl
@[simp] theorem setWork_mfrom (w : Work) : (setWork w s).mfrom = s.mfrom := rfl
@[simp] theorem setWork_mpromo (w : Work) : (setWork w s).mpromo = s.mpromo := rfl
@[simp] theorem setWork_mspecial (w : Work) : (setWork w s).mspecial = s.mspecial := rfl
@[simp] theorem setWork_score (w : Work) : (setWork w s).score = s.score := rfl
@[simp] theorem setWork_movew (w : Work) : (setWork w s).movew = s.movew := rfl
@[simp] theorem setWork_ply (w : Work) : (setWork w s).ply = s.ply := rfl
@[simp] theorem setWork_result (w : Work) : (setWork w s).result = s.result := rfl
@[simp] theorem setWork_raw (w : Work) : (setWork w s).raw = s.raw := rfl
@[simp] theorem setWork_fsize (w : Work) : (setWork w s).fsize = s.fsize := rfl
@[simp] theorem setWork_soff (w : Work) : (setWork w s).soff = s.soff := rfl
@[simp] theorem setWork_count (w : Work) : (setWork w s).count = s.count := rfl
@[simp] theorem setWork_rp (w : Work) : (setWork w s).rp = s.rp := rfl
@[simp] theorem setWork_opn (w : Work) : (setWork w s).opn = s.opn := rfl
@[simp] theorem setWork_err (w : Work) : (setWork w s).err = s.err := rfl
@[simp] theorem setWork_work (w : Work) : (setWork w s).work = w := rfl
@[simp] theorem setWork_stream (w : Work) : (setWork w s).stream = s.stream := rfl
@[simp] theorem setWork_inbox (w : Work) : (setWork w s).inbox = s.inbox := rfl
@[simp] theorem setWork_resp (w : Work) : (setWork w s).resp = s.resp := rfl
@[simp] theorem setWork_refusedSeen (w : Work) : (setWork w s).refusedSeen = s.refusedSeen := rfl
@[simp] theorem setWork_written (w : Work) : (setWork w s).written = s.written := rfl

/-! ### setMove -/

@[simp] theorem setMove_buf (m : Move) : (setMove m s).buf = s.buf := rfl
@[simp] theorem setMove_len (m : Move) : (setMove m s).len = s.len := rfl
@[simp] theorem setMove_pos (m : Move) : (setMove m s).pos = s.pos := rfl
@[simp] theorem setMove_val (m : Move) : (setMove m s).val = s.val := rfl
@[simp] theorem setMove_pk (m : Move) : (setMove m s).pk = s.pk := rfl
@[simp] theorem setMove_pcol (m : Move) : (setMove m s).pcol = s.pcol := rfl
@[simp] theorem setMove_board (m : Move) : (setMove m s).board = s.board := rfl
@[simp] theorem setMove_turn (m : Move) : (setMove m s).turn = s.turn := rfl
@[simp] theorem setMove_castle (m : Move) : (setMove m s).castle = s.castle := rfl
@[simp] theorem setMove_epv (m : Move) : (setMove m s).epv = s.epv := rfl
@[simp] theorem setMove_epsq (m : Move) : (setMove m s).epsq = s.epsq := rfl
@[simp] theorem setMove_hmc (m : Move) : (setMove m s).hmc = s.hmc := rfl
@[simp] theorem setMove_fmn (m : Move) : (setMove m s).fmn = s.fmn := rfl
@[simp] theorem setMove_mto (m : Move) : (setMove m s).mto = m.dest := rfl
@[simp] theorem setMove_mfrom (m : Move) : (setMove m s).mfrom = m.orig := rfl
@[simp] theorem setMove_mpromo (m : Move) : (setMove m s).mpromo = m.promo := rfl
@[simp] theorem setMove_mspecial (m : Move) : (setMove m s).mspecial = m.special := rfl
@[simp] theorem setMove_score (m : Move) : (setMove m s).score = s.score := rfl
@[simp] theorem setMove_movew (m : Move) : (setMove m s).movew = s.movew := rfl
@[simp] theorem setMove_ply (m : Move) : (setMove m s).ply = s.ply := rfl
@[simp] theorem setMove_result (m : Move) : (setMove m s).result = s.result := rfl
@[simp] theorem setMove_raw (m : Move) : (setMove m s).raw = s.raw := rfl
@[simp] theorem setMove_fsize (m : Move) : (setMove m s).fsize = s.fsize := rfl
@[simp] theorem setMove_soff (m : Move) : (setMove m s).soff = s.soff := rfl
@[simp] theorem setMove_count (m : Move) : (setMove m s).count = s.count := rfl
@[simp] theorem setMove_rp (m : Move) : (setMove m s).rp = s.rp := rfl
@[simp] theorem setMove_opn (m : Move) : (setMove m s).opn = s.opn := rfl
@[simp] theorem setMove_err (m : Move) : (setMove m s).err = s.err := rfl
@[simp] theorem setMove_work (m : Move) : (setMove m s).work = s.work := rfl
@[simp] theorem setMove_stream (m : Move) : (setMove m s).stream = s.stream := rfl
@[simp] theorem setMove_inbox (m : Move) : (setMove m s).inbox = s.inbox := rfl
@[simp] theorem setMove_resp (m : Move) : (setMove m s).resp = s.resp := rfl
@[simp] theorem setMove_refusedSeen (m : Move) : (setMove m s).refusedSeen = s.refusedSeen := rfl
@[simp] theorem setMove_written (m : Move) : (setMove m s).written = { s.written with move := true } := rfl

/-! ### setScore -/

@[simp] theorem setScore_buf (v : Half) : (setScore v s).buf = s.buf := rfl
@[simp] theorem setScore_len (v : Half) : (setScore v s).len = s.len := rfl
@[simp] theorem setScore_pos (v : Half) : (setScore v s).pos = s.pos := rfl
@[simp] theorem setScore_val (v : Half) : (setScore v s).val = s.val := rfl
@[simp] theorem setScore_pk (v : Half) : (setScore v s).pk = s.pk := rfl
@[simp] theorem setScore_pcol (v : Half) : (setScore v s).pcol = s.pcol := rfl
@[simp] theorem setScore_board (v : Half) : (setScore v s).board = s.board := rfl
@[simp] theorem setScore_turn (v : Half) : (setScore v s).turn = s.turn := rfl
@[simp] theorem setScore_castle (v : Half) : (setScore v s).castle = s.castle := rfl
@[simp] theorem setScore_epv (v : Half) : (setScore v s).epv = s.epv := rfl
@[simp] theorem setScore_epsq (v : Half) : (setScore v s).epsq = s.epsq := rfl
@[simp] theorem setScore_hmc (v : Half) : (setScore v s).hmc = s.hmc := rfl
@[simp] theorem setScore_fmn (v : Half) : (setScore v s).fmn = s.fmn := rfl
@[simp] theorem setScore_mto (v : Half) : (setScore v s).mto = s.mto := rfl
@[simp] theorem setScore_mfrom (v : Half) : (setScore v s).mfrom = s.mfrom := rfl
@[simp] theorem setScore_mpromo (v : Half) : (setScore v s).mpromo = s.mpromo := rfl
@[simp] theorem setScore_mspecial (v : Half) : (setScore v s).mspecial = s.mspecial := rfl
@[simp] theorem setScore_score (v : Half) : (setScore v s).score = v := rfl
@[simp] theorem setScore_movew (v : Half) : (setScore v s).movew = s.movew := rfl
@[simp] theorem setScore_ply (v : Half) : (setScore v s).ply = s.ply := rfl
@[simp] theorem setScore_result (v : Half) : (setScore v s).result = s.result := rfl
@[simp] theorem setScore_raw (v : Half) : (setScore v s).raw = s.raw := rfl
@[simp] theorem setScore_fsize (v : Half) : (setScore v s).fsize = s.fsize := rfl
@[simp] theorem setScore_soff (v : Half) : (setScore v s).soff = s.soff := rfl
@[simp] theorem setScore_count (v : Half) : (setScore v s).count = s.count := rfl
@[simp] theorem setScore_rp (v : Half) : (setScore v s).rp = s.rp := rfl
@[simp] theorem setScore_opn (v : Half) : (setScore v s).opn = s.opn := rfl
@[simp] theorem setScore_err (v : Half) : (setScore v s).err = s.err := rfl
@[simp] theorem setScore_work (v : Half) : (setScore v s).work = s.work := rfl
@[simp] theorem setScore_stream (v : Half) : (setScore v s).stream = s.stream := rfl
@[simp] theorem setScore_inbox (v : Half) : (setScore v s).inbox = s.inbox := rfl
@[simp] theorem setScore_resp (v : Half) : (setScore v s).resp = s.resp := rfl
@[simp] theorem setScore_refusedSeen (v : Half) : (setScore v s).refusedSeen = s.refusedSeen := rfl
@[simp] theorem setScore_written (v : Half) : (setScore v s).written = { s.written with score := true } := rfl

/-! ### setMovew -/

@[simp] theorem setMovew_buf (v : Half) : (setMovew v s).buf = s.buf := rfl
@[simp] theorem setMovew_len (v : Half) : (setMovew v s).len = s.len := rfl
@[simp] theorem setMovew_pos (v : Half) : (setMovew v s).pos = s.pos := rfl
@[simp] theorem setMovew_val (v : Half) : (setMovew v s).val = s.val := rfl
@[simp] theorem setMovew_pk (v : Half) : (setMovew v s).pk = s.pk := rfl
@[simp] theorem setMovew_pcol (v : Half) : (setMovew v s).pcol = s.pcol := rfl
@[simp] theorem setMovew_board (v : Half) : (setMovew v s).board = s.board := rfl
@[simp] theorem setMovew_turn (v : Half) : (setMovew v s).turn = s.turn := rfl
@[simp] theorem setMovew_castle (v : Half) : (setMovew v s).castle = s.castle := rfl
@[simp] theorem setMovew_epv (v : Half) : (setMovew v s).epv = s.epv := rfl
@[simp] theorem setMovew_epsq (v : Half) : (setMovew v s).epsq = s.epsq := rfl
@[simp] theorem setMovew_hmc (v : Half) : (setMovew v s).hmc = s.hmc := rfl
@[simp] theorem setMovew_fmn (v : Half) : (setMovew v s).fmn = s.fmn := rfl
@[simp] theorem setMovew_mto (v : Half) : (setMovew v s).mto = s.mto := rfl
@[simp] theorem setMovew_mfrom (v : Half) : (setMovew v s).mfrom = s.mfrom := rfl
@[simp] theorem setMovew_mpromo (v : Half) : (setMovew v s).mpromo = s.mpromo := rfl
@[simp] theorem setMovew_mspecial (v : Half) : (setMovew v s).mspecial = s.mspecial := rfl
@[simp] theorem setMovew_score (v : Half) : (setMovew v s).score = s.score := rfl
@[simp] theorem setMovew_movew (v : Half) : (setMovew v s).movew = v := rfl
@[simp] theorem setMovew_ply (v : Half) : (setMovew v s).ply = s.ply := rfl
@[simp] theorem setMovew_result (v : Half) : (setMovew v s).result = s.result := rfl
@[simp] theorem setMovew_raw (v : Half) : (setMovew v s).raw = s.raw := rfl
@[simp] theorem setMovew_fsize (v : Half) : (setMovew v s).fsize = s.fsize := rfl
@[simp] theorem setMovew_soff (v : Half) : (setMovew v s).soff = s.soff := rfl
@[simp] theorem setMovew_count (v : Half) : (setMovew v s).count = s.count := rfl
@[simp] theorem setMovew_rp (v : Half) : (setMovew v s).rp = s.rp := rfl
@[simp] theorem setMovew_opn (v : Half) : (setMovew v s).opn = s.opn := rfl
@[simp] theorem setMovew_err (v : Half) : (setMovew v s).err = s.err := rfl
@[simp] theorem setMovew_work (v : Half) : (setMovew v s).work = s.work := rfl
@[simp] theorem setMovew_stream (v : Half) : (setMovew v s).stream = s.stream := rfl
@[simp] theorem setMovew_inbox (v : Half) : (setMovew v s).inbox = s.inbox := rfl
@[simp] theorem setMovew_resp (v : Half) : (setMovew v s).resp = s.resp := rfl
@[simp] theorem setMovew_refusedSeen (v : Half) : (setMovew v s).refusedSeen = s.refusedSeen := rfl
@[simp] theorem setMovew_written (v : Half) : (setMovew v s).written = { s.written with movew := true } := rfl

/-! ### setPly -/

@[simp] theorem setPly_buf (v : Half) : (setPly v s).buf = s.buf := rfl
@[simp] theorem setPly_len (v : Half) : (setPly v s).len = s.len := rfl
@[simp] theorem setPly_pos (v : Half) : (setPly v s).pos = s.pos := rfl
@[simp] theorem setPly_val (v : Half) : (setPly v s).val = s.val := rfl
@[simp] theorem setPly_pk (v : Half) : (setPly v s).pk = s.pk := rfl
@[simp] theorem setPly_pcol (v : Half) : (setPly v s).pcol = s.pcol := rfl
@[simp] theorem setPly_board (v : Half) : (setPly v s).board = s.board := rfl
@[simp] theorem setPly_turn (v : Half) : (setPly v s).turn = s.turn := rfl
@[simp] theorem setPly_castle (v : Half) : (setPly v s).castle = s.castle := rfl
@[simp] theorem setPly_epv (v : Half) : (setPly v s).epv = s.epv := rfl
@[simp] theorem setPly_epsq (v : Half) : (setPly v s).epsq = s.epsq := rfl
@[simp] theorem setPly_hmc (v : Half) : (setPly v s).hmc = s.hmc := rfl
@[simp] theorem setPly_fmn (v : Half) : (setPly v s).fmn = s.fmn := rfl
@[simp] theorem setPly_mto (v : Half) : (setPly v s).mto = s.mto := rfl
@[simp] theorem setPly_mfrom (v : Half) : (setPly v s).mfrom = s.mfrom := rfl
@[simp] theorem setPly_mpromo (v : Half) : (setPly v s).mpromo = s.mpromo := rfl
@[simp] theorem setPly_mspecial (v : Half) : (setPly v s).mspecial = s.mspecial := rfl
@[simp] theorem setPly_score (v : Half) : (setPly v s).score = s.score := rfl
@[simp] theorem setPly_movew (v : Half) : (setPly v s).movew = s.movew := rfl
@[simp] theorem setPly_ply (v : Half) : (setPly v s).ply = v := rfl
@[simp] theorem setPly_result (v : Half) : (setPly v s).result = s.result := rfl
@[simp] theorem setPly_raw (v : Half) : (setPly v s).raw = s.raw := rfl
@[simp] theorem setPly_fsize (v : Half) : (setPly v s).fsize = s.fsize := rfl
@[simp] theorem setPly_soff (v : Half) : (setPly v s).soff = s.soff := rfl
@[simp] theorem setPly_count (v : Half) : (setPly v s).count = s.count := rfl
@[simp] theorem setPly_rp (v : Half) : (setPly v s).rp = s.rp := rfl
@[simp] theorem setPly_opn (v : Half) : (setPly v s).opn = s.opn := rfl
@[simp] theorem setPly_err (v : Half) : (setPly v s).err = s.err := rfl
@[simp] theorem setPly_work (v : Half) : (setPly v s).work = s.work := rfl
@[simp] theorem setPly_stream (v : Half) : (setPly v s).stream = s.stream := rfl
@[simp] theorem setPly_inbox (v : Half) : (setPly v s).inbox = s.inbox := rfl
@[simp] theorem setPly_resp (v : Half) : (setPly v s).resp = s.resp := rfl
@[simp] theorem setPly_refusedSeen (v : Half) : (setPly v s).refusedSeen = s.refusedSeen := rfl
@[simp] theorem setPly_written (v : Half) : (setPly v s).written = { s.written with ply := true } := rfl

/-! ### setResult -/

@[simp] theorem setResult_buf (v : Byte) : (setResult v s).buf = s.buf := rfl
@[simp] theorem setResult_len (v : Byte) : (setResult v s).len = s.len := rfl
@[simp] theorem setResult_pos (v : Byte) : (setResult v s).pos = s.pos := rfl
@[simp] theorem setResult_val (v : Byte) : (setResult v s).val = s.val := rfl
@[simp] theorem setResult_pk (v : Byte) : (setResult v s).pk = s.pk := rfl
@[simp] theorem setResult_pcol (v : Byte) : (setResult v s).pcol = s.pcol := rfl
@[simp] theorem setResult_board (v : Byte) : (setResult v s).board = s.board := rfl
@[simp] theorem setResult_turn (v : Byte) : (setResult v s).turn = s.turn := rfl
@[simp] theorem setResult_castle (v : Byte) : (setResult v s).castle = s.castle := rfl
@[simp] theorem setResult_epv (v : Byte) : (setResult v s).epv = s.epv := rfl
@[simp] theorem setResult_epsq (v : Byte) : (setResult v s).epsq = s.epsq := rfl
@[simp] theorem setResult_hmc (v : Byte) : (setResult v s).hmc = s.hmc := rfl
@[simp] theorem setResult_fmn (v : Byte) : (setResult v s).fmn = s.fmn := rfl
@[simp] theorem setResult_mto (v : Byte) : (setResult v s).mto = s.mto := rfl
@[simp] theorem setResult_mfrom (v : Byte) : (setResult v s).mfrom = s.mfrom := rfl
@[simp] theorem setResult_mpromo (v : Byte) : (setResult v s).mpromo = s.mpromo := rfl
@[simp] theorem setResult_mspecial (v : Byte) : (setResult v s).mspecial = s.mspecial := rfl
@[simp] theorem setResult_score (v : Byte) : (setResult v s).score = s.score := rfl
@[simp] theorem setResult_movew (v : Byte) : (setResult v s).movew = s.movew := rfl
@[simp] theorem setResult_ply (v : Byte) : (setResult v s).ply = s.ply := rfl
@[simp] theorem setResult_result (v : Byte) : (setResult v s).result = v := rfl
@[simp] theorem setResult_raw (v : Byte) : (setResult v s).raw = s.raw := rfl
@[simp] theorem setResult_fsize (v : Byte) : (setResult v s).fsize = s.fsize := rfl
@[simp] theorem setResult_soff (v : Byte) : (setResult v s).soff = s.soff := rfl
@[simp] theorem setResult_count (v : Byte) : (setResult v s).count = s.count := rfl
@[simp] theorem setResult_rp (v : Byte) : (setResult v s).rp = s.rp := rfl
@[simp] theorem setResult_opn (v : Byte) : (setResult v s).opn = s.opn := rfl
@[simp] theorem setResult_err (v : Byte) : (setResult v s).err = s.err := rfl
@[simp] theorem setResult_work (v : Byte) : (setResult v s).work = s.work := rfl
@[simp] theorem setResult_stream (v : Byte) : (setResult v s).stream = s.stream := rfl
@[simp] theorem setResult_inbox (v : Byte) : (setResult v s).inbox = s.inbox := rfl
@[simp] theorem setResult_resp (v : Byte) : (setResult v s).resp = s.resp := rfl
@[simp] theorem setResult_refusedSeen (v : Byte) : (setResult v s).refusedSeen = s.refusedSeen := rfl
@[simp] theorem setResult_written (v : Byte) : (setResult v s).written = { s.written with result := true } := rfl

/-! ### setRaw -/

@[simp] theorem setRaw_buf (bs : List Byte) : (setRaw bs s).buf = s.buf := rfl
@[simp] theorem setRaw_len (bs : List Byte) : (setRaw bs s).len = s.len := rfl
@[simp] theorem setRaw_pos (bs : List Byte) : (setRaw bs s).pos = s.pos := rfl
@[simp] theorem setRaw_val (bs : List Byte) : (setRaw bs s).val = s.val := rfl
@[simp] theorem setRaw_pk (bs : List Byte) : (setRaw bs s).pk = s.pk := rfl
@[simp] theorem setRaw_pcol (bs : List Byte) : (setRaw bs s).pcol = s.pcol := rfl
@[simp] theorem setRaw_board (bs : List Byte) : (setRaw bs s).board = s.board := rfl
@[simp] theorem setRaw_turn (bs : List Byte) : (setRaw bs s).turn = s.turn := rfl
@[simp] theorem setRaw_castle (bs : List Byte) : (setRaw bs s).castle = s.castle := rfl
@[simp] theorem setRaw_epv (bs : List Byte) : (setRaw bs s).epv = s.epv := rfl
@[simp] theorem setRaw_epsq (bs : List Byte) : (setRaw bs s).epsq = s.epsq := rfl
@[simp] theorem setRaw_hmc (bs : List Byte) : (setRaw bs s).hmc = s.hmc := rfl
@[simp] theorem setRaw_fmn (bs : List Byte) : (setRaw bs s).fmn = s.fmn := rfl
@[simp] theorem setRaw_mto (bs : List Byte) : (setRaw bs s).mto = s.mto := rfl
@[simp] theorem setRaw_mfrom (bs : List Byte) : (setRaw bs s).mfrom = s.mfrom := rfl
@[simp] theorem setRaw_mpromo (bs : List Byte) : (setRaw bs s).mpromo = s.mpromo := rfl
@[simp] theorem setRaw_mspecial (bs : List Byte) : (setRaw bs s).mspecial = s.mspecial := rfl
@[simp] theorem setRaw_score (bs : List Byte) : (setRaw bs s).score = s.score := rfl
@[simp] theorem setRaw_movew (bs : List Byte) : (setRaw bs s).movew = s.movew := rfl
@[simp] theorem setRaw_ply (bs : List Byte) : (setRaw bs s).ply = s.ply := rfl
@[simp] theorem setRaw_result (bs : List Byte) : (setRaw bs s).result = s.result := rfl
@[simp] theorem setRaw_raw (bs : List Byte) : (setRaw bs s).raw = fillBytes s.raw 0 bs := rfl
@[simp] theorem setRaw_fsize (bs : List Byte) : (setRaw bs s).fsize = s.fsize := rfl
@[simp] theorem setRaw_soff (bs : List Byte) : (setRaw bs s).soff = s.soff := rfl
@[simp] theorem setRaw_count (bs : List Byte) : (setRaw bs s).count = s.count := rfl
@[simp] theorem setRaw_rp (bs : List Byte) : (setRaw bs s).rp = s.rp := rfl
@[simp] theorem setRaw_opn (bs : List Byte) : (setRaw bs s).opn = s.opn := rfl
@[simp] theorem setRaw_err (bs : List Byte) : (setRaw bs s).err = s.err := rfl
@[simp] theorem setRaw_work (bs : List Byte) : (setRaw bs s).work = s.work := rfl
@[simp] theorem setRaw_stream (bs : List Byte) : (setRaw bs s).stream = s.stream := rfl
@[simp] theorem setRaw_inbox (bs : List Byte) : (setRaw bs s).inbox = s.inbox := rfl
@[simp] theorem setRaw_resp (bs : List Byte) : (setRaw bs s).resp = s.resp := rfl
@[simp] theorem setRaw_refusedSeen (bs : List Byte) : (setRaw bs s).refusedSeen = s.refusedSeen := rfl
@[simp] theorem setRaw_written (bs : List Byte) : (setRaw bs s).written = { s.written with raw := true } := rfl

/-! ### setReader -/

@[simp] theorem setReader_buf (n a : Nat) : (setReader n a s).buf = s.buf := rfl
@[simp] theorem setReader_len (n a : Nat) : (setReader n a s).len = s.len := rfl
@[simp] theorem setReader_pos (n a : Nat) : (setReader n a s).pos = s.pos := rfl
@[simp] theorem setReader_val (n a : Nat) : (setReader n a s).val = s.val := rfl
@[simp] theorem setReader_pk (n a : Nat) : (setReader n a s).pk = s.pk := rfl
@[simp] theorem setReader_pcol (n a : Nat) : (setReader n a s).pcol = s.pcol := rfl
@[simp] theorem setReader_board (n a : Nat) : (setReader n a s).board = s.board := rfl
@[simp] theorem setReader_turn (n a : Nat) : (setReader n a s).turn = s.turn := rfl
@[simp] theorem setReader_castle (n a : Nat) : (setReader n a s).castle = s.castle := rfl
@[simp] theorem setReader_epv (n a : Nat) : (setReader n a s).epv = s.epv := rfl
@[simp] theorem setReader_epsq (n a : Nat) : (setReader n a s).epsq = s.epsq := rfl
@[simp] theorem setReader_hmc (n a : Nat) : (setReader n a s).hmc = s.hmc := rfl
@[simp] theorem setReader_fmn (n a : Nat) : (setReader n a s).fmn = s.fmn := rfl
@[simp] theorem setReader_mto (n a : Nat) : (setReader n a s).mto = s.mto := rfl
@[simp] theorem setReader_mfrom (n a : Nat) : (setReader n a s).mfrom = s.mfrom := rfl
@[simp] theorem setReader_mpromo (n a : Nat) : (setReader n a s).mpromo = s.mpromo := rfl
@[simp] theorem setReader_mspecial (n a : Nat) : (setReader n a s).mspecial = s.mspecial := rfl
@[simp] theorem setReader_score (n a : Nat) : (setReader n a s).score = s.score := rfl
@[simp] theorem setReader_movew (n a : Nat) : (setReader n a s).movew = s.movew := rfl
@[simp] theorem setReader_ply (n a : Nat) : (setReader n a s).ply = s.ply := rfl
@[simp] theorem setReader_result (n a : Nat) : (setReader n a s).result = s.result := rfl
@[simp] theorem setReader_raw (n a : Nat) : (setReader n a s).raw = s.raw := rfl
@[simp] theorem setReader_fsize (n a : Nat) : (setReader n a s).fsize = n := rfl
@[simp] theorem setReader_soff (n a : Nat) : (setReader n a s).soff = a := rfl
@[simp] theorem setReader_count (n a : Nat) : (setReader n a s).count = n / Config.recBytes := rfl
@[simp] theorem setReader_rp (n a : Nat) : (setReader n a s).rp = a := rfl
@[simp] theorem setReader_opn (n a : Nat) : (setReader n a s).opn = 1 := rfl
@[simp] theorem setReader_err (n a : Nat) : (setReader n a s).err = s.err := rfl
@[simp] theorem setReader_work (n a : Nat) : (setReader n a s).work = s.work := rfl
@[simp] theorem setReader_stream (n a : Nat) : (setReader n a s).stream = s.stream := rfl
@[simp] theorem setReader_inbox (n a : Nat) : (setReader n a s).inbox = s.inbox := rfl
@[simp] theorem setReader_resp (n a : Nat) : (setReader n a s).resp = s.resp := rfl
@[simp] theorem setReader_refusedSeen (n a : Nat) : (setReader n a s).refusedSeen = s.refusedSeen := rfl
@[simp] theorem setReader_written (n a : Nat) : (setReader n a s).written = s.written := rfl

/-! ### setRp -/

@[simp] theorem setRp_buf (a : Nat) : (setRp a s).buf = s.buf := rfl
@[simp] theorem setRp_len (a : Nat) : (setRp a s).len = s.len := rfl
@[simp] theorem setRp_pos (a : Nat) : (setRp a s).pos = s.pos := rfl
@[simp] theorem setRp_val (a : Nat) : (setRp a s).val = s.val := rfl
@[simp] theorem setRp_pk (a : Nat) : (setRp a s).pk = s.pk := rfl
@[simp] theorem setRp_pcol (a : Nat) : (setRp a s).pcol = s.pcol := rfl
@[simp] theorem setRp_board (a : Nat) : (setRp a s).board = s.board := rfl
@[simp] theorem setRp_turn (a : Nat) : (setRp a s).turn = s.turn := rfl
@[simp] theorem setRp_castle (a : Nat) : (setRp a s).castle = s.castle := rfl
@[simp] theorem setRp_epv (a : Nat) : (setRp a s).epv = s.epv := rfl
@[simp] theorem setRp_epsq (a : Nat) : (setRp a s).epsq = s.epsq := rfl
@[simp] theorem setRp_hmc (a : Nat) : (setRp a s).hmc = s.hmc := rfl
@[simp] theorem setRp_fmn (a : Nat) : (setRp a s).fmn = s.fmn := rfl
@[simp] theorem setRp_mto (a : Nat) : (setRp a s).mto = s.mto := rfl
@[simp] theorem setRp_mfrom (a : Nat) : (setRp a s).mfrom = s.mfrom := rfl
@[simp] theorem setRp_mpromo (a : Nat) : (setRp a s).mpromo = s.mpromo := rfl
@[simp] theorem setRp_mspecial (a : Nat) : (setRp a s).mspecial = s.mspecial := rfl
@[simp] theorem setRp_score (a : Nat) : (setRp a s).score = s.score := rfl
@[simp] theorem setRp_movew (a : Nat) : (setRp a s).movew = s.movew := rfl
@[simp] theorem setRp_ply (a : Nat) : (setRp a s).ply = s.ply := rfl
@[simp] theorem setRp_result (a : Nat) : (setRp a s).result = s.result := rfl
@[simp] theorem setRp_raw (a : Nat) : (setRp a s).raw = s.raw := rfl
@[simp] theorem setRp_fsize (a : Nat) : (setRp a s).fsize = s.fsize := rfl
@[simp] theorem setRp_soff (a : Nat) : (setRp a s).soff = s.soff := rfl
@[simp] theorem setRp_count (a : Nat) : (setRp a s).count = s.count := rfl
@[simp] theorem setRp_rp (a : Nat) : (setRp a s).rp = a := rfl
@[simp] theorem setRp_opn (a : Nat) : (setRp a s).opn = s.opn := rfl
@[simp] theorem setRp_err (a : Nat) : (setRp a s).err = s.err := rfl
@[simp] theorem setRp_work (a : Nat) : (setRp a s).work = s.work := rfl
@[simp] theorem setRp_stream (a : Nat) : (setRp a s).stream = s.stream := rfl
@[simp] theorem setRp_inbox (a : Nat) : (setRp a s).inbox = s.inbox := rfl
@[simp] theorem setRp_resp (a : Nat) : (setRp a s).resp = s.resp := rfl
@[simp] theorem setRp_refusedSeen (a : Nat) : (setRp a s).refusedSeen = s.refusedSeen := rfl
@[simp] theorem setRp_written (a : Nat) : (setRp a s).written = s.written := rfl

end Sys2Proof.Machine
end

