-- ==== Sys2Proof/Laws/Ops.lean ====
section
/-! SUPPORT. One lemma for each shared operation that says everything it can do. -/

namespace Sys2Proof.Machine

variable {s t : State} {body : Result}

@[simp] theorem faultFree_iff (s : State) : faultFree s = true ↔ s.err = 0 := by simp [faultFree]

@[simp] theorem isOpen_iff (s : State) : isOpen s = true ↔ s.opn = 1 := by simp [isOpen]

@[simp] theorem lenInRange_iff (len : BitVec 6) : lenInRange len = true ↔ len.toNat ≤ 32 := decide_eq_true_iff

@[simp] theorem widthInRange_iff (n : BitVec 5) : widthInRange n = true ↔ n.toNat ≤ 16 := decide_eq_true_iff

@[simp] theorem hasRoom_iff (n : Nat) (s : State) : hasRoom n s = true ↔ s.pos.toNat + n ≤ 8 * s.len.toNat := by
  simp [hasRoom]

/-- The acceptance test lets a command through when no fault is latched. -/
theorem accepted_free (h : s.err = 0) : accepted s body = body := by simp [accepted, h]

/-- The acceptance test refuses while a fault is latched (60_exceptions.md R169). -/
theorem accepted_latched (h : s.err ≠ 0) : accepted s body = .next (refuse s) :=
  if_neg (by simpa using h)

/-- Everything `accepted` can answer as a next state. -/
theorem accepted_next (h : accepted s body = .next t) : (s.err ≠ 0 ∧ t = refuse s) ∨ (s.err = 0 ∧ body = .next t) := by
  by_cases he : s.err = 0
  · rw [accepted_free he] at h; exact .inr ⟨he, h⟩
  · rw [accepted_latched he] at h
    exact .inl ⟨he, by injection h with h; exact h.symm⟩

theorem opened_open (h : s.err = 0) (ho : s.opn = 1) : opened s body = body := by simp [opened, accepted_free h, ho]

/-- Everything `opened` can answer as a next state. -/
theorem opened_next (h : opened s body = .next t) :
    ((s.err ≠ 0 ∨ s.opn ≠ 1) ∧ t = refuse s) ∨ (s.err = 0 ∧ s.opn = 1 ∧ body = .next t) := by
  rcases accepted_next h with ⟨he, ht⟩ | ⟨he, hb⟩
  · exact .inl ⟨.inl he, ht⟩
  · split at hb
    · rename_i ho; exact .inr ⟨he, (isOpen_iff s).1 ho, hb⟩
    · rename_i ho; injection hb with hb; exact .inl ⟨.inr (by simpa using ho), hb.symm⟩

/-- Everything a stream read can go on to as a next state. -/
theorem withBytes_next {m : MemResult} {k : List Byte → Result} (h : withBytes m s k = .next t) :
    (∃ bs, m = .bytes bs ∧ k bs = .next t) ∨ (m = .truncated ∧ t = takeFault .truncatedRecord s) := by
  cases m with
  | bytes bs => exact .inl ⟨bs, rfl, h⟩
  | truncated => simp only [withBytes, raiseFault] at h; injection h with h; exact .inr ⟨rfl, h.symm⟩
  | absent => simp [withBytes] at h

/-- Everything a symbol at the cursor can answer as a next state. -/
theorem consumeSymbol_next {n : Nat} {e : State → State} (h : consumeSymbol n e s = .next t) :
    (s.err ≠ 0 ∧ t = refuse s) ∨
    (s.err = 0 ∧ s.pos.toNat + n ≤ 8 * s.len.toNat ∧ t = answer .ok (e (setPos (s.pos.toNat + n) s))) ∨
    (s.err = 0 ∧ ¬ s.pos.toNat + n ≤ 8 * s.len.toNat ∧ t = takeFault .truncatedRecord s) := by
  rcases accepted_next h with ht | ⟨he, hb⟩
  · exact .inl ht
  · split at hb
    · rename_i hr; simp only [complete] at hb; injection hb with hb
      exact .inr (.inl ⟨he, (hasRoom_iff n s).1 hr, hb.symm⟩)
    · rename_i hr; simp only [raiseFault] at hb; injection hb with hb
      exact .inr (.inr ⟨he, by simpa using hr, hb.symm⟩)

theorem consumeSymbol_room {n : Nat} {e : State → State} (h : s.err = 0) (hr : s.pos.toNat + n ≤ 8 * s.len.toNat) :
    consumeSymbol n e s = .next (answer .ok (e (setPos (s.pos.toNat + n) s))) := by
  simp [consumeSymbol, accepted_free h, hr, complete]

theorem consumeSymbol_short {n : Nat} {e : State → State} (h : s.err = 0)
    (hr : ¬ s.pos.toNat + n ≤ 8 * s.len.toNat) : consumeSymbol n e s = .next (takeFault .truncatedRecord s) := by
  simp [consumeSymbol, accepted_free h, hr, raiseFault]

/-- Everything an unassigned code at the cursor can answer: it never completes. -/
theorem rejectCode_next (h : rejectCode s = .next t) :
    (s.err ≠ 0 ∧ t = refuse s) ∨
    (s.err = 0 ∧ s.pos.toNat + 4 ≤ 8 * s.len.toNat ∧ t = takeFault .corruptEncoding s) ∨
    (s.err = 0 ∧ ¬ s.pos.toNat + 4 ≤ 8 * s.len.toNat ∧ t = takeFault .truncatedRecord s) := by
  rcases accepted_next h with ht | ⟨he, hb⟩
  · exact .inl ht
  · split at hb <;> rename_i hr <;> simp only [raiseFault] at hb <;> injection hb with hb
    · exact .inr (.inl ⟨he, by simpa using hr, hb.symm⟩)
    · exact .inr (.inr ⟨he, by simpa using hr, hb.symm⟩)

/-- Everything the extraction of a record field can answer as a next state. -/
theorem extractField_next {f : RecField} (h : extractField f s body = .next t) :
    ((s.err ≠ 0 ∨ s.opn ≠ 1) ∧ t = refuse s) ∨
    (s.err = 0 ∧ s.opn = 1 ∧ s.rp + recOffset f + recSize f ≤ s.fsize ∧ body = .next t) ∨
    (s.err = 0 ∧ s.opn = 1 ∧ ¬ s.rp + recOffset f + recSize f ≤ s.fsize ∧ t = takeFault .truncatedRecord s) := by
  rcases opened_next h with ht | ⟨he, ho, hb⟩
  · exact .inl ht
  · split at hb <;> rename_i hr
    · simp only [raiseFault] at hb; injection hb with hb
      exact .inr (.inr ⟨he, ho, Nat.not_le.2 hr, hb.symm⟩)
    · exact .inr (.inl ⟨he, ho, Nat.not_lt.1 hr, hb⟩)

end Sys2Proof.Machine
end

