-- ==== Sys2Proof/Laws/Rows.lean ====
section
/-! SUPPORT. The encoder, the formats and the well-formedness check, one lemma per row, each true by rfl. -/

namespace Sys2Proof

@[simp] theorem encode_errClr : encode .errClr = encodeOp 0x0 := rfl
@[simp] theorem encode_curAttach (len : BitVec 6) (data : List Byte) : encode (.curAttach len data) = encodeOp 0x1 ++ bitsOf len ++ bitsOfBytes data := rfl
@[simp] theorem encode_curRdbit : encode .curRdbit = encodeOp 0x2 := rfl
@[simp] theorem encode_curRdbits (n : BitVec 5) : encode (.curRdbits n) = encodeOp 0x3 ++ bitsOf n := rfl
@[simp] theorem encode_pieceDec : encode .pieceDec = encodeOp 0x4 := rfl
@[simp] theorem encode_posDec (len : BitVec 6) (data : List Byte) : encode (.posDec len data) = encodeOp 0x5 ++ bitsOf len ++ bitsOfBytes data := rfl
@[simp] theorem encode_moveDec (w : Half) : encode (.moveDec w) = encodeOp 0x6 ++ bitsOf w := rfl
@[simp] theorem encode_reserved7 : encode .reserved7 = encodeOp 0x7 := rfl
@[simp] theorem encode_recOpen (soff : Nat) : encode (.recOpen soff) = encodeOp 0x8 ++ bitsOfNat (soff.log2 + 1) soff := rfl
@[simp] theorem encode_recRead : encode .recRead = encodeOp 0x9 := rfl
@[simp] theorem encode_recRaw : encode .recRaw = encodeOp 0xA := rfl
@[simp] theorem encode_recCount : encode .recCount = encodeOp 0xB := rfl
@[simp] theorem encode_reservedC : encode .reservedC = encodeOp 0xC := rfl
@[simp] theorem encode_reservedD : encode .reservedD = encodeOp 0xD := rfl
@[simp] theorem encode_reservedE : encode .reservedE = encodeOp 0xE := rfl
@[simp] theorem encode_reservedF : encode .reservedF = encodeOp 0xF := rfl
@[simp] theorem encode_empty : encode .empty = encodeSym .empty := rfl
@[simp] theorem encode_pawn (c : Bit) : encode (.pawn c) = encodeSym (.man .pawn c) := rfl
@[simp] theorem encode_knight (c : Bit) : encode (.knight c) = encodeSym (.man .knight c) := rfl
@[simp] theorem encode_bishop (c : Bit) : encode (.bishop c) = encodeSym (.man .bishop c) := rfl
@[simp] theorem encode_rook (c : Bit) : encode (.rook c) = encodeSym (.man .rook c) := rfl
@[simp] theorem encode_queen (c : Bit) : encode (.queen c) = encodeSym (.man .queen c) := rfl
@[simp] theorem encode_illegalB : encode .illegalB = bitsOfNat 4 0b1011 := rfl
@[simp] theorem encode_illegalD : encode .illegalD = bitsOfNat 4 0b1101 := rfl
@[simp] theorem encode_illegalF : encode .illegalF = bitsOfNat 4 0b1111 := rfl
@[simp] theorem encode_moveNone (p : BitVec 2) (f : Sq) (t : Sq) : encode (.moveNone p f t) = encodeMove 0 p f t := rfl
@[simp] theorem encode_movePromo (p : BitVec 2) (f : Sq) (t : Sq) : encode (.movePromo p f t) = encodeMove 1 p f t := rfl
@[simp] theorem encode_moveEp (p : BitVec 2) (f : Sq) (t : Sq) : encode (.moveEp p f t) = encodeMove 2 p f t := rfl
@[simp] theorem encode_moveCastle (p : BitVec 2) (f : Sq) (t : Sq) : encode (.moveCastle p f t) = encodeMove 3 p f t := rfl
@[simp] theorem encode_posfTurn (t : Bit) : encode (.posfTurn t) = bitsOf t := rfl
@[simp] theorem encode_posfK1 (k : Sq) : encode (.posfK1 k) = bitsOf k := rfl
@[simp] theorem encode_posfK2 (k : Sq) : encode (.posfK2 k) = bitsOf k := rfl
@[simp] theorem encode_posfPieces (syms : List PieceSym) : encode (.posfPieces syms) = syms.flatMap encodeSym := rfl
@[simp] theorem encode_posfWk (w : Bit) : encode (.posfWk w) = bitsOf w := rfl
@[simp] theorem encode_posfWq (w : Bit) : encode (.posfWq w) = bitsOf w := rfl
@[simp] theorem encode_posfBk (b : Bit) : encode (.posfBk b) = bitsOf b := rfl
@[simp] theorem encode_posfBq (b : Bit) : encode (.posfBq b) = bitsOf b := rfl
@[simp] theorem encode_posfEpf (e : Bit) : encode (.posfEpf e) = bitsOf e := rfl
@[simp] theorem encode_posfEpsq (sq : Sq) : encode (.posfEpsq sq) = bitsOf sq := rfl
@[simp] theorem encode_posfHmcLo (h : BitVec 6) : encode (.posfHmcLo h) = bitsOf h := rfl
@[simp] theorem encode_posfFmnLo (l : Byte) : encode (.posfFmnLo l) = bitsOf l := rfl
@[simp] theorem encode_posfFmnHi (u : Byte) : encode (.posfFmnHi u) = bitsOf u := rfl
@[simp] theorem encode_posfHmcHi (h : Bit) : encode (.posfHmcHi h) = bitsOf h := rfl
@[simp] theorem encode_recfPosition (blob : List Byte) : encode (.recfPosition blob) = bitsOfBytes blob := rfl
@[simp] theorem encode_recfScore (v : Half) : encode (.recfScore v) = bitsOf v := rfl
@[simp] theorem encode_recfMove (w : Half) : encode (.recfMove w) = bitsOf w := rfl
@[simp] theorem encode_recfPly (v : Half) : encode (.recfPly v) = bitsOf v := rfl
@[simp] theorem encode_recfResult (v : Byte) : encode (.recfResult v) = bitsOf v := rfl
@[simp] theorem encode_recfPadding (v : Byte) : encode (.recfPadding v) = bitsOf v := rfl

@[simp] theorem formatOf_errClr : formatOf .errClr = .command := rfl
@[simp] theorem formatOf_curAttach (len : BitVec 6) (data : List Byte) : formatOf (.curAttach len data) = .command := rfl
@[simp] theorem formatOf_curRdbit : formatOf .curRdbit = .command := rfl
@[simp] theorem formatOf_curRdbits (n : BitVec 5) : formatOf (.curRdbits n) = .command := rfl
@[simp] theorem formatOf_pieceDec : formatOf .pieceDec = .command := rfl
@[simp] theorem formatOf_posDec (len : BitVec 6) (data : List Byte) : formatOf (.posDec len data) = .command := rfl
@[simp] theorem formatOf_moveDec (w : Half) : formatOf (.moveDec w) = .command := rfl
@[simp] theorem formatOf_reserved7 : formatOf .reserved7 = .command := rfl
@[simp] theorem formatOf_recOpen (soff : Nat) : formatOf (.recOpen soff) = .command := rfl
@[simp] theorem formatOf_recRead : formatOf .recRead = .command := rfl
@[simp] theorem formatOf_recRaw : formatOf .recRaw = .command := rfl
@[simp] theorem formatOf_recCount : formatOf .recCount = .command := rfl
@[simp] theorem formatOf_reservedC : formatOf .reservedC = .command := rfl
@[simp] theorem formatOf_reservedD : formatOf .reservedD = .command := rfl
@[simp] theorem formatOf_reservedE : formatOf .reservedE = .command := rfl
@[simp] theorem formatOf_reservedF : formatOf .reservedF = .command := rfl
@[simp] theorem formatOf_empty : formatOf .empty = .pieceSymbol := rfl
@[simp] theorem formatOf_pawn (c : Bit) : formatOf (.pawn c) = .pieceSymbol := rfl
@[simp] theorem formatOf_knight (c : Bit) : formatOf (.knight c) = .pieceSymbol := rfl
@[simp] theorem formatOf_bishop (c : Bit) : formatOf (.bishop c) = .pieceSymbol := rfl
@[simp] theorem formatOf_rook (c : Bit) : formatOf (.rook c) = .pieceSymbol := rfl
@[simp] theorem formatOf_queen (c : Bit) : formatOf (.queen c) = .pieceSymbol := rfl
@[simp] theorem formatOf_illegalB : formatOf .illegalB = .pieceSymbol := rfl
@[simp] theorem formatOf_illegalD : formatOf .illegalD = .pieceSymbol := rfl
@[simp] theorem formatOf_illegalF : formatOf .illegalF = .pieceSymbol := rfl
@[simp] theorem formatOf_moveNone (p : BitVec 2) (f : Sq) (t : Sq) : formatOf (.moveNone p f t) = .moveWord := rfl
@[simp] theorem formatOf_movePromo (p : BitVec 2) (f : Sq) (t : Sq) : formatOf (.movePromo p f t) = .moveWord := rfl
@[simp] theorem formatOf_moveEp (p : BitVec 2) (f : Sq) (t : Sq) : formatOf (.moveEp p f t) = .moveWord := rfl
@[simp] theorem formatOf_moveCastle (p : BitVec 2) (f : Sq) (t : Sq) : formatOf (.moveCastle p f t) = .moveWord := rfl
@[simp] theorem formatOf_posfTurn (t : Bit) : formatOf (.posfTurn t) = .posField .turn := rfl
@[simp] theorem formatOf_posfK1 (k : Sq) : formatOf (.posfK1 k) = .posField .k1 := rfl
@[simp] theorem formatOf_posfK2 (k : Sq) : formatOf (.posfK2 k) = .posField .k2 := rfl
@[simp] theorem formatOf_posfPieces (syms : List PieceSym) : formatOf (.posfPieces syms) = .posPieces syms.length := rfl
@[simp] theorem formatOf_posfWk (w : Bit) : formatOf (.posfWk w) = .posField .wk := rfl
@[simp] theorem formatOf_posfWq (w : Bit) : formatOf (.posfWq w) = .posField .wq := rfl
@[simp] theorem formatOf_posfBk (b : Bit) : formatOf (.posfBk b) = .posField .bk := rfl
@[simp] theorem formatOf_posfBq (b : Bit) : formatOf (.posfBq b) = .posField .bq := rfl
@[simp] theorem formatOf_posfEpf (e : Bit) : formatOf (.posfEpf e) = .posField .epf := rfl
@[simp] theorem formatOf_posfEpsq (sq : Sq) : formatOf (.posfEpsq sq) = .posField .epsq := rfl
@[simp] theorem formatOf_posfHmcLo (h : BitVec 6) : formatOf (.posfHmcLo h) = .posField .hmcLo := rfl
@[simp] theorem formatOf_posfFmnLo (l : Byte) : formatOf (.posfFmnLo l) = .posField .fmnLo := rfl
@[simp] theorem formatOf_posfFmnHi (u : Byte) : formatOf (.posfFmnHi u) = .posField .fmnHi := rfl
@[simp] theorem formatOf_posfHmcHi (h : Bit) : formatOf (.posfHmcHi h) = .posField .hmcHi := rfl
@[simp] theorem formatOf_recfPosition (blob : List Byte) : formatOf (.recfPosition blob) = .recField .position := rfl
@[simp] theorem formatOf_recfScore (v : Half) : formatOf (.recfScore v) = .recField .score := rfl
@[simp] theorem formatOf_recfMove (w : Half) : formatOf (.recfMove w) = .recField .move := rfl
@[simp] theorem formatOf_recfPly (v : Half) : formatOf (.recfPly v) = .recField .ply := rfl
@[simp] theorem formatOf_recfResult (v : Byte) : formatOf (.recfResult v) = .recField .result := rfl
@[simp] theorem formatOf_recfPadding (v : Byte) : formatOf (.recfPadding v) = .recField .padding := rfl

@[simp] theorem wellFormed_errClr : Instr.wellFormed .errClr = true := rfl
@[simp] theorem wellFormed_curAttach (len : BitVec 6) (data : List Byte) : Instr.wellFormed (.curAttach len data) = dataFits len data := rfl
@[simp] theorem wellFormed_curRdbit : Instr.wellFormed .curRdbit = true := rfl
@[simp] theorem wellFormed_curRdbits (n : BitVec 5) : Instr.wellFormed (.curRdbits n) = true := rfl
@[simp] theorem wellFormed_pieceDec : Instr.wellFormed .pieceDec = true := rfl
@[simp] theorem wellFormed_posDec (len : BitVec 6) (data : List Byte) : Instr.wellFormed (.posDec len data) = dataFits len data := rfl
@[simp] theorem wellFormed_moveDec (w : Half) : Instr.wellFormed (.moveDec w) = true := rfl
@[simp] theorem wellFormed_reserved7 : Instr.wellFormed .reserved7 = true := rfl
@[simp] theorem wellFormed_recOpen (soff : Nat) : Instr.wellFormed (.recOpen soff) = true := rfl
@[simp] theorem wellFormed_recRead : Instr.wellFormed .recRead = true := rfl
@[simp] theorem wellFormed_recRaw : Instr.wellFormed .recRaw = true := rfl
@[simp] theorem wellFormed_recCount : Instr.wellFormed .recCount = true := rfl
@[simp] theorem wellFormed_reservedC : Instr.wellFormed .reservedC = true := rfl
@[simp] theorem wellFormed_reservedD : Instr.wellFormed .reservedD = true := rfl
@[simp] theorem wellFormed_reservedE : Instr.wellFormed .reservedE = true := rfl
@[simp] theorem wellFormed_reservedF : Instr.wellFormed .reservedF = true := rfl
@[simp] theorem wellFormed_empty : Instr.wellFormed .empty = true := rfl
@[simp] theorem wellFormed_pawn (c : Bit) : Instr.wellFormed (.pawn c) = true := rfl
@[simp] theorem wellFormed_knight (c : Bit) : Instr.wellFormed (.knight c) = true := rfl
@[simp] theorem wellFormed_bishop (c : Bit) : Instr.wellFormed (.bishop c) = true := rfl
@[simp] theorem wellFormed_rook (c : Bit) : Instr.wellFormed (.rook c) = true := rfl
@[simp] theorem wellFormed_queen (c : Bit) : Instr.wellFormed (.queen c) = true := rfl
@[simp] theorem wellFormed_illegalB : Instr.wellFormed .illegalB = true := rfl
@[simp] theorem wellFormed_illegalD : Instr.wellFormed .illegalD = true := rfl
@[simp] theorem wellFormed_illegalF : Instr.wellFormed .illegalF = true := rfl
@[simp] theorem wellFormed_moveNone (p : BitVec 2) (f : Sq) (t : Sq) : Instr.wellFormed (.moveNone p f t) = true := rfl
@[simp] theorem wellFormed_movePromo (p : BitVec 2) (f : Sq) (t : Sq) : Instr.wellFormed (.movePromo p f t) = true := rfl
@[simp] theorem wellFormed_moveEp (p : BitVec 2) (f : Sq) (t : Sq) : Instr.wellFormed (.moveEp p f t) = true := rfl
@[simp] theorem wellFormed_moveCastle (p : BitVec 2) (f : Sq) (t : Sq) : Instr.wellFormed (.moveCastle p f t) = true := rfl
@[simp] theorem wellFormed_posfTurn (t : Bit) : Instr.wellFormed (.posfTurn t) = true := rfl
@[simp] theorem wellFormed_posfK1 (k : Sq) : Instr.wellFormed (.posfK1 k) = true := rfl
@[simp] theorem wellFormed_posfK2 (k : Sq) : Instr.wellFormed (.posfK2 k) = true := rfl
@[simp] theorem wellFormed_posfPieces (syms : List PieceSym) : Instr.wellFormed (.posfPieces syms) = runFits syms := rfl
@[simp] theorem wellFormed_posfWk (w : Bit) : Instr.wellFormed (.posfWk w) = true := rfl
@[simp] theorem wellFormed_posfWq (w : Bit) : Instr.wellFormed (.posfWq w) = true := rfl
@[simp] theorem wellFormed_posfBk (b : Bit) : Instr.wellFormed (.posfBk b) = true := rfl
@[simp] theorem wellFormed_posfBq (b : Bit) : Instr.wellFormed (.posfBq b) = true := rfl
@[simp] theorem wellFormed_posfEpf (e : Bit) : Instr.wellFormed (.posfEpf e) = true := rfl
@[simp] theorem wellFormed_posfEpsq (sq : Sq) : Instr.wellFormed (.posfEpsq sq) = true := rfl
@[simp] theorem wellFormed_posfHmcLo (h : BitVec 6) : Instr.wellFormed (.posfHmcLo h) = true := rfl
@[simp] theorem wellFormed_posfFmnLo (l : Byte) : Instr.wellFormed (.posfFmnLo l) = true := rfl
@[simp] theorem wellFormed_posfFmnHi (u : Byte) : Instr.wellFormed (.posfFmnHi u) = true := rfl
@[simp] theorem wellFormed_posfHmcHi (h : Bit) : Instr.wellFormed (.posfHmcHi h) = true := rfl
@[simp] theorem wellFormed_recfPosition (blob : List Byte) : Instr.wellFormed (.recfPosition blob) = blobFits blob := rfl
@[simp] theorem wellFormed_recfScore (v : Half) : Instr.wellFormed (.recfScore v) = true := rfl
@[simp] theorem wellFormed_recfMove (w : Half) : Instr.wellFormed (.recfMove w) = true := rfl
@[simp] theorem wellFormed_recfPly (v : Half) : Instr.wellFormed (.recfPly v) = true := rfl
@[simp] theorem wellFormed_recfResult (v : Byte) : Instr.wellFormed (.recfResult v) = true := rfl
@[simp] theorem wellFormed_recfPadding (v : Byte) : Instr.wellFormed (.recfPadding v) = true := rfl

end Sys2Proof
end

