-- ==== Sys2Proof/Laws/PerInstr.lean ====
section
/-! SUPPORT. The per-instruction family EncodedLength: the encoder writes as many bits as the row of the opcode table
and its operands have. -/

namespace Sys2Proof.Laws.EncodedLength

/-- The bits of a piece symbol (30_encoding.md R63). -/
def symbolBits : PieceSym → Nat
  | .empty => 1
  | .man _ _ => 5

/-- The width of a row of spec/opcode_table.json, with its operands (30_encoding.md R60, R63, R67, R70; 20_memory.md
R48). -/
def rowBits : Instr → Nat
  | .errClr => 4
  | .curAttach len _ => 4 + 6 + 8 * len.toNat
  | .curRdbit => 4
  | .curRdbits _ => 4 + 5
  | .pieceDec => 4
  | .posDec len _ => 4 + 6 + 8 * len.toNat
  | .moveDec _ => 4 + 16
  | .reserved7 => 4
  | .recOpen soff => 4 + (soff.log2 + 1)
  | .recRead => 4
  | .recRaw => 4
  | .recCount => 4
  | .reservedC => 4
  | .reservedD => 4
  | .reservedE => 4
  | .reservedF => 4
  | .empty => 1
  | .pawn _ => 5
  | .knight _ => 5
  | .bishop _ => 5
  | .rook _ => 5
  | .queen _ => 5
  | .illegalB => 4
  | .illegalD => 4
  | .illegalF => 4
  | .moveNone _ _ _ => 16
  | .movePromo _ _ _ => 16
  | .moveEp _ _ _ => 16
  | .moveCastle _ _ _ => 16
  | .posfTurn _ => 1
  | .posfK1 _ => 6
  | .posfK2 _ => 6
  | .posfPieces syms => (syms.map symbolBits).sum
  | .posfWk _ => 1
  | .posfWq _ => 1
  | .posfBk _ => 1
  | .posfBq _ => 1
  | .posfEpf _ => 1
  | .posfEpsq _ => 6
  | .posfHmcLo _ => 6
  | .posfFmnLo _ => 8
  | .posfFmnHi _ => 8
  | .posfHmcHi _ => 1
  | .recfPosition _ => 256
  | .recfScore _ => 16
  | .recfMove _ => 16
  | .recfPly _ => 16
  | .recfResult _ => 8
  | .recfPadding _ => 8

/-- The encoding of a well-formed instruction has its row's width. -/
def Statement (i : Instr) : Prop := i.wellFormed = true → (encode i).length = rowBits i

theorem length_encodeSym (s : PieceSym) : (encodeSym s).length = symbolBits s := by
  cases s <;> simp [encodeSym, symbolBits]

theorem length_encodeMove (k : Nat) (p : BitVec 2) (f t : Sq) : (encodeMove k p f t).length = 16 := by
  simp [encodeMove]



theorem errClr : Statement .errClr := fun _ => rfl

theorem curAttach (len : BitVec 6) (data : List Byte) : Statement (.curAttach len data) := fun h => by
  have h' : data.length = len.toNat := by simpa [dataFits] using h
  show _ = 4 + 6 + 8 * len.toNat
  simp [encodeOp, h']
  omega

theorem curRdbit : Statement .curRdbit := fun _ => rfl

theorem curRdbits (n : BitVec 5) : Statement (.curRdbits n) := fun _ => by
  show _ = 4 + 5
  simp [encodeOp]

theorem pieceDec : Statement .pieceDec := fun _ => rfl

theorem posDec (len : BitVec 6) (data : List Byte) : Statement (.posDec len data) := fun h => by
  have h' : data.length = len.toNat := by simpa [dataFits] using h
  show _ = 4 + 6 + 8 * len.toNat
  simp [encodeOp, h']
  omega

theorem moveDec (w : Half) : Statement (.moveDec w) := fun _ => by
  show _ = 4 + 16
  simp [encodeOp]

theorem reserved7 : Statement .reserved7 := fun _ => rfl

theorem recOpen (soff : Nat) : Statement (.recOpen soff) := fun _ => by
  show _ = 4 + (soff.log2 + 1)
  simp [encodeOp]

theorem recRead : Statement .recRead := fun _ => rfl

theorem recRaw : Statement .recRaw := fun _ => rfl

theorem recCount : Statement .recCount := fun _ => rfl

theorem reservedC : Statement .reservedC := fun _ => rfl

theorem reservedD : Statement .reservedD := fun _ => rfl

theorem reservedE : Statement .reservedE := fun _ => rfl

theorem reservedF : Statement .reservedF := fun _ => rfl

theorem empty : Statement .empty := fun _ => rfl

theorem pawn (c : Bit) : Statement (.pawn c) := fun _ => length_encodeSym (.man .pawn c)

theorem knight (c : Bit) : Statement (.knight c) := fun _ => length_encodeSym (.man .knight c)

theorem bishop (c : Bit) : Statement (.bishop c) := fun _ => length_encodeSym (.man .bishop c)

theorem rook (c : Bit) : Statement (.rook c) := fun _ => length_encodeSym (.man .rook c)

theorem queen (c : Bit) : Statement (.queen c) := fun _ => length_encodeSym (.man .queen c)

theorem illegalB : Statement .illegalB := fun _ => rfl

theorem illegalD : Statement .illegalD := fun _ => rfl

theorem illegalF : Statement .illegalF := fun _ => rfl

theorem moveNone (p : BitVec 2) (f : Sq) (t : Sq) : Statement (.moveNone p f t) := fun _ => length_encodeMove _ p f t

theorem movePromo (p : BitVec 2) (f : Sq) (t : Sq) : Statement (.movePromo p f t) := fun _ => length_encodeMove _ p f t

theorem moveEp (p : BitVec 2) (f : Sq) (t : Sq) : Statement (.moveEp p f t) := fun _ => length_encodeMove _ p f t

theorem moveCastle (p : BitVec 2) (f : Sq) (t : Sq) : Statement (.moveCastle p f t) := fun _ => length_encodeMove _ p f t

theorem posfTurn (t : Bit) : Statement (.posfTurn t) := fun _ => length_bitsOf _

theorem posfK1 (k : Sq) : Statement (.posfK1 k) := fun _ => length_bitsOf _

theorem posfK2 (k : Sq) : Statement (.posfK2 k) := fun _ => length_bitsOf _

theorem posfPieces (syms : List PieceSym) : Statement (.posfPieces syms) := fun _ => by
  show _ = (syms.map symbolBits).sum
  rw [encode_posfPieces, List.length_flatMap]
  congr 1
  exact List.map_congr_left fun s _ => length_encodeSym s

theorem posfWk (w : Bit) : Statement (.posfWk w) := fun _ => length_bitsOf _

theorem posfWq (w : Bit) : Statement (.posfWq w) := fun _ => length_bitsOf _

theorem posfBk (b : Bit) : Statement (.posfBk b) := fun _ => length_bitsOf _

theorem posfBq (b : Bit) : Statement (.posfBq b) := fun _ => length_bitsOf _

theorem posfEpf (e : Bit) : Statement (.posfEpf e) := fun _ => length_bitsOf _

theorem posfEpsq (sq : Sq) : Statement (.posfEpsq sq) := fun _ => length_bitsOf _

theorem posfHmcLo (h : BitVec 6) : Statement (.posfHmcLo h) := fun _ => length_bitsOf _

theorem posfFmnLo (l : Byte) : Statement (.posfFmnLo l) := fun _ => length_bitsOf _

theorem posfFmnHi (u : Byte) : Statement (.posfFmnHi u) := fun _ => length_bitsOf _

theorem posfHmcHi (h : Bit) : Statement (.posfHmcHi h) := fun _ => length_bitsOf _

theorem recfPosition (blob : List Byte) : Statement (.recfPosition blob) := fun h => by
  have h' : blob.length = 32 := by simpa [blobFits] using h
  show _ = 256
  simp [h']

theorem recfScore (v : Half) : Statement (.recfScore v) := fun _ => length_bitsOf _

theorem recfMove (w : Half) : Statement (.recfMove w) := fun _ => length_bitsOf _

theorem recfPly (v : Half) : Statement (.recfPly v) := fun _ => length_bitsOf _

theorem recfResult (v : Byte) : Statement (.recfResult v) := fun _ => length_bitsOf _

theorem recfPadding (v : Byte) : Statement (.recfPadding v) := fun _ => length_bitsOf _

end Sys2Proof.Laws.EncodedLength
end

