-- ==== Sys2Proof/Laws/Step.lean ====
section
/-! SUPPORT. What one step can do, said once. -/

namespace Sys2Proof.Machine

/-- The step with nothing in the inbox. -/
theorem step_idle {s : State} (h : s.inbox = []) : step s = .next s := by simp [step, h]

/-- The step that takes a request. -/
theorem step_request {s : State} {r : Request} {rest : List Request} (h : s.inbox = r :: rest) :
    step s = match fetch r { s with inbox := rest } with
      | .instr i => exec i { s with inbox := rest }
      | .raises c => .next (takeFault c { s with inbox := rest })
      | .turnedAway => .next (refuse { s with inbox := rest })
      | .absent => .fault .streamShrunk
      | .notACommand => .refused .notACommand := by
  cases hf : fetch r { s with inbox := rest } <;> simp [step, h, hf]

/-- Everything a step can answer as a next state. -/
theorem step_next {s t : State} (h : step s = .next t) :
    (s.inbox = [] ∧ t = s) ∨
    ∃ r rest, s.inbox = r :: rest ∧
      ((∃ i, fetch r { s with inbox := rest } = .instr i ∧ exec i { s with inbox := rest } = .next t) ∨
       (∃ c, fetch r { s with inbox := rest } = .raises c ∧ t = takeFault c { s with inbox := rest }) ∨
       (fetch r { s with inbox := rest } = .turnedAway ∧ t = refuse { s with inbox := rest })) := by
  cases hi : s.inbox with
  | nil => rw [step_idle hi] at h; injection h with h; exact .inl ⟨rfl, h.symm⟩
  | cons r rest =>
    rw [step_request hi] at h
    refine .inr ⟨r, rest, rfl, ?_⟩
    split at h
    · rename_i i hf; exact .inl ⟨i, hf, h⟩
    · rename_i c hf; injection h with h; exact .inr (.inl ⟨c, hf, h.symm⟩)
    · rename_i hf; injection h with h; exact .inr (.inr ⟨hf, h.symm⟩)
    · cases h
    · cases h

end Sys2Proof.Machine
end

