-- ==== Sys2Proof/Laws/Values.lean ====
section
/-! SUPPORT. The assembled values as numbers (30_encoding.md R68, R69; 43_move.md R130). -/

namespace Sys2Proof.Machine

/-- Eight bits above eight bits. -/
theorem toNat_above (hi lo : Byte) :
    ((hi.setWidth 16 <<< 8) ||| lo.setWidth 16 : Half).toNat = 256 * hi.toNat + lo.toNat := by
  have h1 := hi.isLt
  have h2 := lo.isLt
  have h3 : (hi.setWidth 16 <<< 8 : Half).toNat = 2 ^ 8 * hi.toNat := by
    rw [BitVec.toNat_shiftLeft, BitVec.toNat_setWidth, Nat.shiftLeft_eq]; omega
  have h4 : (lo.setWidth 16 : Half).toNat = lo.toNat := by rw [BitVec.toNat_setWidth]; omega
  rw [BitVec.toNat_or, h3, h4, ← Nat.two_pow_add_eq_or_of_lt h2]

theorem joinFmn_toNat (hi lo : Byte) : (joinFmn hi lo).toNat = 256 * hi.toNat + lo.toNat := toNat_above hi lo

theorem le16_toNat (b0 b1 : Byte) : (le16 b0 b1).toNat = b0.toNat + 256 * b1.toNat := by
  rw [le16, BitVec.or_comm, toNat_above, Nat.add_comm]

theorem joinHmc_toNat (hi : Bit) (lo : BitVec 6) : (joinHmc hi lo).toNat = 64 * hi.toNat + lo.toNat := by
  revert hi lo; decide

/-- The four castling flags, one bit each (10_state.md R18). -/
theorem castle_toNat (wk wq bk bq : Bit) (w : Work) (h : w.castle = 0) :
    (putCastle 3 bq (putCastle 2 bk (putCastle 1 wq (putCastle 0 wk w)))).castle.toNat =
      wk.toNat + 2 * wq.toNat + 4 * bk.toNat + 8 * bq.toNat := by
  simp only [putCastle, h]
  revert wk wq bk bq; decide

end Sys2Proof.Machine
end

