-- ==== Sys2Proof/Tests/Slice0.lean ====
section
/-! SUPPORT. The model's own tests: ill-formed terms that WellFormed refuses, words written out from the spec's
encodings, one-step effects taken from 95_test_vectors.md, and for every statement with hypotheses a concrete case
that meets them. -/

namespace Sys2Proof.Tests

open Sys2Proof Sys2Proof.Machine

set_option Elab.async false

/-! ### WellFormed -/

/-- `CUR.ATTACH 2` with one byte. -/
theorem test_wf_attach_short : Instr.wellFormed (.curAttach 2 [0xA5]) = false := by decide

/-- `POS.DEC 1` with two bytes. -/
theorem test_wf_posdec_long : Instr.wellFormed (.posDec 1 [0, 0]) = false := by decide

/-- Runs of 61 and of 64 symbols. -/
theorem test_wf_run :
    Instr.wellFormed (.posfPieces (List.replicate 61 .empty)) = false ∧
    Instr.wellFormed (.posfPieces (List.replicate 64 .empty)) = false := by decide +kernel

/-- A position field of 31 bytes. -/
theorem test_wf_blob : Instr.wellFormed (.recfPosition (List.replicate 31 0)) = false := by decide +kernel

/-! ### Decoding, word by word -/

/-- The operation codes 0x0, 0x7, 0xC to 0xF in stream order, 4 bits each (30_encoding.md R60, R62, R73). -/
theorem test_decode_control :
    decode .command [false, false, false, false] = .ok (.errClr, []) ∧
    decode .command [true, true, true, false] = .ok (.reserved7, []) ∧
    decode .command [false, false, true, true] = .ok (.reservedC, []) ∧
    decode .command [true, false, true, true] = .ok (.reservedD, []) ∧
    decode .command [false, true, true, true] = .ok (.reservedE, []) ∧
    decode .command [true, true, true, true] = .ok (.reservedF, []) := by
  decide +kernel

/-- `CUR.ATTACH 2, A5 3C`, `CUR.RDBIT`, `CUR.RDBITS 6`, `PIECE.DEC` (30_encoding.md R60; 40_bitcursor.md R90, R92). -/
theorem test_decode_cursor :
        decode .command [true, false, false, false, false, true, false, false, false, false, true, false, true, false,
      false, true, false, true, false, false, true, true, true, true, false, false] = .ok (.curAttach 2 [0xA5, 0x3C],
      []) ∧
    decode .command [false, true, false, false] = .ok (.curRdbit, []) ∧
    decode .command [true, true, false, false, false, true, true, false, false] = .ok (.curRdbits 6, []) ∧
    decode .command [false, false, true, false] = .ok (.pieceDec, []) := by
  decide +kernel

/-- `POS.DEC 1, 81`, `MOVE.DEC 0x7C38` (30_encoding.md R60, R70). -/
theorem test_decode_decoders :
        decode .command [true, false, true, false, true, false, false, false, false, false, true, false, false, false,
      false, false, false, true] = .ok (.posDec 1 [0x81], []) ∧
        decode .command [false, true, true, false, false, false, false, true, true, true, false, false, false, false,
      true, true, true, true, true, false] = .ok (.moveDec 0x7C38, []) := by
  decide +kernel

/-- `REC.OPEN 40`, `REC.READ`, `REC.RAW`, `REC.COUNT` (30_encoding.md R60). -/
theorem test_decode_record :
    decode .command [false, false, false, true, false, false, false, true, false, true] = .ok (.recOpen 40, []) ∧
    decode .command [true, false, false, true] = .ok (.recRead, []) ∧
    decode .command [false, true, false, true] = .ok (.recRaw, []) ∧
    decode .command [true, true, false, true] = .ok (.recCount, []) := by
  decide +kernel

/-- The symbols of 30_encoding.md R65, the code's bit 0 first, then the colour; vectors V10b, V11, V12b, V13, V13d. -/
theorem test_decode_symbols :
    decode .pieceSymbol [false] = .ok (.empty, []) ∧
    decode .pieceSymbol [true, false, false, false, true] = .ok (.pawn 1, []) ∧
    decode .pieceSymbol [true, true, false, false, false] = .ok (.knight 0, []) ∧
    decode .pieceSymbol [true, false, true, false, true] = .ok (.bishop 1, []) ∧
    decode .pieceSymbol [true, true, true, false, false] = .ok (.rook 0, []) ∧
    decode .pieceSymbol [true, false, false, true, true] = .ok (.queen 1, []) := by
  decide +kernel

/-- The unassigned codes in stream order (30_encoding.md R66); the bit after them is left over (V16b). -/
theorem test_decode_unassigned :
    decode .pieceSymbol [true, true, false, true, true] = .ok (.illegalB, [true]) ∧
    decode .pieceSymbol [true, false, true, true] = .ok (.illegalD, []) ∧
    decode .pieceSymbol [true, true, true, true] = .ok (.illegalF, []) := by
  decide +kernel

/-- The words of V41, V42, V47, V48 (30_encoding.md R70, R71). -/
theorem test_decode_moves :
        decode .moveWord [false, false, true, false, false, true, false, false, true, false, true, true, false, false,
      false, false] = .ok (.moveNone 0 52 36, []) ∧
        decode .moveWord [false, false, false, true, true, true, false, false, false, false, true, true, true, true,
      true, false] = .ok (.movePromo 3 48 56, []) ∧
        decode .moveWord [true, true, false, true, false, true, false, false, true, false, false, true, false, false,
      false, true] = .ok (.moveEp 0 36 43, []) ∧
        decode .moveWord [true, true, true, false, false, false, false, false, true, false, false, false, false,
      false, true, true] = .ok (.moveCastle 0 4 7, []) := by
  decide +kernel

/-- The fixed-width fields of a position stream, first bit least significant (30_encoding.md R67, R68; V20 to V23). -/
theorem test_decode_position_fields :
    decode (.posField .turn) [true] = .ok (.posfTurn 1, []) ∧
    decode (.posField .k1) [false, false, true, false, false, false] = .ok (.posfK1 4, []) ∧
    decode (.posField .k2) [false, false, true, true, true, true] = .ok (.posfK2 60, []) ∧
    decode (.posField .wk) [true] = .ok (.posfWk 1, []) ∧
    decode (.posField .wq) [true] = .ok (.posfWq 1, []) ∧
    decode (.posField .bk) [true] = .ok (.posfBk 1, []) ∧
    decode (.posField .bq) [true] = .ok (.posfBq 1, []) := by
  decide +kernel

/-- The fields after the castling flags (30_encoding.md R67; V22, V23). -/
theorem test_decode_position_tail_fields :
    decode (.posField .epf) [true] = .ok (.posfEpf 1, []) ∧
    decode (.posField .epsq) [false, false, true, false, true, false] = .ok (.posfEpsq 20, []) ∧
    decode (.posField .hmcLo) [false, false, true, false, false, true] = .ok (.posfHmcLo 36, []) ∧
    decode (.posField .fmnLo) [false, true, true, true, true, true, true, true] = .ok (.posfFmnLo 0xFE, []) ∧
    decode (.posField .fmnHi) [true, false, false, false, false, false, false, false] = .ok (.posfFmnHi 1, []) ∧
    decode (.posField .hmcHi) [true] = .ok (.posfHmcHi 1, []) := by
  decide +kernel

/-- A run of 62 symbols: a black Rook, a white Pawn, sixty empty squares (30_encoding.md R67). -/
theorem test_decode_pieces :
        decode (.posPieces 62) ([true, true, true, false, true, true, false, false, false, false] ++ List.replicate 60
      false) = .ok (.posfPieces (.man .rook 1 :: .man .pawn 0 :: List.replicate 60 .empty), []) := by
  decide +kernel

/-- The fields of record 0 of the stream S: DB FF, 24 0D, 01 00, FF, AA (95_test_vectors.md 2.5; 20_memory.md R48). -/
theorem test_decode_record_fields :
        decode (.recField .score) [true, true, false, true, true, false, true, true, true, true, true, true, true,
      true, true, true] = .ok (.recfScore 0xFFDB, []) ∧
        decode (.recField .move) [false, false, true, false, false, true, false, false, true, false, true, true,
      false, false, false, false] = .ok (.recfMove 0x0D24, []) ∧
        decode (.recField .ply) [true, false, false, false, false, false, false, false, false, false, false, false,
      false, false, false, false] = .ok (.recfPly 1, []) ∧
    decode (.recField .result) [true, true, true, true, true, true, true, true] = .ok (.recfResult 0xFF, []) ∧
    decode (.recField .padding) [false, true, false, true, false, true, false, true] = .ok (.recfPadding 0xAA, []) ∧
        decode (.recField .position) ([false, false, false, true, false, false, false, false, false, true, true, true,
      true, false, false, false] ++ List.replicate 240 false) = .ok (.recfPosition (0x08 :: 0x1E :: List.replicate 30
      0), []) := by
  decide +kernel

/-- Words numbered as the opcode table numbers them (log entry 10). -/
theorem test_table_words :
    decodeTableWord 8 0x9 = some .recRead ∧ decodeTableWord 8 0x17 = some (.rook 1) ∧
    decodeTableWord 16 0x7C38 = some (.movePromo 3 48 56) ∧
    decodeTableWord 256 0x1E08 = some (.recfPosition (0x08 :: 0x1E :: List.replicate 30 0)) := by decide +kernel

/-! ### States and streams to test on -/

/-- What is seen of a next state. -/
def see {α : Type} (r : Result) (f : State → α) : Option α :=
  match r with
  | .next t => some (f t)
  | _ => none

/-- A cursor at bit `pos` over some bytes, no fault, nothing else. -/
def at_ (pos : Nat) (bs : List Byte) : State :=
  setPos pos (setCursor (attachCursor State.reset.buf bs.length bs) State.reset)

/-- A reader opened at `rp` on some bytes. -/
def on (rp : Nat) (bs : List Byte) : State :=
  setReader bs.length rp { State.reset with stream := streamOfBytes bs }

/-- A state with a latched `CorruptEncoding` (V80). -/
def latched : State := { at_ 0 [0x0B] with err := 2 }

/-- The common start of V1 to V8. -/
def two : List Byte := [0xA5, 0x3C]

/-- V20: two Kings. -/
def v20 : List Byte := [0x08, 0x1E, 0, 0, 0, 0, 0, 0, 0, 0, 0x40] ++ List.replicate 21 0

/-- The stream of V20. -/
def p20 : PosStream :=
  { turn := 0, k1 := 4, k2 := 60, syms := List.replicate 62 .empty, wk := 0, wq := 0, bk := 0, bq := 0, ep := none,
    hLo := 0, fLo := 1, fHi := 0, hHi := 0 }

/-- V22: an en-passant square. -/
def v22 : List Byte := [0x08, 0x1E, 0, 0, 0, 0, 0, 0, 0, 0x80, 0x14, 0x10] ++ List.replicate 20 0

/-- The stream of V22. -/
def p22 : PosStream := { p20 with ep := some 20 }

/-- V27: one king square, 38 Pawns, exactly 256 bits. -/
def v27 : List Byte :=
  [0x08, 0x22, 0x84, 0x10, 0x42, 0x08, 0x21, 0x84, 0x10, 0x42, 0x08, 0x21, 0x84, 0x10, 0x42, 0x08, 0x21, 0x84, 0x10,
    0x42, 0x08, 0x21, 0x84, 0x10, 0x42, 0, 0, 0, 0, 0x80, 0, 0]

/-- The stream of V27. -/
def p27 : PosStream :=
  { p20 with k2 := 4, syms := List.replicate 38 (.man .pawn 0) ++ List.replicate 25 .empty }

/-- V31: 39 Pawns, 259 bits, of which these are the first 256. -/
def v31 : List Byte :=
  [0x08, 0x3E, 0x84, 0x10, 0x42, 0x08, 0x21, 0x84, 0x10, 0x42, 0x08, 0x21, 0x84, 0x10, 0x42, 0x08, 0x21, 0x84, 0x10,
    0x42, 0x08, 0x21, 0x84, 0x10, 0x42, 0x08, 0, 0, 0, 0, 0x04, 0]

/-- The stream of V31. -/
def p31 : PosStream := { p20 with syms := List.replicate 39 (.man .pawn 0) ++ List.replicate 23 .empty }

/-- V32: an unassigned code on the first square. -/
def v32 : List Byte := [0x08, 0x7E, 0x01] ++ List.replicate 29 0

/-- An unassigned code on the last square. -/
def lastBad : List Byte := [0x08, 0x1E, 0, 0, 0, 0, 0, 0, 0, 0x3C] ++ List.replicate 22 0

/-- The last eight bytes of record 0 of the stream S. -/
def tail8 : List Byte := [0xDB, 0xFF, 0x24, 0x0D, 0x01, 0x00, 0xFF, 0xAA]

/-- A record: V20 and those eight bytes. -/
def record : List Byte := v20 ++ tail8

/-! ### One-step effects, expected values from 95_test_vectors.md and the rules' examples -/

/-- R90's example. -/
theorem test_attach : see (exec (.curAttach 2 two) State.reset)
    (fun t => (t.len, t.pos, t.buf.getD 0 0, t.buf.getD 1 0)) = some (2, 0, 0xA5, 0x3C) := by decide +kernel

/-- V1, third read: the bit at offset 2 of A5. -/
theorem test_rdbit : see (exec .curRdbit (at_ 2 two)) (fun t => (t.val, t.pos)) = some (1, 3) := by decide +kernel

/-- V2: six bits across the byte boundary. -/
theorem test_rdbits : see (exec (.curRdbits 6) (at_ 4 two)) (fun t => (t.val, t.pos)) = some (10, 10) := by
  decide +kernel

/-- V8: a read past the end moves nothing. -/
theorem test_rdbits_short : see (exec (.curRdbits 5) (at_ 12 two)) (fun t => (t.resp, t.err, t.pos)) =
    some (.fault .truncatedRecord, 1, 12) := by decide +kernel

/-- V9c. -/
theorem test_rdbits_17 : see (exec (.curRdbits 17) (at_ 0 two)) (fun t => (t.resp, t.err)) = some (.refused, 0) := by
  decide +kernel

/-- V13b: a black Rook; V19c: a Queen across the byte boundary. -/
theorem test_piece :
    see (exec .pieceDec (at_ 0 [0x17])) (fun t => (t.pk, t.pcol, t.pos)) = some (4, 1, 5) ∧
    see (exec .pieceDec (at_ 6 [0x40, 0x06])) (fun t => (t.pk, t.pcol, t.pos)) = some (5, 1, 11) := by decide +kernel

/-- V19 and V18: four bits of an unassigned code; three bits and the end. -/
theorem test_piece_faults :
    see (exec .pieceDec (at_ 4 [0xB0])) (fun t => (t.resp, t.pos)) = some (.fault .corruptEncoding, 4) ∧
    see (exec .pieceDec (at_ 5 [0x60])) (fun t => (t.resp, t.pos)) = some (.fault .truncatedRecord, 5) := by
  decide +kernel

/-- V10b to V13d and V20a as rows. -/
theorem test_symbol_rows :
    see (exec .empty (at_ 7 [0])) (fun t => (t.pk, t.pcol, t.pos)) = some (0, 0, 8) ∧
    see (exec (.pawn 1) (at_ 0 [0x11])) (fun t => (t.pk, t.pcol, t.pos)) = some (1, 1, 5) ∧
    see (exec (.knight 0) (at_ 0 [0x03])) (fun t => (t.pk, t.pcol, t.pos)) = some (2, 0, 5) ∧
    see (exec (.bishop 1) (at_ 0 [0x15])) (fun t => (t.pk, t.pcol, t.pos)) = some (3, 1, 5) ∧
    see (exec (.rook 0) (at_ 0 [0x07])) (fun t => (t.pk, t.pcol, t.pos)) = some (4, 0, 5) ∧
    see (exec (.queen 1) (at_ 0 [0x19])) (fun t => (t.pk, t.pcol, t.pos)) = some (5, 1, 5) := by decide +kernel

/-- V14 to V16 as rows. -/
theorem test_illegal_rows :
    see (exec .illegalB (at_ 0 [0x0B])) (fun t => (t.err, t.pos)) = some (2, 0) ∧
    see (exec .illegalD (at_ 0 [0x0D])) (fun t => (t.err, t.pos)) = some (2, 0) ∧
    see (exec .illegalF (at_ 5 [0xE0])) (fun t => (t.err, t.pos)) = some (1, 5) := by decide +kernel

/-- V22. -/
theorem test_posdec : see (exec (.posDec 32 v22) State.reset)
    (fun t => (t.board.getD 4 0, t.board.getD 60 0, t.epv, t.epsq, t.hmc, t.fmn, t.pos)) =
    some (0x6, 0xE, 1, 20, 0, 1, 109) := by decide +kernel

/-- V27: one King, black; the last bit of the buffer is the last bit of the stream. -/
theorem test_posdec_full : see (exec (.posDec 32 v27) State.reset)
    (fun t => (t.board.getD 4 0, t.board.getD 29 0, t.board.getD 30 0, t.fmn, t.pos)) = some (0xE, 1, 0, 1, 256) := by
  decide +kernel

/-- S6 and S7 as rows: the last field joins the counters. -/
theorem test_last_row : see (exec (.posfHmcHi 1) { at_ 102 v20 with
      work := { Work.fresh with hLo := 63, fLo := 0xFF, fHi := 0x01 } })
    (fun t => (t.hmc, t.fmn, t.pos)) = some (127, 511, 103) := by decide +kernel

/-- Fields of V23 as rows. -/
theorem test_field_rows :
    see (exec (.posfTurn 1) (at_ 0 v20)) (fun t => (t.work.turn, t.pos)) = some (1, 1) ∧
    see (exec (.posfK1 0) (at_ 1 v20)) (fun t => (t.work.k1, t.work.board.getD 0 0, t.pos)) = some (0, 0x6, 7) ∧
    see (exec (.posfK2 63) (at_ 7 v20)) (fun t => (t.work.k2, t.work.board.getD 63 0, t.pos)) = some (63, 0xE, 13) ∧
    see (exec (.posfWk 1) (at_ 75 v20)) (fun t => (t.work.castle, t.pos)) = some (1, 76) ∧
    see (exec (.posfWq 1) (at_ 76 v20)) (fun t => (t.work.castle, t.pos)) = some (2, 77) ∧
    see (exec (.posfBk 1) (at_ 77 v20)) (fun t => (t.work.castle, t.pos)) = some (4, 78) ∧
    see (exec (.posfBq 1) (at_ 78 v20)) (fun t => (t.work.castle, t.pos)) = some (8, 79) ∧
    see (exec (.posfHmcLo 36) (at_ 80 v20)) (fun t => (t.work.hLo, t.pos)) = some (36, 86) ∧
    see (exec (.posfFmnLo 0xFF) (at_ 86 v20)) (fun t => (t.work.fLo, t.pos)) = some (0xFF, 94) ∧
    see (exec (.posfFmnHi 0xFF) (at_ 94 v20)) (fun t => (t.work.fHi, t.pos)) = some (0xFF, 102) := by decide +kernel

/-- The en-passant flag and square of V22 as rows; without the flag the square's row is refused (R72). -/
theorem test_ep_rows :
    see (exec (.posfEpf 1) (at_ 79 v22)) (fun t => (t.work.epv, t.work.epsq, t.pos)) = some (1, 0, 80) ∧
    see (exec (.posfEpsq 20) { at_ 80 v22 with work := { Work.fresh with epv := 1 } })
      (fun t => (t.work.epsq, t.pos)) = some (20, 86) ∧
    see (exec (.posfEpsq 20) (at_ 80 v22)) (fun t => (t.resp, t.pos)) = some (.refused, 80) := by decide +kernel

/-- The first symbol of a run goes to a8 and the last to h1, past the Kings (R113). -/
theorem test_pieces_row : see (exec
      (.posfPieces (.man .rook 1 :: List.replicate 60 .empty ++ [.man .knight 0]))
      { at_ 13 v20 with work := { Work.fresh with k1 := 4, k2 := 60 } })
    (fun t => (t.work.board.getD 56 0, t.work.board.getD 7 0, t.work.board.getD 6 0, t.pos)) =
    some (0xC, 0x2, 0, 83) := by decide +kernel

/-- V42, V46, V48. -/
theorem test_move :
    see (exec (.moveDec 0x7C38) State.reset) (fun t => (t.mfrom, t.mto, t.mpromo, t.mspecial)) = some (48, 56, 5, 1) ∧
    see (exec (.moveDec 0x3D24) State.reset) (fun t => (t.mfrom, t.mto, t.mpromo, t.mspecial)) = some (52, 36, 0, 0) ∧
    see (exec (.moveCastle 0 4 7) State.reset) (fun t => (t.mfrom, t.mto, t.mpromo, t.mspecial)) =
      some (4, 7, 0, 3) := by decide +kernel

/-- V43, V47, V41 as rows. -/
theorem test_move_rows :
    see (exec (.movePromo 0 48 56) State.reset) (fun t => (t.mfrom, t.mto, t.mpromo, t.mspecial)) =
      some (48, 56, 2, 1) ∧
    see (exec (.moveEp 3 36 43) State.reset) (fun t => (t.mfrom, t.mto, t.mpromo, t.mspecial)) = some (36, 43, 0, 2) ∧
    see (exec (.moveNone 3 52 36) State.reset) (fun t => (t.mfrom, t.mto, t.mpromo, t.mspecial)) =
      some (52, 36, 0, 0) := by decide +kernel

/-- V62 with `soff` 40 (V66), and V60. -/
theorem test_open_count :
    see (exec (.recOpen 40) { State.reset with stream := streamOfBytes (List.replicate 87 1) })
      (fun t => (t.fsize, t.soff, t.count, t.rp, t.opn)) = some (87, 40, 2, 40, 1) ∧
    see (exec .recCount (on 0 (List.replicate 79 0))) (fun t => t.resp) = some (.okCount 1) ∧
    see (exec .recCount State.reset) (fun t => t.resp) = some .refused := by decide +kernel

/-- R142's example: the scalars and the move of record 0 of the stream S. -/
theorem test_read :
    see (exec .recRead (on 0 record)) (fun t => (t.scoreValue, t.movew, t.mfrom, t.mto)) =
      some (-37, 0x0D24, 52, 36) ∧
    see (exec .recRead (on 0 record)) (fun t => (t.ply, t.resultValue, t.rp, t.pos)) = some (1, -1, 40, 103) := by
  decide +kernel

/-- V71, third and fourth row: 35 bytes left, a good and a bad position. -/
theorem test_read_order :
    see (exec .recRead (on 0 (record.take 35))) (fun t => (t.err, t.rp)) = some (1, 0) ∧
    see (exec .recRead (on 0 (v32 ++ [0, 0, 0]))) (fun t => (t.err, t.rp)) = some (2, 0) := by decide +kernel

/-- R144's example, and V67: too few bytes left. -/
theorem test_raw :
    see (exec .recRaw (on 0 record)) (fun t => ((t.raw.toList.drop 32), t.rp)) = some (tail8, 40) ∧
    see (exec .recRaw (on 48 (List.replicate 87 1))) (fun t => (t.err, t.rp)) = some (1, 48) := by decide +kernel

/-- V61: scalars as rows. -/
theorem test_record_rows :
    see (exec (.recfScore 0x8000) (on 0 record)) (fun t => t.scoreValue) = some (-32768) ∧
    see (exec (.recfPly 0xFFFF) (on 0 record)) (fun t => t.ply.toNat) = some 65535 ∧
    see (exec (.recfResult 0x80) (on 0 record)) (fun t => t.resultValue) = some (-128) ∧
    see (exec (.recfMove 0x7C38) (on 0 record)) (fun t => (t.movew, t.mpromo)) = some (0x7C38, 5) ∧
    see (exec (.recfPadding 0xAA) (on 0 record)) (fun t => (t.resp, t.rp)) = some (.ok, 0) ∧
    see (exec (.recfPosition v22) (on 0 record)) (fun t => (t.epsq, t.pos, t.rp)) = some (20, 109, 0) := by
  decide +kernel

/-- V82, V83, V86. -/
theorem test_latch :
    see (exec (.moveDec 0x0D24) latched) (fun t => (t.resp, t.err)) = some (.refused, 2) ∧
    see (exec .errClr latched) (fun t => (t.resp, t.err)) = some (.ok, 0) ∧
    see (exec .reservedE State.reset) (fun t => t.resp) = some .refused := by decide +kernel

/-- The step after placing a word runs it. -/
theorem test_fetch_word :
    see (step (State.reset.withFetchWord 16 0x7C38)) (fun t => (t.mpromo, t.inbox)) = some (5, []) ∧
    see (step (State.reset.withFetchWord 8 0x19)) (fun t => (t.pk, t.pcol, t.pos)) = some (5, 1, 5) ∧
    see (step (State.reset.withFetchWord 256 0x1E08)) (fun t => (t.board.getD 60 0, t.fmn, t.pos)) =
      some (0xE, 0, 103) := by decide +kernel

/-! ### Every statement's hypotheses are met somewhere: for each clause a case, at the edge of its range -/

/-- The least and the greatest run, an empty and a full buffer. -/
theorem witness_DecodeOfEncode :
    Instr.wellFormed (.posfPieces p20.syms) = true ∧ Instr.wellFormed (.posfPieces p27.syms) = true ∧
    Instr.wellFormed (.curAttach 0 []) = true ∧ Instr.wellFormed (.posDec 32 v20) = true := by decide +kernel

theorem witness_EncodingEndsItself :
    Instr.wellFormed (.curAttach 2 two) = true ∧
    ∀ n, Instr.curAttach 2 two ≠ .recOpen n :=
  ⟨by decide, fun _ h => by cases h⟩

theorem witness_PieceCodesPrefixFree :
    formatOf (.pawn 1) = .pieceSymbol ∧ formatOf .empty = .pieceSymbol ∧
    encode (.pawn 1) ++ [] = encode (.pawn 1) := by
  decide +kernel

/-- A request in the inbox. -/
def asked (r : Request) (s : State) : State := { s with inbox := [r] }

theorem witness_StepRunsDecoded_words :
    (decode .command [false, true, false, false] = .ok (.curRdbit, []) ∧
      (asked (.command [false, true, false, false]) (at_ 0 two)).inbox = [.command [false, true, false, false]]) ∧
    decode .moveWord (List.replicate 16 true) = .ok (.moveCastle 3 63 63, []) := by decide +kernel

theorem witness_StepRunsDecoded_cursor :
    (at_ 3 [0xB8]).err = 0 ∧ decode .pieceSymbol (bitsAhead (cursorOf (at_ 3 [0xB8]))) = .ok (.rook 1, []) ∧
    decode (.posField .k1) (bitsAhead (cursorOf (at_ 2 [0xFC]))) = .ok (.posfK1 63, []) ∧
    (PosField.k1 ≠ .epsq) ∧
    decode (.posPieces 62) (bitsAhead (cursorOf { at_ 13 v20 with work := { Work.fresh with k2 := 60 } })) =
      .ok (.posfPieces p20.syms, bitsAhead (cursorOf (at_ 75 v20))) := by decide +kernel

theorem witness_StepRunsDecoded_record :
    (on 0 record).err = 0 ∧ (on 0 record).opn = 1 ∧
    (on 0 record).rp + recOffset .padding + recSize .padding = 40 ∧
    (on 0 record).fsize = 40 ∧ readRange (on 0 record).stream 39 1 = some [0xAA] ∧
    decode (.recField .padding) (bitsOfBytes [0xAA]) = .ok (.recfPadding 0xAA, []) := by decide +kernel

theorem witness_IssuedCommandRuns :
    Instr.wellFormed (.posDec 32 v20) = true ∧ formatOf (.posDec 32 v20) = .command := by
  decide +kernel

theorem witness_StepOtherwise :
    State.reset.inbox = [] ∧ State.reset.err = 0 ∧ bitsAhead (cursorOf State.reset) ++ [false] = encode .empty ∧
    bitsAhead (cursorOf (at_ 4 [0x10])) ++ [true] = encode (.pawn 1) ∧
    bitsAhead (cursorOf (at_ 5 [0x60])) ++ [true] = encode .illegalB ∧
    formatOf (.posfK1 1) = .posField .k1 ∧
    8 * (at_ 11 two).len.toNat < (at_ 11 two).pos.toNat + (encode (.posfK1 1)).length ∧
    (at_ 16 two).pos.toNat = 8 * (at_ 16 two).len.toNat ∧ (List.replicate 15 true).length < 16 ∧
    decode (.posPieces 63) (bitsAhead (cursorOf (at_ 0 two))) = .error .badPieceCode ∧
    decode (.posPieces 63) (bitsAhead (cursorOf (at_ 0 [0]))) = .error .tooShort ∧
    (on 0 (record.take 39)).fsize < (on 0 (record.take 39)).rp + recOffset .padding + recSize .padding ∧
    (on 0 record).opn = 1 ∧ latched.err ≠ 0 ∧ State.reset.work.epv = 0 ∧ State.reset.opn = 0 ∧
    decode .command [true, true, false] = .error .tooShort := by decide +kernel

theorem witness_RecordFieldsFetched :
    (on 0 record).err = 0 ∧ (on 0 record).opn = 1 ∧ (on 0 record).rp + 40 = (on 0 record).fsize ∧
    readByte (on 0 record).stream 32 = some 0xDB ∧ readByte (on 0 record).stream 33 = some 0xFF ∧
    readByte (on 0 record).stream 34 = some 0x24 ∧ readByte (on 0 record).stream 35 = some 0x0D ∧
    readByte (on 0 record).stream 36 = some 0x01 ∧ readByte (on 0 record).stream 37 = some 0x00 ∧
    readByte (on 0 record).stream 38 = some 0xFF ∧ readByte (on 0 record).stream 39 = some 0xAA ∧
    readRange (on 0 record).stream 0 32 = some v20 := by decide +kernel

theorem witness_AfterReset :
    v20.length = 32 ∧ 1 ≤ (1 : BitVec 5).toNat ∧ (16 : BitVec 5).toNat ≤ 16 := by decide +kernel

theorem witness_ErrClrClears :
    latched.err ≠ 0 ∧ see (exec .curRdbit latched) (fun t => t.err) = some 2 ∧ Instr.curRdbit ≠ .errClr := by
  decide +kernel

theorem witness_LatchedFaultRefusesAll : latched.err ≠ 0 ∧ Instr.recRead ≠ .errClr := by decide +kernel

theorem witness_FaultEntry :
    see (exec .pieceDec (at_ 0 [0x0B])) (fun t => t.resp) = some (.fault .corruptEncoding) ∧
    see (exec .curRdbit State.reset) (fun t => t.resp) = some (.fault .truncatedRecord) := by decide +kernel

theorem witness_RefusalChangesNothing : see (exec .recRead State.reset) (fun t => t.resp) = some .refused := by
  decide +kernel

/-- Each ground of a refusal, and none of them. -/
theorem witness_RefusedExactlyWhen :
    formatOf .reservedC = .command ∧ isReserved .reservedC = true ∧
    operandOutOfRange (.curRdbits 17) = true ∧ operandOutOfRange (.curRdbits 16) = false ∧
    operandOutOfRange (.curAttach 33 []) = true ∧ operandOutOfRange (.posDec 32 v20) = false ∧
    needsOpen .recCount = true ∧ State.reset.opn = 0 ∧ (on 0 record).opn = 1 := by decide +kernel

theorem witness_WhichCommandsFault :
    formatOf .recRead = .command ∧
    see (exec .recRead (on 0 (record.take 39))) (fun t => t.resp) = some (.fault .truncatedRecord) ∧
    see (exec .recRead (on 0 (v32 ++ tail8))) (fun t => t.resp) = some (.fault .corruptEncoding) := by decide +kernel

theorem witness_RefusalRemembered :
    see (exec .recRead State.reset) (fun t => (t.resp, t.refusedSeen)) = some (.refused, true) ∧
    see (exec .errClr State.reset) (fun t => t.isFinal) = some true := by decide +kernel

theorem witness_CurAttachEffect :
    State.reset.err = 0 ∧ (32 : BitVec 6).toNat ≤ 32 ∧ v20.length = (32 : BitVec 6).toNat ∧
    ([] : List Byte).length = (0 : BitVec 6).toNat := by decide +kernel

/-- The last bit and the first missing one. -/
theorem witness_CurRdbitEffect :
    (at_ 15 two).err = 0 ∧ (at_ 15 two).pos.toNat / 8 < (at_ 15 two).len.toNat ∧
    (at_ 16 two).len.toNat ≤ (at_ 16 two).pos.toNat / 8 := by decide +kernel

/-- A read to the very end, a read of no bit at the end, a read one bit too long. -/
theorem witness_CurRdbitsEffect :
    (at_ 0 two).err = 0 ∧ (16 : BitVec 5).toNat ≤ 16 ∧
    (at_ 0 two).pos.toNat + (16 : BitVec 5).toNat = 8 * (at_ 0 two).len.toNat ∧
    (at_ 16 two).pos.toNat + (0 : BitVec 5).toNat ≤ 8 * (at_ 16 two).len.toNat ∧
    (at_ 1 two).pos.toNat ≤ 8 * (at_ 1 two).len.toNat ∧
    8 * (at_ 1 two).len.toNat < (at_ 1 two).pos.toNat + (16 : BitVec 5).toNat := by decide +kernel

theorem witness_RdbitsSplit :
    (16 : BitVec 5).toNat = (8 : BitVec 5).toNat + (8 : BitVec 5).toNat ∧ (16 : BitVec 5).toNat ≤ 16 ∧
    (at_ 0 two).err = 0 ∧ (at_ 0 two).pos.toNat + (16 : BitVec 5).toNat ≤ 8 * (at_ 0 two).len.toNat := by
  decide +kernel

theorem witness_RdbitsByteAligned :
    (at_ 8 two).err = 0 ∧ (at_ 8 two).pos.toNat = 8 * 1 ∧ 1 + 1 ≤ (at_ 8 two).len.toNat ∧
    (at_ 0 two).pos.toNat = 8 * 0 ∧ 0 + 2 ≤ (at_ 0 two).len.toNat := by decide +kernel

theorem witness_PosNeverGoesBack :
    see (exec (.curAttach 0 []) (at_ 9 two)) (fun t => decide (t.pos.toNat < (at_ 9 two).pos.toNat)) = some true := by
  decide +kernel

theorem witness_PieceDecDecodes :
    bitsAhead (cursorOf (at_ 7 [0])) = [false] ∧
    bitsAhead (cursorOf (at_ 3 [0x08])) = [true, false, false, false, false] ∧
    bitsAhead (cursorOf (at_ 3 [0x98])) = [true, true, false, false, true] ∧
    bitsAhead (cursorOf (at_ 3 [0x28])) = [true, false, true, false, false] ∧
    bitsAhead (cursorOf (at_ 3 [0xB8])) = [true, true, true, false, true] ∧
    bitsAhead (cursorOf (at_ 3 [0x48])) = [true, false, false, true, false] ∧ (at_ 3 [0x48]).err = 0 := by
  decide +kernel

theorem witness_PieceDecRejects :
    bitsAhead (cursorOf (at_ 4 [0xB0])) = [true, true, false, true] ++ [] ∧
    bitsAhead (cursorOf (at_ 4 [0xD0])) = [true, false, true, true] ++ [] ∧
    bitsAhead (cursorOf (at_ 4 [0xF0])) = [true, true, true, true] ++ [] ∧ (at_ 4 [0xF0]).err = 0 ∧
    bitsAhead (cursorOf (at_ 4 [0x10])) ++ [true] = encode (.pawn 1) ∧
    bitsAhead (cursorOf (at_ 5 [0x60])) ++ [true] = encode .illegalB ∧
    bitsAhead (cursorOf State.reset) ++ [false] = encode .empty := by decide +kernel

theorem witness_PieceDecIsSymbolRow : (at_ 4 [0x10]).err = 0 := by decide +kernel

theorem witness_PieceSymbolRows :
    (at_ 7 [0]).err = 0 ∧ (at_ 7 [0]).pos.toNat + 1 = 8 * (at_ 7 [0]).len.toNat ∧
    (at_ 3 [0]).pos.toNat + 5 = 8 * (at_ 3 [0]).len.toNat ∧ 8 * (at_ 4 [0]).len.toNat < (at_ 4 [0]).pos.toNat + 5 ∧
    8 * (at_ 8 [0]).len.toNat < (at_ 8 [0]).pos.toNat + 1 := by decide +kernel

theorem witness_IllegalCodesRaise :
    (at_ 4 [0]).err = 0 ∧ (at_ 4 [0]).pos.toNat + 4 = 8 * (at_ 4 [0]).len.toNat ∧
    8 * (at_ 5 [0]).len.toNat < (at_ 5 [0]).pos.toNat + 4 := by decide +kernel

/-- The bits after a stream. -/
def padOf (p : PosStream) (data : List Byte) : List Bool := (bitsOfBytes data).drop p.bits.length

theorem heads_p20 : p20.heads v20 := ⟨by decide, padOf p20 v20, by decide +kernel⟩

theorem heads_p22 : p22.heads v22 := ⟨by decide, padOf p22 v22, by decide +kernel⟩

theorem heads_p27 : p27.heads v27 := ⟨by decide, padOf p27 v27, by decide +kernel⟩

theorem count_p20 : p20.countOk := show (_ : Nat) = _ by decide +kernel

theorem count_p22 : p22.countOk := show (_ : Nat) = _ by decide +kernel

theorem count_p27 : p27.countOk := show (_ : Nat) = _ by decide +kernel

/-- Two Kings; an en-passant square; one king square and exactly 256 bits. -/
theorem witness_PosDecDecodes :
    State.reset.err = 0 ∧ (p20.countOk ∧ p20.heads v20) ∧ (p22.countOk ∧ p22.heads v22) ∧ p27.countOk ∧
      p27.heads v27 ∧ p27.bits.length = 256 :=
  ⟨rfl, ⟨count_p20, heads_p20⟩, ⟨count_p22, heads_p22⟩, count_p27, heads_p27, by decide +kernel⟩

theorem witness_StreamLength : p20.countOk ∧ p27.countOk := ⟨count_p20, count_p27⟩

theorem witness_PosDecShortFaults : State.reset.err = 0 ∧ (31 : BitVec 6).toNat < 32 := by decide

theorem witness_PosDecTooLongFaults :
    p31.countOk ∧ 256 < p31.bits.length ∧ v31.length = 32 ∧ bitsOfBytes v31 = p31.bits.take 256 :=
  ⟨show (_ : Nat) = _ by decide +kernel, by decide +kernel, by decide, by decide +kernel⟩

/-- An unassigned code on the first square and on the last one. -/
theorem witness_PosDecCorruptFaults :
    (([] : List PieceSym).length < 62 ∧ v32.length = 32 ∧
      bitsOfBytes v32 = bitsOf (0 : Bit) ++ bitsOf (4 : Sq) ++ bitsOf (60 : Sq) ++
        ([] : List PieceSym).flatMap encodeSym ++ bitsOfNat 4 0b1011 ++ (bitsOfBytes v32).drop 17) ∧
    (List.replicate 61 PieceSym.empty).length < 62 ∧ lastBad.length = 32 ∧
    bitsOfBytes lastBad = bitsOf (0 : Bit) ++ bitsOf (4 : Sq) ++ bitsOf (60 : Sq) ++
      (List.replicate 61 PieceSym.empty).flatMap encodeSym ++ bitsOfNat 4 0b1111 ++ (bitsOfBytes lastBad).drop 78 := by
  decide +kernel

theorem witness_KingPlacement :
    see (exec (.posDec 32 v20) State.reset) (fun t => t.resp) = some .ok ∧
    see (exec (.recfPosition v27) (on 0 record)) (fun t => t.resp) = some .ok ∧
    see (exec .recRead (on 0 record)) (fun t => t.resp) = some .ok ∧
    readRange (on 0 record).stream (on 0 record).rp 32 = some v20 ∧ v20.length = 32 ∧ v27.length = 32 := by
  decide +kernel

theorem witness_PositionHeadRows :
    (at_ 7 [0]).err = 0 ∧ (at_ 7 [0]).pos.toNat + 1 = 8 * (at_ 7 [0]).len.toNat ∧
    (at_ 2 [0]).pos.toNat + 6 = 8 * (at_ 2 [0]).len.toNat := by decide +kernel

/-- The scratch position of V20 before its pieces. -/
def beforePieces : State := { at_ 13 v20 with work := { Work.fresh with k1 := 4, k2 := 60 } }

theorem witness_PositionPiecesRow :
    beforePieces.err = 0 ∧
    p20.syms.length = (dueSquares beforePieces.work.k1 beforePieces.work.k2).length ∧
    beforePieces.pos.toNat + (encode (.posfPieces p20.syms)).length ≤ 8 * beforePieces.len.toNat ∧
    p27.syms.length ≠ (dueSquares beforePieces.work.k1 beforePieces.work.k2).length ∧
    ({ beforePieces with pos := 194 } : State).pos.toNat + (encode (.posfPieces p20.syms)).length =
      8 * beforePieces.len.toNat ∧
    8 * beforePieces.len.toNat <
      ({ beforePieces with pos := 195 } : State).pos.toNat + (encode (.posfPieces p20.syms)).length := by
  decide +kernel

/-- The first rank visited is 7, the files go up, and the last square is h1 (42_position.md R113). -/
theorem test_visited :
    visitedSquares.take 9 = [56, 57, 58, 59, 60, 61, 62, 63, 48] ∧ visitedSquares.getLast? = some 7 := by
  decide +kernel

theorem witness_PositionTailRows :
    (at_ 7 [0]).pos.toNat + 1 = 8 * (at_ 7 [0]).len.toNat ∧ (at_ 2 [0]).pos.toNat + 6 = 8 * (at_ 2 [0]).len.toNat ∧
    (at_ 0 [0]).pos.toNat + 8 = 8 * (at_ 0 [0]).len.toNat ∧ (at_ 0 [0]).err = 0 ∧
    ({ at_ 2 [0] with work := { Work.fresh with epv := 1 } } : State).work.epv = 1 := by decide +kernel

theorem witness_PositionLastRow : (at_ 7 [0]).err = 0 ∧ (at_ 7 [0]).pos.toNat + 1 ≤ 8 * (at_ 7 [0]).len.toNat := by
  decide +kernel

theorem witness_PositionRowsCutOff :
    formatOf (.posfFmnLo 1) = .posField .fmnLo ∧
    8 * (at_ 1 [0]).len.toNat < (at_ 1 [0]).pos.toNat + (encode (.posfFmnLo 1)).length ∧ (at_ 1 [0]).err = 0 ∧
    formatOf (.posfEpsq 20) = .posField .epsq ∧ (at_ 1 [0]).work.epv = 0 := by decide +kernel

theorem witness_PosDecIsItsRows :
    State.reset.err = 0 ∧ p22.countOk ∧ p22.heads v22 ∧ p27.countOk ∧ p27.heads v27 :=
  ⟨rfl, count_p22, heads_p22, count_p27, heads_p27⟩

theorem witness_MoveDecEffect : State.reset.err = 0 := rfl

theorem witness_MoveFormRows : (at_ 0 two).err = 0 := rfl

theorem witness_RecOpenEffect : State.reset.err = 0 := rfl

theorem witness_RecCountAnswers :
    (on 0 record).err = 0 ∧ (on 0 record).opn = 1 ∧ (39 : Nat) < 40 ∧
    (on 0 (List.replicate 79 0)).stream.size = 40 * 1 + 39 ∧ (on 0 []).stream.size = 40 * 0 + 0 := by decide +kernel

/-- Exactly 40 bytes left, 39, and no reader. -/
theorem witness_RecRawEffect :
    (on 0 record).err = 0 ∧ (on 0 record).opn = 1 ∧ (on 0 record).rp + 40 = (on 0 record).fsize ∧
    (on 0 record).fsize ≤ (on 0 record).stream.size ∧ (on 1 record).fsize < (on 1 record).rp + 40 ∧
    (on 1 record).opn = 1 ∧ State.reset.opn = 0 := by decide +kernel

theorem witness_RecReadDecodes :
    (on 0 record).err = 0 ∧ (on 0 record).opn = 1 ∧ (on 0 record).rp + 40 ≤ (on 0 record).fsize ∧
    readRange (on 0 record).stream 0 32 = some v20 ∧
    readRange (on 0 record).stream 32 8 = some [0xDB, 0xFF, 0x24, 0x0D, 0x01, 0x00, 0xFF, 0xAA] ∧ p20.countOk ∧
    p20.heads v20 :=
  ⟨rfl, rfl, by decide +kernel, by decide +kernel, by decide +kernel, count_p20, heads_p20⟩

theorem witness_RecReadIsItsParts :
    (on 0 record).err = 0 ∧ (on 0 record).opn = 1 ∧ (on 0 record).rp + 40 ≤ (on 0 record).fsize ∧
    (on 0 record).fsize ≤ (on 0 record).stream.size ∧
    see (exec (.posDec 32 v20) (on 0 record)) (fun t => t.resp) = some .ok := by decide +kernel

/-- Fewer than 32 bytes; from 32 on with either fault of the position, with neither and 39 left, with neither and 40
left. -/
theorem witness_RecReadFaultOrder :
    ((on 9 record).fsize < (on 9 record).rp + 32 ∧ (on 9 record).fsize ≤ (on 9 record).stream.size) ∧
    (see (exec (.posDec 32 v31) (on 0 v31)) (fun t => t.resp) = some (.fault .truncatedRecord) ∧
      (on 0 v31).fsize = 32) ∧
    (see (exec (.posDec 32 v32) (on 0 v32)) (fun t => t.resp) = some (.fault .corruptEncoding) ∧
      readRange (on 0 v32).stream 0 32 = some v32) ∧
    ((on 0 (record.take 39)).fsize < (on 0 (record.take 39)).rp + 40 ∧
      see (exec (.posDec 32 v20) (on 0 (record.take 39))) (fun t => t.resp) = some .ok) ∧
    (on 0 record).rp + 40 ≤ (on 0 record).fsize := by decide +kernel

theorem witness_RpSequencing :
    see (exec .recRead (on 0 record)) (fun t => (t.resp, t.rp)) = some (.ok, 40) ∧
    see (exec .recRead (on 9 record)) (fun t => (t.resp, t.rp)) = some (.fault .truncatedRecord, 9) := by decide +kernel

theorem witness_BadRecordSkipped :
    see (exec .recRead (on 0 (v32 ++ tail8))) (fun t => t.resp) = some (.fault .corruptEncoding) ∧
    (on 0 (v32 ++ tail8)).rp + 40 ≤ (on 0 (v32 ++ tail8)).fsize ∧
    (on 0 (v32 ++ tail8)).fsize ≤ (on 0 (v32 ++ tail8)).stream.size := by decide +kernel

/-- The shortest stream that holds each field, and one byte less. -/
theorem witness_RecordScalarRows :
    (on 0 (record.take 34)).err = 0 ∧ (on 0 (record.take 34)).opn = 1 ∧
    (on 0 (record.take 34)).rp + 34 = (on 0 (record.take 34)).fsize ∧
    (on 0 (record.take 38)).rp + 38 = (on 0 (record.take 38)).fsize ∧
    (on 0 (record.take 39)).rp + 39 = (on 0 (record.take 39)).fsize ∧
    (on 0 record).rp + 40 = (on 0 record).fsize ∧ formatOf (.recfScore 1) = .recField .score ∧
    (on 0 (record.take 33)).fsize < (on 0 (record.take 33)).rp + recOffset .score + recSize .score := by decide +kernel

theorem witness_RecordMoveAndPositionRows :
    (on 0 (record.take 36)).err = 0 ∧ (on 0 (record.take 36)).opn = 1 ∧
    (on 0 (record.take 36)).rp + 36 = (on 0 (record.take 36)).fsize ∧ (on 0 v20).rp + 32 = (on 0 v20).fsize ∧
    p20.countOk ∧ p20.heads v20 :=
  ⟨rfl, rfl, by decide +kernel, by decide +kernel, count_p20, heads_p20⟩

/-- Every cell of an empty board is legal. -/
theorem legal_empty : boardLegal (Vector.replicate 64 0) := by unfold boardLegal; decide +kernel

/-- A state that is not the one after reset and satisfies the invariant, with a request to take. -/
theorem witness_StepKeepsInvariant :
    StateInv (asked (.command [false, true, false, false]) (at_ 5 two)) ∧
    see (step (asked (.command [false, true, false, false]) (at_ 5 two))) (fun t => t.val) = some 1 :=
  ⟨⟨by decide +kernel, by decide +kernel, by decide +kernel, by decide +kernel, legal_empty, by decide +kernel,
      by decide +kernel, by decide +kernel, legal_empty, by decide +kernel, by decide +kernel,
      fun h => absurd h (by decide +kernel), by decide +kernel⟩, by decide +kernel⟩

theorem witness_OnlyNamedRegistersWritten :
    see (exec (.curRdbits 0) (at_ 5 two)) (fun t => t.resp) = some .ok ∧
    RegGroup.rp ≠ .err ∧ RegGroup.rp ∉ writtenBy (.curRdbits 0) := by decide +kernel

theorem witness_StreamNeverWritten :
    see (step (asked (.command [true, false, false, true]) (on 0 record))) (fun t => t.rp) = some 40 := by
  decide +kernel

theorem witness_ValueOnlyWhenCompleted :
    see (exec (.curRdbits 0) State.reset) (fun t => hostRead .val t) = some (some 0) ∧
    hostRead .val State.reset = none := by decide +kernel

theorem witness_EveryInstructionAnswers :
    (on 0 record).opn = 1 ∧ (on 0 record).fsize ≤ (on 0 record).stream.size := by
  decide +kernel

end Sys2Proof.Tests
end

/-! PROOFS of the state family (10_state.md): what an instruction can answer and which registers it leaves alone, the
invariant of the registers, the moves of `POS`, the Kings of a decoded position, the state after reset. -/

namespace Sys2Proof.Machine

/-! ### What an instruction can answer

`Effect` lists what a completing instruction does to the registers; `Answers` adds the ways not to complete. That
`exec` answers nothing else is `exec_answers`, and the claims below follow from it without opening `exec` again. -/

/-- `n` bits can be taken at the cursor: they end before the valid bytes do, or there are none (40_bitcursor.md R92). -/
def Advances (n : Nat) (s : State) : Prop := n = 0 ∨ s.pos.toNat + n ≤ 8 * s.len.toNat

/-- A hidden position that can occur: legal cells, and no en-passant square without its flag (10_state.md R16, R19). -/
structure WorkLegal (w : Work) : Prop where
  cells : boardLegal w.board
  epAbsent : w.epv = 0 → w.epsq = 0

/-- A decoded move that can occur: a promotion kind 2..5 exactly in the promotion form (10_state.md R24). -/
structure MoveLegal (m : Move) : Prop where
  promo : m.promo = 0 ∨ (2 ≤ m.promo.toNat ∧ m.promo.toNat ≤ 5)
  form : m.promo ≠ 0 ↔ m.special = 1

/-- What a completing instruction does to the registers, before the response. Rows that do the same to the same
registers share a constructor, and `writtenBy` says which rows they are. -/
inductive Effect : Instr → State → State → Prop
  | errClr {s : State} : Effect .errClr s (returnFromFault s)
  | attach {s : State} {len : BitVec 6} {data : List Byte} (hlen : len.toNat ≤ 32) :
      Effect (.curAttach len data) s (setCursor (attachCursor s.buf len.toNat data) s)
  | bits {i : Instr} {s : State} {n v : Nat} (hw : writtenBy i = [.pos, .val]) (hn : Advances n s) :
      Effect i s (setVal v (setPos (s.pos.toNat + n) s))
  | symbol {i : Instr} {s : State} {n : Nat} {sym : PieceSym} (hw : writtenBy i = [.pos, .piece]) (hn : Advances n s) :
      Effect i s (setPiece sym (setPos (s.pos.toNat + n) s))
  | field {i : Instr} {s : State} {n : Nat} {w : Work} (hw : writtenBy i = [.pos, .work]) (hn : Advances n s)
      (hwork : WorkLegal s.work → WorkLegal w) : Effect i s (setWork w (setPos (s.pos.toNat + n) s))
  | lastField {s : State} {h : Bit} (hn : Advances 1 s) :
      Effect (.posfHmcHi h) s (setPosition s.work h (setPos (s.pos.toNat + 1) s))
  | posDec {s : State} {len : BitVec 6} {data : List Byte} {p : Work × Bit × Cursor}
      (hp : decodePosition s.buf data len.toNat = .ok p) : Effect (.posDec len data) s (commitPosition p s)
  | recfPosition {s : State} {blob : List Byte} {p : Work × Bit × Cursor}
      (hp : decodePosition s.buf blob 32 = .ok p) : Effect (.recfPosition blob) s (commitPosition p s)
  | move {i : Instr} {s : State} {m : Move} (hw : writtenBy i = [.move]) (hm : MoveLegal m) : Effect i s (setMove m s)
  | recOpen {s : State} {soff : Nat} : Effect (.recOpen soff) s (setReader s.stream.size soff s)
  | recRead {s : State} {blob b : List Byte} {p : Work × Bit × Cursor} (hopn : s.opn = 1)
      (hblob : readRange s.stream s.rp 32 = some blob) (hp : decodePosition s.buf blob 32 = .ok p) :
      Effect .recRead s (setRp (s.rp + 40) (setScalars b (commitPosition p s)))
  | recRaw {s : State} {bs : List Byte} (hopn : s.opn = 1) : Effect .recRaw s (setRp (s.rp + 40) (setRaw bs s))
  | recfScore {s : State} {v : Half} : Effect (.recfScore v) s (setScore v s)
  | recfMove {s : State} {w : Half} : Effect (.recfMove w) s (setMove (decodeMove w) (setMovew w s))
  | recfPly {s : State} {v : Half} : Effect (.recfPly v) s (setPly v s)
  | recfResult {s : State} {v : Byte} : Effect (.recfResult v) s (setResult v s)
  | recfPadding {s : State} {v : Byte} : Effect (.recfPadding v) s s

/-- Every next state an instruction can answer with. -/
inductive Answers (i : Instr) (s : State) : State → Prop
  | refused : Answers i s (refuse s)
  | faulted (c : Cause) (herr : s.err = 0) : Answers i s (takeFault c s)
  | counted (hi : i = .recCount) : Answers i s (answer (.okCount s.count) s)
  | completed {u : State} (he : Effect i s u) : Answers i s (answer .ok u)

namespace Answers

variable {i : Instr} {s t u : State} {body : Result}

theorem of_complete (h : complete u = .next t) (he : Effect i s u) : Answers i s t := by
  injection h with h; exact h ▸ .completed he

theorem of_raiseFault {c : Cause} (herr : s.err = 0) (h : raiseFault c s = .next t) : Answers i s t := by
  injection h with h; exact h ▸ .faulted c herr

theorem of_refuse (h : (.next (refuse s) : Result) = .next t) : Answers i s t := by
  injection h with h; exact h ▸ .refused

theorem of_accepted (h : accepted s body = .next t) (hb : s.err = 0 → body = .next t → Answers i s t) :
    Answers i s t := by
  rcases accepted_next h with ⟨-, rfl⟩ | ⟨herr, hbody⟩
  · exact .refused
  · exact hb herr hbody

theorem of_opened (h : opened s body = .next t) (hb : s.err = 0 → s.opn = 1 → body = .next t → Answers i s t) :
    Answers i s t := by
  rcases opened_next h with ⟨-, rfl⟩ | ⟨herr, hopn, hbody⟩
  · exact .refused
  · exact hb herr hopn hbody

theorem of_withBytes {m : MemResult} {k : List Byte → Result} (herr : s.err = 0) (h : withBytes m s k = .next t)
    (hk : ∀ bs, m = .bytes bs → k bs = .next t → Answers i s t) : Answers i s t := by
  rcases withBytes_next h with ⟨bs, hm, hbs⟩ | ⟨-, rfl⟩
  · exact hk bs hm hbs
  · exact .faulted _ herr

theorem of_consumeSymbol {n : Nat} {e : State → State} (h : consumeSymbol n e s = .next t)
    (he : Advances n s → Effect i s (e (setPos (s.pos.toNat + n) s))) : Answers i s t := by
  rcases consumeSymbol_next h with ⟨-, rfl⟩ | ⟨-, hroom, rfl⟩ | ⟨herr, -, rfl⟩
  · exact .refused
  · exact .completed (he (.inr hroom))
  · exact .faulted _ herr

theorem of_consumeField {n : Nat} {f : Work → Work} (h : consumeField n f s = .next t)
    (hw : writtenBy i = [.pos, .work]) (hf : WorkLegal s.work → WorkLegal (f s.work)) : Answers i s t :=
  of_consumeSymbol h fun hn => .field hw hn hf

theorem of_deliverSym {sym : PieceSym} (h : deliverSym sym s = .next t) (hw : writtenBy i = [.pos, .piece]) :
    Answers i s t :=
  of_consumeSymbol h fun hn => .symbol hw hn

theorem of_rejectCode (h : rejectCode s = .next t) : Answers i s t := by
  rcases rejectCode_next h with ⟨-, rfl⟩ | ⟨herr, -, rfl⟩ | ⟨herr, -, rfl⟩
  · exact .refused
  · exact .faulted _ herr
  · exact .faulted _ herr

theorem of_setMove {m : Move} (h : accepted s (complete (setMove m s)) = .next t) (hw : writtenBy i = [.move])
    (hm : MoveLegal m) : Answers i s t :=
  of_accepted h fun _ hb => of_complete hb (.move hw hm)

theorem of_extractField {f : RecField} (h : extractField f s body = .next t)
    (hb : s.err = 0 → body = .next t → Answers i s t) : Answers i s t := by
  rcases extractField_next h with ⟨-, rfl⟩ | ⟨herr, -, -, hbody⟩ | ⟨herr, -, -, rfl⟩
  · exact .refused
  · exact hb herr hbody
  · exact .faulted _ herr

end Answers

/-! ### The values a decode can give -/

/-- `POS` does not wrap when it advances: the valid bytes end below 512 bits whatever `LEN` is. -/
theorem Advances.toNat_pos {n : Nat} {s : State} (h : Advances n s) :
    (BitVec.ofNat 9 (s.pos.toNat + n)).toNat = s.pos.toNat + n := by
  have hpos := s.pos.isLt
  have hlen := s.len.isLt
  rw [BitVec.toNat_ofNat, Nat.mod_eq_of_lt]
  rcases h with rfl | h <;> omega

theorem moveLegal_decodeMove (w : Half) : MoveLegal (decodeMove w) := by
  have hkind : ∀ special code : BitVec 2,
      (promoKind special code = 0 ∨ (2 ≤ (promoKind special code).toNat ∧ (promoKind special code).toNat ≤ 5)) ∧
        (promoKind special code ≠ 0 ↔ special = 1) := by decide
  obtain ⟨hpromo, hform⟩ := hkind (decodeMove w).special (BitVec.setWidth 2 (w >>> 12))
  exact ⟨hpromo, hform⟩

theorem moveLegal_promo (p : BitVec 2) (f t : Sq) :
    MoveLegal { orig := f, dest := t, promo := p.setWidth 3 + 2, special := 1 } := by
  have hkind : ∀ p : BitVec 2,
      (2 ≤ (p.setWidth 3 + 2).toNat ∧ (p.setWidth 3 + 2).toNat ≤ 5) ∧ p.setWidth 3 + 2 ≠ (0 : BitVec 3) := by decide
  obtain ⟨hrange, hne⟩ := hkind p
  exact ⟨.inr hrange, fun _ => rfl, fun _ => hne⟩

/-- The three forms without a promotion (30_encoding.md R71). -/
theorem moveLegal_plain {special : BitVec 2} (h : special ≠ 1) (f t : Sq) :
    MoveLegal { orig := f, dest := t, promo := 0, special := special } :=
  ⟨.inl rfl, fun hne => absurd rfl hne, fun hone => absurd hone h⟩

namespace WorkLegal

variable {w : Work}

theorem putCell {cell : BoardCell} (h : WorkLegal w) (hc : cellLegal cell = true) (sq : Sq) :
    WorkLegal (putCell sq cell w) := by
  refine ⟨fun k => ?_, h.epAbsent⟩
  show cellLegal ((w.board.setIfInBounds sq.toNat cell).getD k.toNat 0) = true
  rw [getD_set]
  split
  · exact hc
  · exact h.cells k

theorem putK1 (h : WorkLegal w) (k : Sq) : WorkLegal (putK1 k w) :=
  have hcell : WorkLegal (Machine.putCell k (boardCell 0 kingNumber) w) := h.putCell (by decide) k
  ⟨hcell.cells, hcell.epAbsent⟩

theorem putK2 (h : WorkLegal w) (k : Sq) : WorkLegal (putK2 k w) :=
  have hcell : WorkLegal (Machine.putCell k (boardCell 1 kingNumber) w) := h.putCell (by decide) k
  ⟨hcell.cells, hcell.epAbsent⟩

theorem putSym (h : WorkLegal w) (sq : Sq) (sym : PieceSym) : WorkLegal (putSym sq sym w) := by
  cases sym with
  | empty => exact h
  | man kind colour =>
    have hc : ∀ c : Bit, cellLegal (boardCell c (kindNumber kind)) = true := by cases kind <;> decide
    exact h.putCell (hc colour) sq

theorem placeRun {order : List Sq} {syms : List PieceSym} {w' : Work} (h : WorkLegal w)
    (hp : placeRun order syms w = some w') : WorkLegal w' := by
  induction order generalizing syms w with
  | nil =>
    rw [Machine.placeRun] at hp
    split at hp
    · exact Option.some.inj hp ▸ h
    · cases hp
  | cons sq order ih =>
    rw [Machine.placeRun] at hp
    split at hp
    · exact ih h hp
    · obtain ⟨sym, -, hrest⟩ := Option.bind_eq_some_iff.1 hp
      exact ih (h.putSym sq sym) hrest

theorem startWork (t : Bit) : WorkLegal (startWork t) := by
  refine ⟨fun k => ?_, fun _ => rfl⟩
  show cellLegal ((Vector.replicate 64 (0 : BoardCell)).getD k.toNat 0) = true
  rw [getD_vector _ _ _ k.isLt, Vector.getElem_replicate]
  rfl

theorem finishedWork (h : WorkLegal w) (p : PosStream) : WorkLegal (finishedWork p w) := by
  refine ⟨by rw [finishedWork_board]; exact h.cells, ?_⟩
  rw [finishedWork_epv, finishedWork_epsq]
  cases p.ep <;> simp

end WorkLegal

/-- A completed position decode leaves a legal position and a cursor inside its 32 bytes. -/
theorem decodePosition_legal {buf : Vector Byte 32} {data : List Byte} {len : Nat} {p : Work × Bit × Cursor}
    (h : decodePosition buf data len = .ok p) : WorkLegal p.1 ∧ p.2.2.len = 32 ∧ p.2.2.pos ≤ 256 := by
  obtain ⟨w, hHi, c⟩ := p
  unfold decodePosition at h
  split at h
  · cases h
  · obtain ⟨p, w4, hrun, rfl, -, hbits, rfl⟩ := readPosition_ok h
    have hlen := congrArg List.length hbits
    simp only [length_bitsAhead, List.length_append, attachCursor, cursorAfter_len, cursorAfter_pos,
      Config.posBytes] at hlen
    refine ⟨(((WorkLegal.startWork _).putK1 _).putK2 _ |>.placeRun hrun).finishedWork p, rfl, ?_⟩
    simp only [cursorAfter_pos, attachCursor]
    omega

/-! ### Every instruction, once -/

theorem curRdbit_answers {s t : State} (h : execCurRdbit s = .next t) : Answers .curRdbit s t := by
  refine .of_accepted h fun herr hb => ?_
  rw [readBit_eq] at hb
  cases hbits : bitsAhead (cursorOf s) with
  | nil => rw [hbits] at hb; exact .of_raiseFault herr hb
  | cons b r =>
    have hlen := congrArg List.length hbits
    simp only [length_bitsAhead, List.length_cons, cursorOf] at hlen
    rw [hbits] at hb
    exact .of_complete hb (.bits (n := 1) rfl (.inr (by omega)))

theorem curRdbits_answers {n : BitVec 5} {s t : State} (h : execCurRdbits n s = .next t) :
    Answers (.curRdbits n) s t := by
  refine .of_accepted h fun herr hb => ?_
  split at hb
  · rw [readBits_eq] at hb
    by_cases hn : n.toNat ≤ (bitsAhead (cursorOf s)).length
    · rw [if_pos hn] at hb
      have hadv : Advances n.toNat s := by
        simp only [length_bitsAhead, cursorOf] at hn
        simp only [Advances]
        omega
      exact .of_complete hb (.bits rfl hadv)
    · rw [if_neg hn] at hb; exact .of_raiseFault herr hb
  · exact .of_refuse hb

theorem pieceDec_answers {s t : State} (h : execPieceDec s = .next t) : Answers .pieceDec s t := by
  refine .of_accepted h fun herr hb => ?_
  cases hd : decodePiece (cursorOf s) with
  | error c => rw [hd] at hb; exact .of_raiseFault herr hb
  | ok p =>
    obtain ⟨sym, c⟩ := p
    obtain ⟨hbits, rfl⟩ := decodePiece_ok hd
    have hlen := congrArg List.length hbits
    simp only [length_bitsAhead, List.length_append, length_encodeSym, cursorAfter_len, cursorAfter_pos,
      cursorOf] at hlen
    rw [hd] at hb
    refine .of_complete hb (.symbol rfl ?_)
    simp only [Advances]
    omega

theorem posDec_answers {len : BitVec 6} {data : List Byte} {s t : State} (h : execPosDec len data s = .next t) :
    Answers (.posDec len data) s t := by
  refine .of_accepted h fun herr hb => ?_
  split at hb
  · split at hb
    · exact .of_raiseFault herr hb
    · rename_i p hp; exact .of_complete hb (.posDec hp)
  · exact .of_refuse hb

theorem posfPieces_answers {syms : List PieceSym} {s t : State} (h : execPosfPieces syms s = .next t) :
    Answers (.posfPieces syms) s t := by
  refine .of_accepted h fun _ hb => ?_
  split at hb
  · exact .of_refuse hb
  · rename_i w hw; exact .of_consumeField hb rfl fun hl => hl.placeRun hw

theorem posfEpsq_answers {sq : Sq} {s t : State} (h : execPosfEpsq sq s = .next t) : Answers (.posfEpsq sq) s t := by
  refine .of_accepted h fun _ hb => ?_
  split at hb
  · rename_i hflag
    exact .of_consumeField hb rfl fun hl => ⟨hl.cells, fun hzero => absurd (hflag.symm.trans hzero) (by decide)⟩
  · exact .of_refuse hb

theorem memRead_bytes {s : State} {a n : Nat} {bs : List Byte} (h : memRead s a n = .bytes bs) :
    readRange s.stream a n = some bs := by
  unfold memRead at h
  split at h
  · cases h
  · split at h
    · rename_i bs' hbs; injection h with h; exact h ▸ hbs
    · cases h

theorem recRead_answers {s t : State} (h : execRecRead s = .next t) : Answers .recRead s t := by
  refine .of_opened h fun herr hopn hb => .of_withBytes herr hb fun blob hblob hb => ?_
  split at hb
  · exact .of_raiseFault herr hb
  · rename_i p hp
    exact .of_withBytes herr hb fun b _ hb => .of_complete hb (.recRead hopn (memRead_bytes hblob) hp)

theorem recRaw_answers {s t : State} (h : execRecRaw s = .next t) : Answers .recRaw s t :=
  .of_opened h fun herr hopn hb => .of_withBytes herr hb fun _ _ hb => .of_complete hb (.recRaw hopn)

theorem recfPosition_answers {blob : List Byte} {s t : State} (h : execRecfPosition blob s = .next t) :
    Answers (.recfPosition blob) s t := by
  refine .of_extractField h fun herr hb => ?_
  split at hb
  · exact .of_raiseFault herr hb
  · rename_i p hp; exact .of_complete hb (.recfPosition hp)

/-- Everything an instruction can answer as a next state. -/
theorem exec_answers {i : Instr} {s t : State} (h : exec i s = .next t) : Answers i s t := by
  cases i with
  | errClr => exact .of_complete h .errClr
  | curAttach len data =>
    refine .of_accepted h fun _ hb => ?_
    split at hb
    · rename_i hlen; exact .of_complete hb (.attach ((lenInRange_iff len).1 hlen))
    · exact .of_refuse hb
  | curRdbit => exact curRdbit_answers h
  | curRdbits n => exact curRdbits_answers h
  | pieceDec => exact pieceDec_answers h
  | posDec len data => exact posDec_answers h
  | moveDec w => exact .of_setMove h rfl (moveLegal_decodeMove w)
  | reserved7 | reservedC | reservedD | reservedE | reservedF => exact .of_refuse h
  | recOpen soff => exact .of_accepted h fun _ hb => .of_complete hb .recOpen
  | recRead => exact recRead_answers h
  | recRaw => exact recRaw_answers h
  | recCount => exact .of_opened h fun _ _ hb => by injection hb with hb; exact hb ▸ .counted rfl
  | empty | pawn | knight | bishop | rook | queen => exact .of_deliverSym h rfl
  | illegalB | illegalD | illegalF => exact .of_rejectCode h
  | moveNone p f t => exact .of_setMove h rfl (moveLegal_plain (by decide) f t)
  | movePromo p f t => exact .of_setMove h rfl (moveLegal_promo p f t)
  | moveEp p f t => exact .of_setMove h rfl (moveLegal_plain (by decide) f t)
  | moveCastle p f t => exact .of_setMove h rfl (moveLegal_plain (by decide) f t)
  | posfTurn t => exact .of_consumeField (f := fun _ => startWork t) h rfl fun _ => .startWork t
  | posfK1 k => exact .of_consumeField h rfl fun hl => hl.putK1 k
  | posfK2 k => exact .of_consumeField h rfl fun hl => hl.putK2 k
  | posfPieces syms => exact posfPieces_answers h
  | posfEpf e => exact .of_consumeField h rfl fun hl => ⟨hl.cells, fun _ => rfl⟩
  | posfEpsq sq => exact posfEpsq_answers h
  | posfWk | posfWq | posfBk | posfBq | posfHmcLo | posfFmnLo | posfFmnHi =>
    exact .of_consumeField h rfl fun hl => ⟨hl.cells, hl.epAbsent⟩
  | posfHmcHi b => exact .of_consumeSymbol h fun hn => .lastField hn
  | recfPosition blob => exact recfPosition_answers h
  | recfScore v => exact .of_extractField h fun _ hb => .of_complete hb .recfScore
  | recfMove w => exact .of_extractField h fun _ hb => .of_complete hb .recfMove
  | recfPly v => exact .of_extractField h fun _ hb => .of_complete hb .recfPly
  | recfResult v => exact .of_extractField h fun _ hb => .of_complete hb .recfResult
  | recfPadding v => exact .of_extractField h fun _ hb => .of_complete hb .recfPadding

end Sys2Proof.Machine

namespace Sys2Proof.Machine

/-! ### The invariant of the registers, update by update (93_implementation_defined.md U14) -/

namespace StateInv

variable {s : State}

theorem withInbox (h : StateInv s) (rest : List Request) : StateInv { s with inbox := rest } := { h with }

theorem answer (h : StateInv s) (r : Response) : StateInv (answer r s) := { h with }

theorem refuse (h : StateInv s) : StateInv (refuse s) := { h with }

theorem takeFault (h : StateInv s) (c : Cause) : StateInv (takeFault c s) :=
  { h with errLegal := by rw [takeFault_err]; cases c <;> decide }

theorem returnFromFault (h : StateInv s) : StateInv (returnFromFault s) :=
  { h with errLegal := by simp }

theorem setCursor (h : StateInv s) {c : Cursor} (hlen : c.len ≤ 32) (hpos : c.pos ≤ 8 * c.len) :
    StateInv (setCursor c s) :=
  { h with
    lenBound := by rw [setCursor_len, BitVec.toNat_ofNat]; omega
    posBound := by rw [setCursor_len, setCursor_pos, BitVec.toNat_ofNat, BitVec.toNat_ofNat]; omega }

theorem setPos (h : StateInv s) {n : Nat} (hn : Advances n s) : StateInv (setPos (s.pos.toNat + n) s) :=
  { h with
    posBound := by
      rw [setPos_pos, hn.toNat_pos, setPos_len]
      have hpos := h.posBound
      rcases hn with rfl | hn <;> omega }

theorem setVal (h : StateInv s) (v : Nat) : StateInv (setVal v s) := { h with }

theorem setPiece (h : StateInv s) (sym : PieceSym) : StateInv (setPiece sym s) :=
  { h with
    pieceLegal := by
      rw [setPiece_pk, setPiece_pcol]
      cases sym with
      | empty => decide
      | man kind colour => cases kind <;> simp [symKind, kindNumber] }

theorem setPosition (h : StateInv s) {w : Work} (hw : WorkLegal w) (hHi : Bit) : StateInv (setPosition w hHi s) :=
  { h with boardCells := hw.cells, epAbsent := hw.epAbsent }

theorem setWork (h : StateInv s) {w : Work} (hw : WorkLegal w) : StateInv (setWork w s) :=
  { h with workCells := hw.cells, workEpAbsent := hw.epAbsent }

theorem setMove (h : StateInv s) {m : Move} (hm : MoveLegal m) : StateInv (setMove m s) :=
  { h with promoLegal := hm.promo, promoForm := hm.form }

theorem setScore (h : StateInv s) (v : Half) : StateInv (setScore v s) := { h with }

theorem setMovew (h : StateInv s) (v : Half) : StateInv (setMovew v s) := { h with }

theorem setPly (h : StateInv s) (v : Half) : StateInv (setPly v s) := { h with }

theorem setResult (h : StateInv s) (v : Byte) : StateInv (setResult v s) := { h with }

theorem setRaw (h : StateInv s) (bs : List Byte) : StateInv (setRaw bs s) := { h with }

theorem setScalars (h : StateInv s) (b : List Byte) : StateInv (setScalars b s) :=
  (((h.setScore _).setMovew _).setMove (moveLegal_decodeMove _)).setPly _ |>.setResult _

theorem openAt (h : StateInv s) (soff : Nat) : StateInv (setReader s.stream.size soff s) :=
  { h with
    closedReader := fun hopn => absurd hopn (by simp)
    openReader := fun _ => ⟨rfl, rfl, 0, rfl⟩ }

/-- `RP` moves by a whole record, and only of an opened reader (44_record.md R141). -/
theorem nextRecord (h : StateInv s) (hopn : s.opn = 1) : StateInv (setRp (s.rp + 40) s) :=
  { h with
    closedReader := fun hzero => absurd (hopn.symm.trans hzero) (by decide)
    openReader := fun _ => by
      obtain ⟨hsize, hcount, j, hrp⟩ := h.openReader hopn
      exact ⟨hsize, hcount, j + 1, by rw [setRp_rp, setRp_soff, hrp]; omega⟩ }

theorem workLegal (h : StateInv s) : WorkLegal s.work := ⟨h.workCells, h.workEpAbsent⟩

theorem commitPosition (h : StateInv s) {buf : Vector Byte 32} {data : List Byte} {len : Nat}
    {p : Work × Bit × Cursor} (hp : decodePosition buf data len = .ok p) : StateInv (commitPosition p s) := by
  obtain ⟨hwork, hlen, hpos⟩ := decodePosition_legal hp
  exact (h.setCursor (by omega) (by omega)).setPosition hwork _

end StateInv

theorem Effect.stateInv {i : Instr} {s u : State} (he : Effect i s u) (h : StateInv s) : StateInv u := by
  cases he with
  | errClr => exact h.returnFromFault
  | attach hlen => exact h.setCursor hlen (Nat.zero_le _)
  | bits _ hn => exact (h.setPos hn).setVal _
  | symbol _ hn => exact (h.setPos hn).setPiece _
  | field _ hn hwork => exact (h.setPos hn).setWork (hwork h.workLegal)
  | lastField hn => exact (h.setPos hn).setPosition h.workLegal _
  | posDec hp => exact h.commitPosition hp
  | recfPosition hp => exact h.commitPosition hp
  | move _ hm => exact h.setMove hm
  | recOpen => exact h.openAt _
  | recRead hopn _ hp => exact ((h.commitPosition hp).setScalars _).nextRecord hopn
  | recRaw hopn => exact (h.setRaw _).nextRecord hopn
  | recfScore => exact h.setScore _
  | recfMove => exact (h.setMovew _).setMove (moveLegal_decodeMove _)
  | recfPly => exact h.setPly _
  | recfResult => exact h.setResult _
  | recfPadding => exact h

theorem Answers.stateInv {i : Instr} {s t : State} (ha : Answers i s t) (h : StateInv s) : StateInv t := by
  cases ha with
  | refused => exact h.refuse
  | faulted c => exact h.takeFault c
  | counted => exact h.answer _
  | completed he => exact (he.stateInv h).answer _

/-- Settles O56: a step changes nothing, takes a fault, refuses, or executes an instruction, and each keeps the
invariant. -/
theorem stepKeepsInvariant : Obligations.StepKeepsInvariant := by
  intro s t h hstep
  rcases step_next hstep with ⟨-, rfl⟩ | ⟨r, rest, -, ⟨i, -, hexec⟩ | ⟨c, -, rfl⟩ | ⟨-, rfl⟩⟩
  · exact h
  · exact (exec_answers hexec).stateInv (h.withInbox rest)
  · exact (h.withInbox rest).takeFault c
  · exact (h.withInbox rest).refuse

end Sys2Proof.Machine

namespace Sys2Proof.Machine

/-! ### Which registers an update leaves alone (10_state.md R33) -/

/-- Only the groups listed may differ, and neither the stream nor the inbox does. -/
structure Frame (gs : List RegGroup) (s t : State) : Prop where
  groups : ∀ g, g ∉ gs → sameGroup g s t
  stream : t.stream = s.stream
  inbox : t.inbox = s.inbox

theorem sameGroup_refl (g : RegGroup) (s : State) : sameGroup g s s := by
  cases g <;> simp [sameGroup]

theorem sameGroup_trans {g : RegGroup} {s t u : State} (hst : sameGroup g s t) (htu : sameGroup g t u) :
    sameGroup g s u := by
  cases g <;> simp_all [sameGroup]

theorem Frame.refl (gs : List RegGroup) (s : State) : Frame gs s s := ⟨fun g _ => sameGroup_refl g s, rfl, rfl⟩

theorem Frame.trans {gs hs : List RegGroup} {s t u : State} (hst : Frame gs s t) (htu : Frame hs t u) :
    Frame (gs ++ hs) s u where
  groups g hg := by
    rw [List.mem_append, not_or] at hg
    exact sameGroup_trans (hst.groups g hg.1) (htu.groups g hg.2)
  stream := htu.stream.trans hst.stream
  inbox := htu.inbox.trans hst.inbox

theorem Frame.mono {gs hs : List RegGroup} {s t : State} (h : Frame gs s t) (hsub : gs ⊆ hs) : Frame hs s t :=
  ⟨fun g hg => h.groups g fun hmem => hg (hsub hmem), h.stream, h.inbox⟩

section Updates

variable (s : State)

theorem frame_answer (r : Response) : Frame [] s (answer r s) :=
  ⟨fun g _ => by cases g <;> simp [sameGroup], rfl, rfl⟩

theorem frame_refuse : Frame [] s (refuse s) :=
  ⟨fun g _ => by cases g <;> simp [sameGroup], rfl, rfl⟩

theorem frame_takeFault (c : Cause) : Frame [.err] s (takeFault c s) :=
  ⟨fun g hg => by cases g with | err => simp at hg | _ => simp [sameGroup], rfl, rfl⟩

theorem frame_returnFromFault : Frame [.err] s (returnFromFault s) :=
  ⟨fun g hg => by cases g with | err => simp at hg | _ => simp [sameGroup], rfl, rfl⟩

theorem frame_setCursor (c : Cursor) : Frame [.cursor, .pos] s (setCursor c s) :=
  ⟨fun g hg => by cases g with | cursor | pos => simp at hg | _ => simp [sameGroup], rfl, rfl⟩

theorem frame_setPos (p : Nat) : Frame [.pos] s (setPos p s) :=
  ⟨fun g hg => by cases g with | pos => simp at hg | _ => simp [sameGroup], rfl, rfl⟩

theorem frame_setVal (v : Nat) : Frame [.val] s (setVal v s) :=
  ⟨fun g hg => by cases g with | val => simp at hg | _ => simp [sameGroup], rfl, rfl⟩

theorem frame_setPiece (sym : PieceSym) : Frame [.piece] s (setPiece sym s) :=
  ⟨fun g hg => by cases g with | piece => simp at hg | _ => simp [sameGroup], rfl, rfl⟩

theorem frame_setPosition (w : Work) (hHi : Bit) : Frame [.position] s (setPosition w hHi s) :=
  ⟨fun g hg => by cases g with | position => simp at hg | _ => simp [sameGroup], rfl, rfl⟩

theorem frame_setWork (w : Work) : Frame [.work] s (setWork w s) :=
  ⟨fun g hg => by cases g with | work => simp at hg | _ => simp [sameGroup], rfl, rfl⟩

theorem frame_setMove (m : Move) : Frame [.move] s (setMove m s) :=
  ⟨fun g hg => by cases g with | move => simp at hg | _ => simp [sameGroup], rfl, rfl⟩

theorem frame_setScore (v : Half) : Frame [.score] s (setScore v s) :=
  ⟨fun g hg => by cases g with | score => simp at hg | _ => simp [sameGroup], rfl, rfl⟩

theorem frame_setMovew (v : Half) : Frame [.movew] s (setMovew v s) :=
  ⟨fun g hg => by cases g with | movew => simp at hg | _ => simp [sameGroup], rfl, rfl⟩

theorem frame_setPly (v : Half) : Frame [.ply] s (setPly v s) :=
  ⟨fun g hg => by cases g with | ply => simp at hg | _ => simp [sameGroup], rfl, rfl⟩

theorem frame_setResult (v : Byte) : Frame [.result] s (setResult v s) :=
  ⟨fun g hg => by cases g with | result => simp at hg | _ => simp [sameGroup], rfl, rfl⟩

theorem frame_setRaw (bs : List Byte) : Frame [.raw] s (setRaw bs s) :=
  ⟨fun g hg => by cases g with | raw => simp at hg | _ => simp [sameGroup], rfl, rfl⟩

theorem frame_setReader (fsize soff : Nat) : Frame [.reader, .rp] s (setReader fsize soff s) :=
  ⟨fun g hg => by cases g with | reader | rp => simp at hg | _ => simp [sameGroup], rfl, rfl⟩

theorem frame_setRp (a : Nat) : Frame [.rp] s (setRp a s) :=
  ⟨fun g hg => by cases g with | rp => simp at hg | _ => simp [sameGroup], rfl, rfl⟩

theorem frame_commitPosition (p : Work × Bit × Cursor) : Frame [.cursor, .pos, .position] s (commitPosition p s) :=
  (frame_setCursor s _).trans (frame_setPosition _ _ _)

theorem frame_setScalars (b : List Byte) : Frame [.score, .movew, .move, .ply, .result] s (setScalars b s) :=
  (((frame_setScore s _).trans (frame_setMovew _ _)).trans (frame_setMove _ _)).trans (frame_setPly _ _) |>.trans
    (frame_setResult _ _)

end Updates

theorem Effect.frame {i : Instr} {s u : State} (he : Effect i s u) : Frame (writtenBy i) s u := by
  cases he with
  | errClr => exact frame_returnFromFault s
  | attach => exact frame_setCursor s _
  | bits hw => exact hw ▸ (frame_setPos s _).trans (frame_setVal _ _)
  | symbol hw => exact hw ▸ (frame_setPos s _).trans (frame_setPiece _ _)
  | field hw => exact hw ▸ (frame_setPos s _).trans (frame_setWork _ _)
  | lastField => exact (frame_setPos s _).trans (frame_setPosition _ _ _)
  | posDec => exact frame_commitPosition s _
  | recfPosition => exact frame_commitPosition s _
  | move hw => exact hw ▸ frame_setMove s _
  | recOpen => exact frame_setReader s _ _
  | recRead =>
    exact (((frame_commitPosition s _).trans (frame_setScalars _ _)).trans (frame_setRp _ _)).mono
      (by simp [writtenBy])
  | recRaw => exact (frame_setRaw s _).trans (frame_setRp _ _)
  | recfScore => exact frame_setScore s _
  | recfMove => exact (frame_setMovew s _).trans (frame_setMove _ _)
  | recfPly => exact frame_setPly s _
  | recfResult => exact frame_setResult s _
  | recfPadding => exact .refl _ _

theorem Answers.frame {i : Instr} {s t : State} (ha : Answers i s t) : Frame (.err :: writtenBy i) s t := by
  cases ha with
  | refused => exact (frame_refuse s).mono (by simp)
  | faulted c => exact (frame_takeFault s c).mono (by simp)
  | counted => exact (frame_answer s _).mono (by simp)
  | completed he => exact (he.frame.trans (frame_answer _ _)).mono (by simp)

theorem err_mem_writtenBy {i : Instr} : .err ∈ writtenBy i ↔ i = .errClr := by
  cases i <;> simp [writtenBy]

/-- `ERR` changes only by a fault or by `ERR.CLR` (60_exceptions.md R166, R168). -/
theorem Answers.err {i : Instr} {s t : State} (ha : Answers i s t) :
    t.err = s.err ∨ (i = .errClr ∧ t.err = 0) ∨ ∃ c, t.resp = .fault c := by
  cases ha with
  | refused => exact .inl rfl
  | faulted c => exact .inr (.inr ⟨c, rfl⟩)
  | counted => exact .inl rfl
  | completed he =>
    by_cases hi : i = .errClr
    · subst hi
      cases he with
      | errClr => exact .inr (.inl ⟨rfl, rfl⟩)
      | bits hw | symbol hw | field hw | move hw => cases hw
    · exact .inl (he.frame.groups .err fun hmem => hi (err_mem_writtenBy.1 hmem))

/-- Settles O57: every answer keeps the groups that the instruction does not write. -/
theorem onlyNamedRegistersWritten : Obligations.OnlyNamedRegistersWritten := by
  intro i s t hexec
  have ha := exec_answers hexec
  refine ⟨fun g hg hnot => ha.frame.groups g ?_, ha.frame.stream, ha.frame.inbox, ha.err⟩
  rw [List.mem_cons, not_or]
  exact ⟨hg, hnot⟩

/-! ### What a host reads (10_state.md R32) -/

/-- What a host reads depends on the register's group alone. -/
theorem hostRead_of_sameGroup {r : ResultReg} {s t : State} (h : sameGroup r.group s t) :
    hostRead r t = hostRead r s := by
  cases r <;> simp only [ResultReg.group, sameGroup] at h <;>
    simp [hostRead, State.scoreValue, State.resultValue, h]

theorem ResultReg.group_ne_err (r : ResultReg) : r.group ≠ .err := by
  cases r <;> simp [ResultReg.group]

/-- Settles O59: only a completed instruction changes the group of a result register, and only a group that it
writes. -/
theorem valueOnlyWhenCompleted : Obligations.ValueOnlyWhenCompleted := by
  intro i s t r hexec hread
  have hnot : ¬ sameGroup r.group s t := fun h => hread (hostRead_of_sameGroup h)
  have ha := exec_answers hexec
  refine ⟨?_, ?_⟩
  · cases ha with
    | refused => exact absurd ((frame_refuse s).groups _ (by simp)) hnot
    | faulted c => exact absurd ((frame_takeFault s c).groups _ (by simpa using r.group_ne_err)) hnot
    | counted => exact absurd ((frame_answer s _).groups _ (by simp)) hnot
    | completed => rfl
  · by_contra hmem
    refine hnot (ha.frame.groups _ ?_)
    rw [List.mem_cons, not_or]
    exact ⟨r.group_ne_err, hmem⟩

end Sys2Proof.Machine

namespace Sys2Proof.Machine

/-! ### The moves of `POS` (10_state.md R12) -/

/-- A completing instruction that leaves `POS` lower attaches a buffer. -/
theorem Effect.attaches_of_pos_lt {i : Instr} {s u : State} (he : Effect i s u) (hlt : u.pos.toNat < s.pos.toNat) :
    (∃ len data, i = .curAttach len data) ∨ (∃ len data, i = .posDec len data) ∨ i = .recRead ∨
      ∃ blob, i = .recfPosition blob := by
  cases he with
  | attach => exact .inl ⟨_, _, rfl⟩
  | posDec => exact .inr (.inl ⟨_, _, rfl⟩)
  | recRead => exact .inr (.inr (.inl rfl))
  | recfPosition => exact .inr (.inr (.inr ⟨_, rfl⟩))
  | bits _ hn | symbol _ hn | field _ hn | lastField hn => simp [-BitVec.toNat_ofNat, hn.toNat_pos] at hlt
  | _ => simp at hlt

/-- Settles O25: an instruction that does not complete keeps `POS`, and one that completes moves it on or attaches. -/
theorem posNeverGoesBack : Obligations.PosNeverGoesBack := by
  intro i s t hexec hlt
  cases exec_answers hexec with
  | completed he => exact ⟨rfl, he.attaches_of_pos_lt hlt⟩
  | _ => simp at hlt

/-! ### The Kings of a decoded position (10_state.md R23, 42_position.md R112) -/

/-- The black King on `k2`, the white King on `k1` if that is another square, and no King elsewhere. -/
def kingsPlaced (k1 k2 : Nat) (b : Vector BoardCell 64) : Prop :=
  b.getD k2 0 = 0xE ∧ (k1 ≠ k2 → b.getD k1 0 = 0x6) ∧
    ∀ sq, sq < 64 → sq ≠ k1 → sq ≠ k2 → (b.getD sq 0).toNat % 8 ≠ 6

/-- No symbol is placed on a King's square. -/
theorem placeRun_isKingSq {syms : List PieceSym} {w w' : Work} {k : Sq} (h : placeRun visitOrder syms w = some w')
    (hk : isKingSq w k = true) : w'.board.getD k.toNat 0 = w.board.getD k.toNat 0 := by
  have hcell := (placeRun_spec h visit_nodup).2 k
  have hlen := placeRun_isSome.1 (Option.isSome_iff_exists.2 ⟨w', h⟩)
  rwa [List.idxOf_eq_length (by simp [List.mem_filter, hk]), ← hlen, List.getD_eq_default _ _ le_rfl] at hcell

/-- No symbol is a King (30_encoding.md R65). -/
theorem cellOf_empty_ne_king (sym : PieceSym) : (cellOf sym 0).toNat % 8 ≠ 6 := by
  cases sym with
  | empty => decide
  | man kind colour =>
    have hcell : ∀ c : Bit, (boardCell c (kindNumber kind)).toNat % 8 ≠ 6 := by cases kind <;> decide
    exact hcell colour

/-- The board before the run of symbols: the two Kings alone. -/
theorem kings_cell (t : Bit) (k1 k2 sq : Sq) :
    (putK2 k2 (putK1 k1 (startWork t))).board.getD sq.toNat 0 =
      if sq = k2 then 0xE else if sq = k1 then 0x6 else 0 := by
  have hzero : (startWork t).board.getD sq.toNat 0 = 0 := by
    rw [getD_vector _ _ _ sq.isLt]
    exact Vector.getElem_replicate _
  have hwhite : (putK1 k1 (startWork t)).board.getD sq.toNat 0 = if sq = k1 then 0x6 else 0 :=
    (getD_set _ k1 sq _).trans (by rw [hzero]; rfl)
  exact (getD_set _ k2 sq _).trans (by rw [hwhite]; rfl)

theorem kingsPlaced_of_placeRun {t : Bit} {k1 k2 : Sq} {syms : List PieceSym} {w : Work}
    (h : placeRun visitOrder syms (putK2 k2 (putK1 k1 (startWork t))) = some w) :
    kingsPlaced k1.toNat k2.toNat w.board := by
  have hking : ∀ k : Sq, k = k1 ∨ k = k2 → isKingSq (putK2 k2 (putK1 k1 (startWork t))) k = true := by
    intro k hk
    show (k == k1 || k == k2) = true
    simpa using hk
  refine ⟨?_, fun hne => ?_, fun n hn hn1 hn2 => ?_⟩
  · rw [placeRun_isKingSq h (hking k2 (.inr rfl)), kings_cell, if_pos rfl]
  · have hne' : k1 ≠ k2 := fun heq => hne (congrArg BitVec.toNat heq)
    rw [placeRun_isKingSq h (hking k1 (.inl rfl)), kings_cell, if_neg hne', if_pos rfl]
  · obtain ⟨sq, rfl⟩ : ∃ sq : Sq, sq.toNat = n := ⟨BitVec.ofNat 6 n, by rw [BitVec.toNat_ofNat]; omega⟩
    have hsq1 : sq ≠ k1 := fun heq => hn1 (congrArg BitVec.toNat heq)
    have hsq2 : sq ≠ k2 := fun heq => hn2 (congrArg BitVec.toNat heq)
    rw [(placeRun_spec h visit_nodup).2 sq, kings_cell, if_neg hsq2, if_neg hsq1]
    exact cellOf_empty_ne_king _

/-- The king-square fields of a stream, read off the bytes it heads as one number (30_encoding.md R67). -/
theorem kingFields_of_bits {data : List Byte} {p : PosStream} {pad : List Bool}
    (h : bitsOfBytes data = p.bits ++ pad) :
    leNumber data / 2 % 64 = p.k1.toNat ∧ leNumber data / 128 % 64 = p.k2.toNat := by
  have hturn := p.turn.isLt
  have hk1 := p.k1.isLt
  have hk2 := p.k2.isLt
  simp only [leNumber_eq, h, PosStream.bits, List.append_assoc]
  rw [natOfBits_append, natOfBits_append, natOfBits_append]
  simp only [natOfBits_bitsOf, length_bitsOf]
  omega

/-- A completed position decode of 32 bytes places the two Kings of its king-square fields. -/
theorem decodePosition_kings {buf : Vector Byte 32} {data : List Byte} {p : Work × Bit × Cursor}
    (hlen : data.length = 32) (h : decodePosition buf data 32 = .ok p) :
    kingsPlaced (leNumber data / 2 % 64) (leNumber data / 128 % 64) p.1.board := by
  obtain ⟨w, hHi, c⟩ := p
  change readPosition (attachCursor buf 32 data) = _ at h
  obtain ⟨p, w4, hrun, rfl, -, hbits, -⟩ := readPosition_ok h
  rw [← hlen, bitsAhead_attach buf data hlen.le] at hbits
  obtain ⟨hk1, hk2⟩ := kingFields_of_bits hbits
  rw [hk1, hk2]
  show kingsPlaced _ _ (finishedWork p w4).board
  rw [finishedWork_board]
  exact kingsPlaced_of_placeRun hrun

theorem Answers.effect {i : Instr} {s t : State} (ha : Answers i s t) (hok : t.resp = .ok) :
    ∃ u, Effect i s u ∧ t = answer .ok u := by
  cases ha with
  | completed he => exact ⟨_, he, rfl⟩
  | _ => cases hok

/-- The three ways to complete a position decode of 32 bytes show the board of that decode. -/
theorem position_of_completed {s t : State} {blob : List Byte} (hok : t.resp = .ok)
    (h : exec (.posDec 32 blob) s = .next t ∨ exec (.recfPosition blob) s = .next t ∨
      (exec .recRead s = .next t ∧ readRange s.stream s.rp 32 = some blob)) :
    ∃ p, decodePosition s.buf blob 32 = .ok p ∧ t.board = p.1.board := by
  rcases h with h | h | ⟨h, hblob⟩ <;> obtain ⟨u, he, rfl⟩ := (exec_answers h).effect hok
  · cases he with
    | posDec hp => exact ⟨_, hp, rfl⟩
    | bits hw | symbol hw | field hw | move hw => cases hw
  · cases he with
    | recfPosition hp => exact ⟨_, hp, rfl⟩
    | bits hw | symbol hw | field hw | move hw => cases hw
  · cases he with
    | recRead _ hbytes hp =>
      obtain rfl := Option.some.inj (hbytes.symm.trans hblob)
      exact ⟨_, hp, rfl⟩
    | bits hw | symbol hw | field hw | move hw => cases hw

/-- Settles O36: the board shown is that of a decode of the 32 bytes. -/
theorem kingPlacement : Obligations.KingPlacement := by
  intro s t blob hlen hok h
  obtain ⟨p, hp, hboard⟩ := position_of_completed hok h
  show kingsPlaced _ _ t.board
  rw [hboard]
  exact decodePosition_kings hlen hp

/-! ### The state after reset (10_state.md R32) -/

/-- A host reads nothing while no result register has been written. -/
theorem hostRead_of_unwritten {s : State} (h : s.written = Written.none) (r : ResultReg) : hostRead r s = none := by
  cases r <;> simp [hostRead, h, Written.none, whenWritten]

/-- Settles O9: after reset nothing is marked as written and nothing waits in the inbox. -/
theorem resetLeaves : Obligations.ResetLeaves :=
  ⟨rfl, rfl, rfl, rfl, rfl, rfl, rfl, rfl, hostRead_of_unwritten rfl, step_idle rfl⟩

/-- Settles O11: the hidden position at reset is the fresh one, and the board is its board. -/
theorem resetInvariant : Obligations.ResetInvariant where
  lenBound := by decide
  posBound := by decide
  errLegal := by decide
  pieceLegal := by decide
  boardCells := (WorkLegal.startWork 0).cells
  epAbsent _ := rfl
  promoLegal := .inl rfl
  promoForm := by decide
  workCells := (WorkLegal.startWork 0).cells
  workEpAbsent _ := rfl
  closedReader _ := ⟨rfl, rfl, rfl, rfl⟩
  openReader hopn := absurd hopn (by decide)
  streamWf := reset_stream_wf

end Sys2Proof.Machine

/-! PROOFS of the memory family (20_memory.md): the instruction that a step fetches, the fields of a record in the
stream, the stream that no step writes. -/

namespace Sys2Proof.Machine

/-! ### No step writes the stream (20_memory.md R45) -/

/-- A step changes nothing, takes a fault, refuses, or executes an instruction, and each keeps the stream. -/
theorem step_stream {s t : State} (h : step s = .next t) : t.stream = s.stream := by
  rcases step_next h with ⟨-, rfl⟩ | ⟨r, rest, -, ⟨i, -, hexec⟩ | ⟨c, -, rfl⟩ | ⟨-, rfl⟩⟩
  · rfl
  · exact (exec_answers hexec).frame.stream
  · exact (frame_takeFault _ c).stream
  · exact (frame_refuse _).stream

/-- Settles O58: what a byte reads depends on the stream alone. -/
theorem streamNeverWritten : Obligations.StreamNeverWritten :=
  fun _ _ h a => congrArg (readByte · a) (step_stream h)

/-! ### The fetch of each request, while its unit can take it (10_state.md R12, 20_memory.md R42) -/

section Fetch

variable {s : State}

theorem fetch_pieceSymbol (herr : s.err = 0) :
    fetch .pieceSymbol s = fetchSymbol .pieceSymbol (bitsAhead (cursorOf s)) :=
  if_pos ((faultFree_iff s).2 herr)

theorem fieldExists_iff (f : PosField) (s : State) : fieldExists f s = true ↔ (f = .epsq → s.work.epv = 1) := by
  cases f <;> simp [fieldExists]

theorem fetch_posField {f : PosField} (herr : s.err = 0) (hflag : f = .epsq → s.work.epv = 1) :
    fetch (.posField f) s = fetchSymbol (.posField f) (bitsAhead (cursorOf s)) :=
  if_pos (by rw [(faultFree_iff s).2 herr, (fieldExists_iff f s).2 hflag]; rfl)

theorem fetch_posPieces (herr : s.err = 0) :
    fetch .posPieces s = fetchSymbol (.posPieces (if s.work.k1 = s.work.k2 then 63 else 62)) (bitsAhead (cursorOf s)) :=
  if_pos ((faultFree_iff s).2 herr)

theorem memRead_of_readRange {a n : Nat} {bs : List Byte} (hroom : a + n ≤ s.fsize)
    (hbs : readRange s.stream a n = some bs) : memRead s a n = .bytes bs := by
  rw [memRead, if_neg (Nat.not_lt.2 hroom), hbs]

theorem fetch_recField {f : RecField} {bs : List Byte} (herr : s.err = 0) (hopn : s.opn = 1)
    (hroom : s.rp + recOffset f + recSize f ≤ s.fsize)
    (hbs : readRange s.stream (s.rp + recOffset f) (recSize f) = some bs) :
    fetch (.recField f) s = fetchSymbol (.recField f) (bitsOfBytes bs) := by
  have hready : (faultFree s && isOpen s) = true := by rw [(faultFree_iff s).2 herr, (isOpen_iff s).2 hopn]; rfl
  rw [fetch, if_pos hready, fetchRecField, memRead_of_readRange hroom hbs]

end Fetch

/-! ### A step runs what the decoder reads (20_memory.md R51, R54) -/

theorem step_of_fetch {s : State} {r : Request} {rest : List Request} {i : Instr} (hin : s.inbox = r :: rest)
    (hf : fetch r { s with inbox := rest } = .instr i) : step s = exec i { s with inbox := rest } := by
  rw [step_request hin, hf]

section Decoded

variable {fmt : Format} {bits tail : List Bool} {i : Instr}

theorem fetchWord_of_decode (h : decode fmt bits = .ok (i, tail)) : fetchWord fmt bits = .instr i := by
  rw [fetchWord, h]

theorem fetchSymbol_of_decode (h : decode fmt bits = .ok (i, tail)) : fetchSymbol fmt bits = .instr i := by
  rw [fetchSymbol, h]

end Decoded

/-- Settles O5: each request's fetch is the decoder on the bits that the request, the cursor or the stream gives. -/
theorem stepRunsDecoded : Obligations.StepRunsDecoded := by
  intro s rest i tail
  refine ⟨?command, ?moveWord, ?pieceSymbol, ?posField, ?posPieces, ?recField⟩
  case command | moveWord => exact fun bits hin hd => step_of_fetch hin (fetchWord_of_decode hd)
  case pieceSymbol =>
    exact fun hin herr hd => step_of_fetch hin ((fetch_pieceSymbol herr).trans (fetchSymbol_of_decode hd))
  case posField =>
    exact fun f hin herr hflag hd =>
      step_of_fetch hin ((fetch_posField herr hflag).trans (fetchSymbol_of_decode hd))
  case posPieces =>
    exact fun hin herr hd => step_of_fetch hin ((fetch_posPieces herr).trans (fetchSymbol_of_decode hd))
  case recField =>
    exact fun f bs hin herr hopn hroom hbs hd =>
      step_of_fetch hin ((fetch_recField herr hopn hroom hbs).trans (fetchSymbol_of_decode hd))

/-! ### The fields of a record (20_memory.md R43, R48; 30_encoding.md R69) -/

/-- The bytes of a field spell its little-endian number (30_encoding.md R69). -/
theorem bitsOfBytes_eq_bitsOf (bs : List Byte) :
    bitsOfBytes bs = bitsOf (BitVec.ofNat (8 * bs.length) (leNumber bs)) := by
  have hlt : leNumber bs < 2 ^ (8 * bs.length) := by
    rw [leNumber_eq, ← length_bitsOfBytes]
    exact natOfBits_lt _
  rw [bitsOf, BitVec.toNat_ofNat, Nat.mod_eq_of_lt hlt, leNumber_eq, ← length_bitsOfBytes, bitsOfNat_natOfBits]

theorem bitsOfBytes_pair (b0 b1 : Byte) :
    bitsOfBytes [b0, b1] = bitsOf (BitVec.ofNat 16 (b0.toNat + 256 * b1.toNat)) := by
  have hnum : leNumber [b0, b1] = b0.toNat + 256 * b1.toNat := by simp [leNumber]
  rw [← hnum]
  exact bitsOfBytes_eq_bitsOf [b0, b1]

theorem bitsOfBytes_singleton (b : Byte) : bitsOfBytes [b] = bitsOf b := by simp

theorem readRange_singleton {m : Memory} {a : Nat} {b : Byte} (h : readByte m a = some b) :
    readRange m a 1 = some [b] := by
  simp [readRange, h]

theorem readRange_pair {m : Memory} {a : Nat} {b0 b1 : Byte} (h0 : readByte m a = some b0)
    (h1 : readByte m (a + 1) = some b1) : readRange m a 2 = some [b0, b1] := by
  simp [readRange, h0, h1]

/-- Each record field row is read back from the bits it is encoded in. -/
theorem decode_recField_encode {i : Instr} {f : RecField} (hwf : i.wellFormed = true)
    (hf : formatOf i = .recField f) : decode (.recField f) (encode i) = .ok (i, []) := by
  cases i <;> simp only [formatOf, reduceCtorEq, Format.recField.injEq] at hf <;> subst hf
  case recfPosition blob =>
    have hlen : blob.length = 32 := by simpa [Instr.wellFormed, blobFits] using hwf
    have htake := takeBytes_append blob []
    rw [hlen, List.append_nil] at htake
    simp only [encode, decode, decodeRecField, Config.posBytes, htake]
    rfl
  case recfScore | recfMove | recfPly | recfResult | recfPadding =>
    simp only [encode, decode, decodeRecField, takeField_bitsOf]
    rfl

/-- The request for a field runs the row that the field's bytes spell. -/
theorem step_recField {s : State} {rest : List Request} {f : RecField} {i : Instr} {bs : List Byte} (herr : s.err = 0)
    (hopn : s.opn = 1) (hwf : i.wellFormed = true) (hf : formatOf i = .recField f) (hbits : bitsOfBytes bs = encode i)
    (hin : s.inbox = .recField f :: rest) (hroom : s.rp + recOffset f + recSize f ≤ s.fsize)
    (hbs : readRange s.stream (s.rp + recOffset f) (recSize f) = some bs) :
    step s = exec i { s with inbox := rest } :=
  have hd : decode (.recField f) (bitsOfBytes bs) = .ok (i, []) := hbits ▸ decode_recField_encode hwf hf
  step_of_fetch hin ((fetch_recField herr hopn hroom hbs).trans (fetchSymbol_of_decode hd))

/-- Settles O8: at each offset of the layout the bytes spell the row with the operand that the statement names. -/
theorem recordFieldsFetched : Obligations.RecordFieldsFetched := by
  intro s rest b0 b1 herr hopn
  refine ⟨?score, ?move, ?ply, ?result, ?padding, ?position⟩
  case score | move | ply =>
    exact fun hin hroom h0 h1 =>
      step_recField herr hopn rfl rfl (bitsOfBytes_pair b0 b1) hin hroom (readRange_pair h0 h1)
  case result | padding =>
    exact fun hin hroom h0 =>
      step_recField herr hopn rfl rfl (bitsOfBytes_singleton b0) hin hroom (readRange_singleton h0)
  case position =>
    intro blob hin hroom hblob
    have hwf : (Instr.recfPosition blob).wellFormed = true := by
      simp [Instr.wellFormed, blobFits, (readRange_some hblob).1]
    exact step_recField herr hopn hwf rfl rfl hin hroom hblob

end Sys2Proof.Machine


/-! PROOFS of the encoding family (30_encoding.md): the decoder on the encoding of each row, the rows of the piece
symbols, of the move word and of a record, and that every instruction answers. -/

namespace Sys2Proof

/-! ### The operands of a command (30_encoding.md R60) -/

/-- A decoder that has taken a field goes on with it. -/
theorem ok_bind {α β : Type} (a : α) (k : α → Except DecodeError β) : (Except.ok a >>= k) = k a := rfl

theorem takeField_encodeOp (op : Nat) (r : List Bool) :
    takeField 4 (encodeOp op ++ r) = .ok (BitVec.ofNat 4 op, r) :=
  takeField_bitsOfNat_append 4 op r

theorem takeBytes_of_dataFits {len : BitVec 6} {data : List Byte} (h : dataFits len data = true) (r : List Bool) :
    takeBytes len.toNat (bitsOfBytes data ++ r) = .ok (data, r) := by
  have hlen : data.length = len.toNat := by simpa [dataFits] using h
  rw [← hlen, takeBytes_append]

theorem takeBytes_of_blobFits {blob : List Byte} (h : blobFits blob = true) (r : List Bool) :
    takeBytes Config.posBytes (bitsOfBytes blob ++ r) = .ok (blob, r) := by
  have hlen : blob.length = Config.posBytes := by simpa [blobFits] using h
  rw [← hlen, takeBytes_append]

theorem natOfBits_replicate_false (k : Nat) : natOfBits (List.replicate k false) = 0 := by
  induction k with
  | zero => rfl
  | succ k ih => simp [List.replicate_succ, natOfBits, ih]

/-- The bits of a number up to its highest one spell it, and zeros above them change nothing. -/
theorem natOfBits_log2_append_zeros (v k : Nat) :
    natOfBits (bitsOfNat (v.log2 + 1) v ++ List.replicate k false) = v := by
  rw [natOfBits_append, natOfBits_replicate_false, Nat.mul_zero, Nat.add_zero, natOfBits_bitsOfNat,
    Nat.mod_eq_of_lt Nat.lt_log2_self]

/-- `soff` takes every bit that is left (log entry 8). -/
theorem decode_recOpen_append_zeros (soff k : Nat) :
    decode .command (encode (.recOpen soff) ++ List.replicate k false) = .ok (.recOpen soff, []) := by
  simp only [encode, List.append_assoc, decode, decodeCommand, takeField_encodeOp, ok_bind]
  exact congrArg (fun n => Except.ok (Instr.recOpen n, [])) (natOfBits_log2_append_zeros soff k)

/-! ### The piece symbols (30_encoding.md R63 to R66) -/

theorem decode_encodeSym_append (sym : PieceSym) (r : List Bool) :
    decode .pieceSymbol (encodeSym sym ++ r) = .ok (rowOfSym sym, r) := by
  simp only [decode, decodePieceSymbol, takeSymCode_append]
  rfl

/-- A code with first bit 1 that stands for no kind is unassigned. -/
theorem takeSymCode_unassigned {code : Nat} (hfirst : code % 2 = 1)
    (hkind : kindOfCode (BitVec.ofNat 4 code).toNat = none) (r : List Bool) :
    takeSymCode (bitsOfNat 4 code ++ r) = .ok (.unassigned (BitVec.ofNat 4 code), r) := by
  have hcons : bitsOfNat 4 code = true :: bitsOfNat 3 (code / 2) := by rw [bitsOfNat, hfirst]; rfl
  have hfield := takeField_bitsOfNat_append 4 code r
  rw [hcons, List.cons_append] at hfield ⊢
  simp only [takeSymCode, hfield, ok_bind, hkind]
  rfl

theorem decode_unassigned_append {code : Nat} (hfirst : code % 2 = 1)
    (hkind : kindOfCode (BitVec.ofNat 4 code).toNat = none) (r : List Bool) :
    decode .pieceSymbol (bitsOfNat 4 code ++ r) = .ok (rowOfUnassigned (BitVec.ofNat 4 code), r) := by
  simp only [decode, decodePieceSymbol, takeSymCode_unassigned hfirst hkind]
  rfl

theorem wellFormed_of_pieceSymbol {i : Instr} (hf : formatOf i = .pieceSymbol) : i.wellFormed = true := by
  cases i <;> cases hf <;> rfl

/-! ### Every row is read back from the front of the bits -/

/-- The decoder reads a well-formed instruction off the front of its encoding and leaves the bits that follow; the
operand of `REC.OPEN` alone has no end (log entry 8). -/
theorem decode_encode_append {i : Instr} (hwf : i.wellFormed = true) (hopen : ∀ soff, i ≠ .recOpen soff)
    (r : List Bool) : decode (formatOf i) (encode i ++ r) = .ok (i, r) := by
  cases i with
  | recOpen soff => exact absurd rfl (hopen soff)
  | errClr | curRdbit | pieceDec | reserved7 | recRead | recRaw | recCount | reservedC | reservedD | reservedE
  | reservedF =>
    simp only [formatOf, encode, decode, decodeCommand, takeField_encodeOp]
    rfl
  | curRdbits | moveDec =>
    simp only [formatOf, encode, List.append_assoc, decode, decodeCommand, takeField_encodeOp, ok_bind,
      BitVec.toNat_ofNat, Nat.reducePow, Nat.reduceMod, takeField_append]
    rfl
  | curAttach | posDec =>
    simp only [formatOf, encode, List.append_assoc, decode, decodeCommand, takeField_encodeOp, ok_bind,
      BitVec.toNat_ofNat, Nat.reducePow, Nat.reduceMod, takeField_append, takeBytes_of_dataFits hwf]
    rfl
  | empty => exact decode_encodeSym_append .empty r
  | pawn c => exact decode_encodeSym_append (.man .pawn c) r
  | knight c => exact decode_encodeSym_append (.man .knight c) r
  | bishop c => exact decode_encodeSym_append (.man .bishop c) r
  | rook c => exact decode_encodeSym_append (.man .rook c) r
  | queen c => exact decode_encodeSym_append (.man .queen c) r
  | illegalB | illegalD | illegalF => exact decode_unassigned_append rfl rfl r
  | moveNone | movePromo | moveEp | moveCastle =>
    simp only [formatOf, encode, encodeMove, List.append_assoc, decode, decodeMoveWord, takeField_append,
      takeField_bitsOfNat_append, ok_bind]
    rfl
  | posfPieces syms =>
    simp only [formatOf, encode, decode, takeSyms_append]
    rfl
  | posfTurn | posfK1 | posfK2 | posfWk | posfWq | posfBk | posfBq | posfEpf | posfEpsq | posfHmcLo | posfFmnLo
  | posfFmnHi | posfHmcHi =>
    simp only [formatOf, encode, decode, decodePosField, takeField_append]
    rfl
  | recfPosition =>
    simp only [formatOf, encode, decode, decodeRecField, takeBytes_of_blobFits hwf]
    rfl
  | recfScore | recfMove | recfPly | recfResult | recfPadding =>
    simp only [formatOf, encode, decode, decodeRecField, takeField_append]
    rfl

/-- Settles O1: `REC.OPEN` with no zeros after it, and every other row with nothing after it. -/
theorem decodeOfEncode : Obligations.DecodeOfEncode := by
  intro i hwf
  rw [← List.append_nil (encode i)]
  by_cases hopen : ∃ soff, i = .recOpen soff
  · obtain ⟨soff, rfl⟩ := hopen
    exact decode_recOpen_append_zeros soff 0
  · exact decode_encode_append hwf (not_exists.1 hopen) []

/-- Settles O2: the two laws that O1 is a case of. -/
theorem encodingEndsItself : Obligations.EncodingEndsItself :=
  ⟨fun _ r hwf hopen => decode_encode_append hwf hopen r, decode_recOpen_append_zeros⟩

/-- Settles O4: the decoder reads the first row from its own encoding, with what follows left over, and the second
from the whole; the bits are the same. -/
theorem pieceCodesPrefixFree : Obligations.PieceCodesPrefixFree := by
  intro a b r ha hb h
  have hopen : ∀ soff, a ≠ .recOpen soff := fun soff heq => by rw [heq] at ha; cases ha
  have hfirst := decode_encode_append (wellFormed_of_pieceSymbol ha) hopen r
  have hsecond := decodeOfEncode b (wellFormed_of_pieceSymbol hb)
  rw [ha, h, ← hb, hsecond] at hfirst
  injection hfirst with hfirst
  exact (congrArg Prod.fst hfirst).symm

/-- Settles O3: each word is the encoding of the row it stands for; the unassigned code has one bit after it. -/
theorem specWordsDecode : Obligations.SpecWordsDecode :=
  ⟨decodeOfEncode .errClr rfl, decodeOfEncode (.curAttach 1 [0x81]) rfl, decodeOfEncode .curRdbit rfl,
    decodeOfEncode (.curRdbits 6) rfl, decodeOfEncode .pieceDec rfl, decodeOfEncode (.posDec 1 [0x81]) rfl,
    decodeOfEncode (.moveDec 0x7C38) rfl, decodeOfEncode .reserved7 rfl, decodeOfEncode (.recOpen 40) rfl,
    decodeOfEncode .recRead rfl, decodeOfEncode .recRaw rfl, decodeOfEncode .recCount rfl,
    decodeOfEncode .reservedC rfl, decodeOfEncode .reservedD rfl, decodeOfEncode .reservedE rfl,
    decodeOfEncode .reservedF rfl, decodeOfEncode .empty rfl, decodeOfEncode (.rook 1) rfl,
    decodeOfEncode (.queen 0) rfl, decode_encode_append (i := .illegalB) rfl (fun _ => Instr.noConfusion) [false],
    decodeOfEncode (.movePromo 3 48 56) rfl, decodeOfEncode (.recfPly 1) rfl⟩

end Sys2Proof

namespace Sys2Proof.Machine

/-- Settles O6: the fetch of a command is the decoder on the bits handed over, and they decode to `i`. -/
theorem issuedCommandRuns : Obligations.IssuedCommandRuns := by
  intro s rest i hwf hf hin
  have hdecode : decode .command (encode i) = .ok (i, []) := hf ▸ decodeOfEncode i hwf
  exact step_of_fetch hin (fetchWord_of_decode hdecode)

/-! ### The rows by themselves -/

section Rows

variable {s : State}

/-- A legal symbol with room for its bits is delivered (41_piececode.md R101). -/
theorem deliverSym_room {sym : PieceSym} (herr : s.err = 0)
    (hroom : s.pos.toNat + symLength sym ≤ 8 * s.len.toNat) :
    deliverSym sym s = .next (afterPiece (symLength sym) (symKind sym) (symColour sym) s) :=
  consumeSymbol_room herr hroom

/-- A legal symbol that the valid bytes cut off faults (40_bitcursor.md R93). -/
theorem deliverSym_short {sym : PieceSym} (herr : s.err = 0)
    (hshort : 8 * s.len.toNat < s.pos.toNat + symLength sym) : deliverSym sym s = .next (truncatedAt s) :=
  consumeSymbol_short herr (Nat.not_le.2 hshort)

/-- An unassigned code faults once its fourth bit is read (41_piececode.md R103). -/
theorem rejectCode_room (herr : s.err = 0) (hroom : s.pos.toNat + 4 ≤ 8 * s.len.toNat) :
    rejectCode s = .next (corruptAt s) :=
  (accepted_free herr).trans (if_pos ((hasRoom_iff 4 s).2 hroom))

/-- An unassigned code that the valid bytes cut off is no code yet (40_bitcursor.md R93). -/
theorem rejectCode_short (herr : s.err = 0) (hshort : 8 * s.len.toNat < s.pos.toNat + 4) :
    rejectCode s = .next (truncatedAt s) :=
  (accepted_free herr).trans (if_neg fun h => Nat.not_le.2 hshort ((hasRoom_iff 4 s).1 h))

/-- A field inside the stream is extracted (44_record.md R142). -/
theorem extractField_room {f : RecField} {body : Result} (herr : s.err = 0) (hopn : s.opn = 1)
    (hroom : s.rp + recOffset f + recSize f ≤ s.fsize) : extractField f s body = body :=
  (opened_open herr hopn).trans (if_neg (Nat.not_lt.2 hroom))

/-- A field past the stream's end faults (20_memory.md R42). -/
theorem extractField_short {f : RecField} {body : Result} (herr : s.err = 0) (hopn : s.opn = 1)
    (hshort : s.fsize < s.rp + recOffset f + recSize f) : extractField f s body = .next (truncatedAt s) :=
  (opened_open herr hopn).trans (if_pos hshort)

/-- Every row of a record field extracts that field first. -/
theorem exec_recField {i : Instr} {f : RecField} (hf : formatOf i = .recField f) (s : State) :
    ∃ body, exec i s = extractField f s body := by
  cases i <;> cases hf <;> exact ⟨_, rfl⟩

end Rows

/-- Settles O17: the five arms are the one refusal. -/
theorem reservedCodesRefused : Obligations.ReservedCodesRefused :=
  fun _ => ⟨rfl, rfl, rfl, rfl, rfl⟩

/-- Settles O29: each row delivers its own symbol, of one bit or of five. -/
theorem pieceSymbolRows : Obligations.PieceSymbolRows := by
  intro s herr
  refine ⟨deliverSym_room (sym := .empty) herr, deliverSym_short (sym := .empty) herr, fun c => ⟨?room, ?short⟩⟩
  case room =>
    have hman (k : Kind) (hroom : s.pos.toNat + 5 ≤ 8 * s.len.toNat) :
        deliverSym (.man k c) s = .next (afterPiece 5 (kindNumber k) c s) := deliverSym_room herr hroom
    exact fun h => ⟨hman .pawn h, hman .knight h, hman .bishop h, hman .rook h, hman .queen h⟩
  case short =>
    have hman (k : Kind) (hshort : 8 * s.len.toNat < s.pos.toNat + 5) :
        deliverSym (.man k c) s = .next (truncatedAt s) := deliverSym_short herr hshort
    exact fun h => ⟨hman .pawn h, hman .knight h, hman .bishop h, hman .rook h, hman .queen h⟩

/-- Settles O30: the three rows are the one rejection. -/
theorem illegalCodesRaise : Obligations.IllegalCodesRaise := by
  rintro s i herr (rfl | rfl | rfl) <;> exact ⟨rejectCode_room herr, rejectCode_short herr⟩

theorem promoCode_add_two (p : BitVec 2) : (p.setWidth 3 + 2 : BitVec 3) = BitVec.ofNat 3 (p.toNat + 2) := by
  revert p; decide

/-- Settles O44: with no fault latched each form completes with its own move. -/
theorem moveFormRows : Obligations.MoveFormRows := by
  intro s p f t herr
  refine ⟨accepted_free herr, ?promo, accepted_free herr, accepted_free herr⟩
  rw [← promoCode_add_two]
  exact accepted_free herr

/-! The two widths of a signed scalar, read as two's complement (30_encoding.md R69, log entry 16). -/

theorem sext_half (v : Half) : sext v = if v.toNat < 32768 then (v.toNat : Int) else (v.toNat : Int) - 65536 := rfl

theorem sext_byte (v : Byte) : sext v = if v.toNat < 128 then (v.toNat : Int) else (v.toNat : Int) - 256 := rfl

/-- Settles O54: a field inside the stream is extracted into its register, one past its end faults. -/
theorem recordScalarRows : Obligations.RecordScalarRows := by
  intro s herr hopn
  refine ⟨?score, ?ply, ?result, ?padding, ?short⟩
  case score => exact fun v hroom => ⟨_, extractField_room herr hopn hroom, rfl, sext_half v⟩
  case ply => exact fun v hroom => extractField_room herr hopn hroom
  case result => exact fun v hroom => ⟨_, extractField_room herr hopn hroom, rfl, sext_byte v⟩
  case padding => exact fun v hroom => extractField_room herr hopn hroom
  case short =>
    intro i f hf hshort
    obtain ⟨body, hexec⟩ := exec_recField hf s
    exact hexec.trans (extractField_short herr hopn hshort)

/-! ### Every instruction answers (30_encoding.md R61) -/

/-- A meaning that ends in a next state. -/
def HasNext (m : Result) : Prop := ∃ t, m = .next t

namespace HasNext

variable {s : State} {body : Result}

theorem next (t : State) : HasNext (.next t) := ⟨t, rfl⟩

theorem ite {c : Prop} [Decidable c] {m m' : Result} (h : HasNext m) (h' : HasNext m') :
    HasNext (if c then m else m') := by
  split
  · exact h
  · exact h'

theorem accepted (h : HasNext body) : HasNext (accepted s body) := h.ite (.next _)

theorem opened (h : s.opn = 1 → HasNext body) : HasNext (opened s body) := by
  refine .accepted ?_
  split
  · rename_i hopn; exact h ((isOpen_iff s).1 hopn)
  · exact .next _

/-- Bytes below `FSIZE` are there while the stream is as long as it was opened (log entry 13). -/
theorem withBytes {a n : Nat} {k : List Byte → Result} (hsize : s.fsize ≤ s.stream.size) (hk : ∀ bs, HasNext (k bs)) :
    HasNext (withBytes (memRead s a n) s k) := by
  rcases memRead_eq s a n hsize with ⟨-, hread⟩ | ⟨-, bs, -, -, hread⟩
  · rw [hread]; exact .next _
  · rw [hread]; exact hk bs

theorem consumeSymbol (n : Nat) (e : State → State) (s : State) : HasNext (consumeSymbol n e s) :=
  .accepted (.ite (.next _) (.next _))

theorem rejectCode (s : State) : HasNext (rejectCode s) := .accepted (.ite (.next _) (.next _))

theorem extractField {f : RecField} (h : HasNext body) : HasNext (extractField f s body) :=
  .opened fun _ => .ite (.next _) h

end HasNext

/-- Every instruction ends in a next state while the stream is as long as it was opened. -/
theorem exec_hasNext (i : Instr) {s : State} (hsize : s.opn = 1 → s.fsize ≤ s.stream.size) : HasNext (exec i s) := by
  cases i with
  | errClr | reserved7 | reservedC | reservedD | reservedE | reservedF => exact .next _
  | curAttach => exact .accepted (.ite (.next _) (.next _))
  | curRdbit | pieceDec =>
    refine .accepted ?_
    split <;> exact .next _
  | curRdbits | posDec =>
    refine .accepted (.ite ?_ (.next _))
    split <;> exact .next _
  | moveDec | recOpen | moveNone | movePromo | moveEp | moveCastle => exact .accepted (.next _)
  | recRead =>
    refine .opened fun hopn => .withBytes (hsize hopn) fun _ => ?_
    split
    · exact .next _
    · exact .withBytes (hsize hopn) fun _ => .next _
  | recRaw => exact .opened fun hopn => .withBytes (hsize hopn) fun _ => .next _
  | recCount => exact .opened fun _ => .next _
  | empty | pawn | knight | bishop | rook | queen => exact .consumeSymbol _ _ s
  | illegalB | illegalD | illegalF => exact .rejectCode s
  | posfPieces syms =>
    refine .accepted ?_
    split
    · exact .next _
    · exact .consumeSymbol _ _ s
  | posfEpsq => exact .accepted (.ite (.consumeSymbol _ _ s) (.next _))
  | posfTurn | posfK1 | posfK2 | posfWk | posfWq | posfBk | posfBq | posfEpf | posfHmcLo | posfFmnLo | posfFmnHi
  | posfHmcHi => exact .consumeSymbol _ _ s
  | recfPosition =>
    refine .extractField ?_
    split <;> exact .next _
  | recfScore | recfMove | recfPly | recfResult | recfPadding => exact .extractField (.next _)

theorem Answers.resp_ne_idle {i : Instr} {s t : State} (ha : Answers i s t) : t.resp ≠ .idle := by
  cases ha <;> simp

/-- Settles O60: there is a next state, and whatever an instruction answers with is a response. -/
theorem everyInstructionAnswers : Obligations.EveryInstructionAnswers := by
  intro i s hsize
  obtain ⟨t, hexec⟩ := exec_hasNext i hsize
  exact ⟨t, hexec, (exec_answers hexec).resp_ne_idle⟩

end Sys2Proof.Machine

/-! PROOFS of the bit cursor family (40_bitcursor.md): what the cursor commands deliver and where they leave the
cursor, and the rows of the position stream that the end of the valid bytes cuts off. -/

namespace Sys2Proof.Machine

/-! ### The buffer as one little-endian number (40_bitcursor.md R93) -/

section BufBits

variable (buf : Vector Byte 32)

/-- The `n` bits of the buffer from bit offset `p` on, as a number (40_bitcursor.md R93 (d)). -/
def bufBits (p n : Nat) : Nat := leNumber buf.toList / 2 ^ p % 2 ^ n

theorem bufBits_lt (p n : Nat) : bufBits buf p n < 2 ^ n := Nat.mod_lt _ (Nat.two_pow_pos n)

theorem byteAt_eq_getD (i : Nat) : byteAt buf i = buf.toList[i]?.getD 0 := by
  by_cases h : i < 32 <;> simp [byteAt, Vector.getD, h]

/-- Bit `q` of the number is the bit that the cursor addresses by `q` (40_bitcursor.md R95). -/
theorem testBit_leNumber (q : Nat) : (leNumber buf.toList).testBit q = (bitAt buf q == 1) := by
  rw [leNumber_eq, testBit_natOfBits, List.getD_eq_getElem?_getD, getElem?_bitsOfBytes, bitAt_testBit, byteAt_eq_getD]
  cases buf.toList[q / 8]? <;> simp

theorem testBit_bufBits (p n k : Nat) :
    (bufBits buf p n).testBit k = (decide (k < n) && (bitAt buf (p + k) == 1)) := by
  rw [bufBits, Nat.testBit_mod_two_pow, Nat.testBit_div_two_pow, testBit_leNumber, Nat.add_comm k p]

/-- Splitting a run of bits (40_bitcursor.md R93 (b)). -/
theorem bufBits_add (p a b : Nat) : bufBits buf p (a + b) = bufBits buf p a + 2 ^ a * bufBits buf (p + a) b := by
  simp only [bufBits, Nat.pow_add, Nat.mod_mul, Nat.div_div_eq_div_mul]

/-- Eight bits from a byte boundary on are the byte (40_bitcursor.md R93 (c)). -/
theorem bufBits_byte (i : Nat) : bufBits buf (8 * i) 8 = (byteAt buf i).toNat := by
  refine Nat.eq_of_testBit_eq fun k => ?_
  rw [testBit_bufBits, bitAt_testBit]
  by_cases hk : k < 8
  · have hdiv : (8 * i + k) / 8 = i := by omega
    have hmod : (8 * i + k) % 8 = k := by omega
    simp [hk, hdiv, hmod]
  · have hzero : (byteAt buf i).toNat.testBit k = false :=
      Nat.testBit_lt_two_pow ((byteAt buf i).isLt.trans_le (Nat.pow_le_pow_right (by omega) (by omega)))
    simp [hk, hzero]

end BufBits

/-- The bits ahead of the cursor spell the buffer's number from its offset on (40_bitcursor.md R93 (d)). -/
theorem natOfBits_take_bitsAhead {c : Cursor} {n : Nat} (hroom : c.pos + n ≤ 8 * c.len) :
    natOfBits ((bitsAhead c).take n) = bufBits c.buf c.pos n := by
  refine Nat.eq_of_testBit_eq fun k => ?_
  rw [testBit_natOfBits, testBit_bufBits, List.getD_eq_getElem?_getD, List.getElem?_take]
  by_cases hk : k < n
  · have hahead : k < (bitsAhead c).length := by rw [length_bitsAhead]; omega
    simp [hk, List.getElem?_eq_getElem hahead, getElem_bitsAhead]
  · simp [hk]

theorem bitAt_eq (buf : Vector Byte 32) (p : Nat) : bitAt buf p = (buf.getD (p / 8) 0).toNat / 2 ^ (p % 8) % 2 := by
  rw [bitAt, Nat.and_one_is_mod, Nat.shiftRight_eq_div_pow]; rfl

/-! ### The commands of the cursor -/

/-- The state after a completed `CUR.RDBITS n` (40_bitcursor.md R92). -/
def afterRdbits (n : Nat) (s : State) : State :=
  answer .ok (setVal (bufBits s.buf s.pos.toNat n) (setPos (s.pos.toNat + n) s))

section Commands

variable {s : State} {n : BitVec 5}

theorem curRdbit_room (herr : s.err = 0) (hroom : s.pos.toNat / 8 < s.len.toNat) :
    exec .curRdbit s = .next (answer .ok (setVal (bitAt s.buf s.pos.toNat) (setPos (s.pos.toNat + 1) s))) := by
  have hread : readBit (cursorOf s) = .ok (bitAt s.buf s.pos.toNat, cursorAfter (cursorOf s) 1) :=
    if_neg (Nat.not_le.2 hroom)
  rw [exec_curRdbit, execCurRdbit, accepted_free herr, hread]
  rfl

theorem curRdbit_short (herr : s.err = 0) (hend : s.len.toNat ≤ s.pos.toNat / 8) :
    exec .curRdbit s = .next (truncatedAt s) := by
  have hread : readBit (cursorOf s) = .error .truncatedRecord := if_pos hend
  rw [exec_curRdbit, execCurRdbit, accepted_free herr, hread]
  rfl

theorem curRdbits_room (herr : s.err = 0) (hn : n.toNat ≤ 16) (hroom : s.pos.toNat + n.toNat ≤ 8 * s.len.toNat) :
    exec (.curRdbits n) s = .next (afterRdbits n.toNat s) := by
  have hread : readBits n.toNat (cursorOf s) =
      .ok (bufBits s.buf s.pos.toNat n.toNat, cursorAfter (cursorOf s) n.toNat) := by
    rw [readBits_eq, if_pos (by rw [length_bitsAhead]; exact Nat.le_sub_of_add_le' hroom),
      natOfBits_take_bitsAhead hroom]
    rfl
  rw [exec_curRdbits, execCurRdbits, accepted_free herr, if_pos ((widthInRange_iff n).2 hn), hread]
  rfl

theorem curRdbits_short (herr : s.err = 0) (hn : n.toNat ≤ 16) (hpos : s.pos.toNat ≤ 8 * s.len.toNat)
    (hshort : 8 * s.len.toNat < s.pos.toNat + n.toNat) : exec (.curRdbits n) s = .next (truncatedAt s) := by
  have hfew : ¬ n.toNat ≤ (bitsAhead (cursorOf s)).length := by
    rw [length_bitsAhead]; simp only [cursorOf]; omega
  rw [exec_curRdbits, execCurRdbits, accepted_free herr, if_pos ((widthInRange_iff n).2 hn), readBits_eq, if_neg hfew]
  rfl

/-- A read of at most 16 bits fits `VAL` (10_state.md R13). -/
theorem afterRdbits_val_toNat {k : Nat} (hk : k ≤ 16) :
    (afterRdbits k s).val.toNat = bufBits s.buf s.pos.toNat k := by
  have hlt : bufBits s.buf s.pos.toNat k < 2 ^ 16 :=
    (bufBits_lt s.buf s.pos.toNat k).trans_le (Nat.pow_le_pow_right (by omega) hk)
  rw [afterRdbits, answer_val, setVal_val, BitVec.toNat_ofNat, Nat.mod_eq_of_lt hlt]

/-- A read inside the valid bytes ends at an offset that fits `POS` (10_state.md R12). -/
theorem afterRdbits_pos_toNat {k : Nat} (hroom : s.pos.toNat + k ≤ 8 * s.len.toNat) :
    (afterRdbits k s).pos.toNat = s.pos.toNat + k := by
  have hlen := s.len.isLt
  rw [afterRdbits, answer_pos, setVal_pos, setPos_pos, BitVec.toNat_ofNat, Nat.mod_eq_of_lt (by omega)]

@[simp] theorem afterRdbits_buf (k : Nat) : (afterRdbits k s).buf = s.buf := rfl

@[simp] theorem afterRdbits_len (k : Nat) : (afterRdbits k s).len = s.len := rfl

end Commands

/-- Settles O20: an accepted attach fills the buffer from index 0, and `getElem_fillBytes` says what that leaves. -/
theorem curAttachEffect : Obligations.CurAttachEffect := by
  intro s len data herr hlen hdata
  refine ⟨fillBytes s.buf 0 (data.take len.toNat), ?effect, fun k hk => ?byte⟩
  case effect =>
    have hset : setCursor (attachCursor s.buf len.toNat data) s =
        { s with buf := fillBytes s.buf 0 (data.take len.toNat), len := len, pos := 0 } := by
      simp [setCursor, attachCursor]
    rw [exec_curAttach, execCurAttach, accepted_free herr, if_pos ((lenInRange_iff len).2 hlen), hset]
    rfl
  case byte =>
    rw [getD_vector _ _ _ hk, getD_vector _ _ _ hk, getElem_fillBytes, ← hdata, List.take_length]
    by_cases hin : k < data.length <;> simp [hin]

/-- Settles O21: the two cases of `ReadBit()`. -/
theorem curRdbitEffect : Obligations.CurRdbitEffect := by
  intro s herr
  refine ⟨fun hroom => ?_, curRdbit_short herr⟩
  have hpos : BitVec.ofNat 9 (s.pos.toNat + 1) = s.pos + 1 := by simp [BitVec.ofNat_add]
  rw [curRdbit_room herr hroom, bitAt_eq, ← hpos]
  rfl

/-- Settles O22: the two cases of `ReadBits(n)`. -/
theorem curRdbitsEffect : Obligations.CurRdbitsEffect :=
  fun _ _ herr hn => ⟨curRdbits_room herr hn, curRdbits_short herr hn⟩

/-- Settles O23: the second read starts at the offset where the first ended, so `bufBits_add` splits the value. -/
theorem rdbitsSplit : Obligations.RdbitsSplit := by
  intro s a b n herr hsum hn hroom
  have hfirst : s.pos.toNat + a.toNat ≤ 8 * s.len.toNat := by omega
  have hmid : (afterRdbits a.toNat s).pos.toNat = s.pos.toNat + a.toNat := afterRdbits_pos_toNat hfirst
  have hsecond : (afterRdbits a.toNat s).pos.toNat + b.toNat ≤ 8 * (afterRdbits a.toNat s).len.toNat := by
    rw [hmid, afterRdbits_len]; omega
  refine ⟨_, _, _, curRdbits_room herr (by omega) hfirst, curRdbits_room herr (by omega) hsecond,
    curRdbits_room herr hn hroom, BitVec.eq_of_toNat_eq ?pos, ?val⟩
  case pos => rw [afterRdbits_pos_toNat hroom, afterRdbits_pos_toNat hsecond, hmid, hsum, Nat.add_assoc]
  case val =>
    rw [afterRdbits_val_toNat hn, afterRdbits_val_toNat (by omega), afterRdbits_val_toNat (by omega), hmid, hsum,
      afterRdbits_buf]
    exact bufBits_add s.buf s.pos.toNat a.toNat b.toNat

/-- Settles O24: one byte by `bufBits_byte`, two by splitting the read between them. -/
theorem rdbitsByteAligned : Obligations.RdbitsByteAligned := by
  intro s i herr hpos
  refine ⟨fun hbyte => ?byte, fun hpair => ?pair⟩
  case byte =>
    have hroom : s.pos.toNat + 8 ≤ 8 * s.len.toNat := by omega
    refine ⟨_, curRdbits_room herr (by decide) hroom, ?_⟩
    rw [afterRdbits_val_toNat (by decide), hpos]
    exact bufBits_byte s.buf i
  case pair =>
    have hroom : s.pos.toNat + 16 ≤ 8 * s.len.toNat := by omega
    refine ⟨_, curRdbits_room herr (by decide) hroom, ?_⟩
    rw [afterRdbits_val_toNat (by decide), hpos]
    calc bufBits s.buf (8 * i) (8 + 8)
      _ = bufBits s.buf (8 * i) 8 + 256 * bufBits s.buf (8 * (i + 1)) 8 := bufBits_add s.buf (8 * i) 8 8
      _ = (byteAt s.buf i).toNat + 256 * (byteAt s.buf (i + 1)).toNat := by rw [bufBits_byte, bufBits_byte]

/-! ### The rows of the position stream (30_encoding.md R67) -/

section PositionRows

variable {s : State}

/-- Every fixed-width row consumes the bits of its encoding, the en-passant square's only after a flag of 1. -/
theorem exec_posField {i : Instr} {f : PosField} (herr : s.err = 0) (hf : formatOf i = .posField f)
    (hflag : f = .epsq → s.work.epv = 1) : ∃ effect, exec i s = consumeSymbol (encode i).length effect s := by
  cases i <;> cases hf
  case posfEpsq sq => exact ⟨_, (accepted_free herr).trans (if_pos (hflag rfl))⟩
  all_goals exact ⟨_, rfl⟩

/-- The en-passant square's row does not exist after a flag of 0 (30_encoding.md R72). -/
theorem posfEpsq_unflagged {sq : Sq} (herr : s.err = 0) (hflag : s.work.epv = 0) :
    exec (.posfEpsq sq) s = .next (refusedAt s) := by
  have hnot : ¬ s.work.epv = 1 := by rw [hflag]; decide
  exact (accepted_free herr).trans (if_neg hnot)

end PositionRows

/-- Settles O41: a symbol without room faults, and the en-passant square without its flag is refused. -/
theorem positionRowsCutOff : Obligations.PositionRowsCutOff := by
  intro s i f herr hf
  refine ⟨fun hflag hshort => ?short, fun hepsq hflag => ?unflagged⟩
  case short =>
    obtain ⟨effect, hexec⟩ := exec_posField herr hf hflag
    exact hexec.trans (consumeSymbol_short herr (Nat.not_le.2 hshort))
  case unflagged =>
    subst hepsq
    cases i <;> cases hf
    exact posfEpsq_unflagged herr hflag

end Sys2Proof.Machine

/-! PROOFS of the piece code family (41_piececode.md): what `PIECE.DEC` does with the code at the cursor, and that it
is the row which the decoder finds there. -/

namespace Sys2Proof.Machine

/-! ### `PIECE.DEC` by what stands at the cursor (41_piececode.md R101) -/

section PieceDec

variable {s : State} {r : List Bool}

theorem pieceDec_of_sym {sym : PieceSym} (herr : s.err = 0)
    (hcode : takeSymCode (bitsAhead (cursorOf s)) = .ok (.sym sym, r)) :
    exec .pieceDec s = .next (afterPiece (symLength sym) (symKind sym) (symColour sym) s) := by
  rw [exec_pieceDec, execPieceDec, accepted_free herr, decodePiece_eq, hcode]
  rfl

theorem pieceDec_of_unassigned {code : BitVec 4} (herr : s.err = 0)
    (hcode : takeSymCode (bitsAhead (cursorOf s)) = .ok (.unassigned code, r)) :
    exec .pieceDec s = .next (corruptAt s) := by
  rw [exec_pieceDec, execPieceDec, accepted_free herr, decodePiece_eq, hcode]
  rfl

theorem pieceDec_of_error {e : DecodeError} (herr : s.err = 0)
    (hcode : takeSymCode (bitsAhead (cursorOf s)) = .error e) : exec .pieceDec s = .next (truncatedAt s) := by
  rw [exec_pieceDec, execPieceDec, accepted_free herr, decodePiece_eq, hcode]
  rfl

/-- A symbol's encoding at the cursor is decoded to that symbol (41_piececode.md R104). -/
theorem pieceDec_encodeSym {sym : PieceSym} (herr : s.err = 0) (hbits : bitsAhead (cursorOf s) = encodeSym sym ++ r) :
    exec .pieceDec s = .next (afterPiece (symLength sym) (symKind sym) (symColour sym) s) :=
  pieceDec_of_sym herr (hbits ▸ takeSymCode_append sym r)

/-- An unassigned code at the cursor is corrupt, whatever follows it (41_piececode.md R103). -/
theorem pieceDec_unassigned_append {code : Nat} (herr : s.err = 0) (hfirst : code % 2 = 1)
    (hkind : kindOfCode (BitVec.ofNat 4 code).toNat = none) (hbits : bitsAhead (cursorOf s) = bitsOfNat 4 code ++ r) :
    exec .pieceDec s = .next (corruptAt s) :=
  pieceDec_of_unassigned herr (hbits ▸ takeSymCode_unassigned hfirst hkind r)

/-! ### The rows by themselves, where the decoder finds them -/

/-- Bits that stand ahead of the cursor leave room for as many; without a bit ahead, `POS` may lie past the end. -/
theorem room_of_le_length_bitsAhead {n : Nat} (hn : 0 < n) (h : n ≤ (bitsAhead (cursorOf s)).length) :
    s.pos.toNat + n ≤ 8 * s.len.toNat := by
  rw [length_bitsAhead] at h
  simp only [cursorOf] at h
  omega

theorem symLength_pos (sym : PieceSym) : 0 < symLength sym := by cases sym <;> exact Nat.succ_pos _

theorem exec_rowOfSym (sym : PieceSym) (s : State) : exec (rowOfSym sym) s = deliverSym sym s := by
  cases sym with
  | empty => rfl
  | man k c => cases k <;> rfl

theorem exec_rowOfUnassigned (code : BitVec 4) (s : State) : exec (rowOfUnassigned code) s = rejectCode s := by
  unfold rowOfUnassigned
  split <;> rfl

/-- An unassigned code is told only once its four bits are there (41_piececode.md R103). -/
theorem four_le_length_of_unassigned {bits : List Bool} {code : BitVec 4}
    (h : takeSymCode bits = .ok (.unassigned code, r)) : 4 ≤ bits.length := by
  match bits, h with
  | [], h => cases h
  | false :: _, h => cases h
  | true :: l, h =>
    by_contra hshort
    rw [takeSymCode, takeField_short (Nat.not_le.1 hshort)] at h
    cases h

theorem exec_rowOfSym_found {sym : PieceSym} (herr : s.err = 0)
    (hcode : takeSymCode (bitsAhead (cursorOf s)) = .ok (.sym sym, r)) :
    exec (rowOfSym sym) s = .next (afterPiece (symLength sym) (symKind sym) (symColour sym) s) := by
  have hlength : symLength sym ≤ (bitsAhead (cursorOf s)).length := by
    rw [takeSymCode_ok hcode, List.length_append, length_encodeSym]
    exact Nat.le_add_right _ _
  rw [exec_rowOfSym, deliverSym_room herr (room_of_le_length_bitsAhead (symLength_pos sym) hlength)]

theorem exec_rowOfUnassigned_found {code : BitVec 4} (herr : s.err = 0)
    (hcode : takeSymCode (bitsAhead (cursorOf s)) = .ok (.unassigned code, r)) :
    exec (rowOfUnassigned code) s = .next (corruptAt s) := by
  rw [exec_rowOfUnassigned,
    rejectCode_room herr (room_of_le_length_bitsAhead (by decide) (four_le_length_of_unassigned hcode))]

end PieceDec

/-! ### The three claims -/

/-- Settles O28: a symbol, an unassigned code or too few bits at the cursor; in each case the command and the row found
end in the same state. -/
theorem pieceDecIsSymbolRow : Obligations.PieceDecIsSymbolRow := by
  intro s herr
  rw [decode, decodePieceSymbol]
  rcases hcode : takeSymCode (bitsAhead (cursorOf s)) with e | ⟨sym | code, r⟩
  · exact pieceDec_of_error herr hcode
  · exact (pieceDec_of_sym herr hcode).trans (exec_rowOfSym_found herr hcode).symm
  · exact (pieceDec_of_unassigned herr hcode).trans (exec_rowOfUnassigned_found herr hcode).symm

/-- Settles O26: the bits are the encoding of the empty square, or of the kind and the colour. -/
theorem pieceDecDecodes : Obligations.PieceDecDecodes := by
  intro s r herr
  refine ⟨pieceDec_encodeSym (sym := .empty) herr, fun c => ?_⟩
  have hman (k : Kind) (hbits : bitsAhead (cursorOf s) = bitsOfNat 4 (codeOfKind k) ++ [c] ++ r) :
      exec .pieceDec s = .next (afterPiece 5 (kindNumber k) (BitVec.ofBool c) s) := by
    have hcolour : bitsOf (BitVec.ofBool c) = [c] := by cases c <;> rfl
    exact pieceDec_encodeSym (sym := .man k (BitVec.ofBool c)) herr (by rw [hbits, encodeSym, hcolour])
  exact ⟨hman .pawn, hman .knight, hman .bishop, hman .rook, hman .queen⟩

/-- Settles O27: the four bits of an unassigned code are told at once, and bits that are cut off decode to no row. -/
theorem pieceDecRejects : Obligations.PieceDecRejects := by
  refine fun s herr => ⟨fun r hbits => ?corrupt, fun i cut hf hcut hbits => ?truncated⟩
  case corrupt =>
    rcases hbits with hB | hD | hF
    · exact pieceDec_unassigned_append (code := 0b1011) herr rfl rfl hB
    · exact pieceDec_unassigned_append (code := 0b1101) herr rfl rfl hD
    · exact pieceDec_unassigned_append (code := 0b1111) herr rfl rfl hF
  case truncated =>
    have hrow := pieceDecIsSymbolRow s herr
    rwa [decode_pieceSymbol_cut hf hcut hbits] at hrow

end Sys2Proof.Machine

/-! PROOFS of the position family (42_position.md): the rows of a position stream by themselves and one after another,
`POS.DEC` on a stream that fits, on one that is cut off and on one that holds an unassigned code. -/

namespace Sys2Proof.Machine

/-! ### What a row does to the scratch position -/

/-- The scratch position that a row before the last leaves (42_position.md R111 to R118); none when the row is refused
or is no such row. -/
def rowWork : Instr → Work → Option Work
  | .posfTurn t, _ => some (startWork t)
  | .posfK1 k, w => some (putK1 k w)
  | .posfK2 k, w => some (putK2 k w)
  | .posfPieces syms, w => placeRun visitOrder syms w
  | .posfWk b, w => some (putCastle 0 b w)
  | .posfWq b, w => some (putCastle 1 b w)
  | .posfBk b, w => some (putCastle 2 b w)
  | .posfBq b, w => some (putCastle 3 b w)
  | .posfEpf e, w => some (putEpf e w)
  | .posfEpsq sq, w => if w.epv = 1 then some (putEpsq sq w) else none
  | .posfHmcLo h, w => some (putHmcLo h w)
  | .posfFmnLo l, w => some (putFmnLo l w)
  | .posfFmnHi u, w => some (putFmnHi u w)
  | _, _ => none

section Rows

variable {s : State} {w w' : Work}

/-- A row that exists consumes the bits of its encoding and does its step. -/
theorem exec_row {i : Instr} (herr : s.err = 0) (hrow : rowWork i s.work = some w) :
    exec i s = consumeSymbol (encode i).length (setWork w) s := by
  cases i <;> simp only [rowWork, reduceCtorEq, Option.some.injEq] at hrow
  case posfPieces syms =>
    rw [exec_posfPieces, execPosfPieces, accepted_free herr, hrow, encode_posfPieces, length_encodeSyms]
    rfl
  case posfEpsq sq =>
    split at hrow
    · rename_i hflag
      obtain rfl := Option.some.inj hrow
      exact (accepted_free herr).trans (if_pos hflag)
    · cases hrow
  all_goals subst hrow; rfl

theorem exec_row_room {i : Instr} (herr : s.err = 0) (hrow : rowWork i s.work = some w)
    (hroom : s.pos.toNat + (encode i).length ≤ 8 * s.len.toNat) :
    exec i s = .next (afterField (encode i).length w s) :=
  (exec_row herr hrow).trans (consumeSymbol_room herr hroom)

theorem exec_row_short {i : Instr} (herr : s.err = 0) (hrow : rowWork i s.work = some w)
    (hshort : 8 * s.len.toNat < s.pos.toNat + (encode i).length) : exec i s = .next (truncatedAt s) :=
  (exec_row herr hrow).trans (consumeSymbol_short herr (Nat.not_le.2 hshort))

end Rows

/-- Settles O37: the three rows exist in every state. -/
theorem positionHeadRows : Obligations.PositionHeadRows := by
  intro s herr
  exact ⟨fun t => exec_row_room (i := .posfTurn t) herr rfl, fun k => exec_row_room (i := .posfK1 k) herr rfl,
    fun k => exec_row_room (i := .posfK2 k) herr rfl⟩

/-- Settles O39: the rows exist, the en-passant square's because the flag is 1. -/
theorem positionTailRows : Obligations.PositionTailRows := by
  intro s herr
  refine ⟨fun hroom b => ⟨?wk, ?wq, ?bk, ?bq, ?epf⟩, fun hroom hflag sq => ?epsq, fun hroom h => ?hmcLo,
    fun hroom b => ⟨?fmnLo, ?fmnHi⟩⟩
  case wk =>
    rw [← BitVec.shiftLeft_zero (b.setWidth 4)]
    exact exec_row_room (i := .posfWk b) herr rfl hroom
  case wq => exact exec_row_room (i := .posfWq b) herr rfl hroom
  case bk => exact exec_row_room (i := .posfBk b) herr rfl hroom
  case bq => exact exec_row_room (i := .posfBq b) herr rfl hroom
  case epf => exact exec_row_room (i := .posfEpf b) herr rfl hroom
  case epsq => exact exec_row_room (i := .posfEpsq sq) herr (if_pos hflag) hroom
  case hmcLo => exact exec_row_room (i := .posfHmcLo h) herr rfl hroom
  case fmnLo => exact exec_row_room (i := .posfFmnLo b) herr rfl hroom
  case fmnHi => exact exec_row_room (i := .posfFmnHi b) herr rfl hroom

theorem joinHmc_eq (hi : Bit) (lo : BitVec 6) : joinHmc hi lo = BitVec.ofNat 7 (64 * hi.toNat + lo.toNat) := by
  rw [← joinHmc_toNat, BitVec.ofNat_toNat, BitVec.setWidth_eq]

theorem joinFmn_eq (hi lo : Byte) : joinFmn hi lo = BitVec.ofNat 16 (256 * hi.toNat + lo.toNat) := by
  rw [← joinFmn_toNat, BitVec.ofNat_toNat, BitVec.setWidth_eq]

theorem posfHmcHi_room {s : State} {h : Bit} (herr : s.err = 0) (hroom : s.pos.toNat + 1 ≤ 8 * s.len.toNat) :
    exec (.posfHmcHi h) s = .next (answer .ok (setPosition s.work h (setPos (s.pos.toNat + 1) s))) :=
  consumeSymbol_room herr hroom

/-- Settles O40: the last row shows the scratch position, its counters joined. -/
theorem positionLastRow : Obligations.PositionLastRow := by
  intro s h herr hroom
  rw [posfHmcHi_room herr hroom, ← joinHmc_eq, ← joinFmn_eq]
  rfl

/-! ### The row of the piece symbols (42_position.md R113, R114) -/

/-- There is one symbol for each square that is due exactly when the row exists. -/
theorem placeRun_isSome_iff_due {syms : List PieceSym} {w : Work} :
    (placeRun visitOrder syms w).isSome = true ↔ syms.length = (dueSquares w.k1 w.k2).length := by
  rw [placeRun_isSome, visitOrder_filter]

/-- A square that is due takes its symbol's piece. -/
theorem placeRun_due_cell {syms : List PieceSym} {w w' : Work} (h : placeRun visitOrder syms w = some w') (sq : Sq) :
    w'.board.getD sq.toNat 0 =
      cellOf (syms.getD ((dueSquares w.k1 w.k2).idxOf sq) .empty) (w.board.getD sq.toNat 0) := by
  rw [(placeRun_spec h visit_nodup).2 sq, visitOrder_filter]

theorem isKingSq_iff {w : Work} {sq : Sq} : isKingSq w sq = true ↔ sq = w.k1 ∨ sq = w.k2 := by
  simp [isKingSq]

theorem boardCell_eq (c : Bit) (n : BitVec 3) : boardCell c n = BitVec.ofNat 4 (8 * c.toNat + n.toNat) := by
  revert c n; decide

/-- Settles O38: the row exists when the symbols are as many as the squares that are due. -/
theorem positionPiecesRow : Obligations.PositionPiecesRow := by
  intro s syms herr due
  refine ⟨fun hcount hroom => ?room, fun hcount hshort => ?short, fun hcount => ?count⟩
  case room =>
    obtain ⟨w, hrun⟩ := Option.isSome_iff_exists.1 (placeRun_isSome_iff_due.2 hcount)
    refine ⟨w.board, ?_, fun sq => ?_⟩
    · rw [exec_row_room (i := .posfPieces syms) herr hrun hroom, ← (placeRun_spec hrun visit_nodup).1]
    · split
      · rename_i hking
        exact placeRun_isKingSq hrun (isKingSq_iff.2 hking)
      · rw [placeRun_due_cell hrun sq]
        cases syms.getD (due.idxOf sq) .empty with
        | empty => rfl
        | man k c => exact boardCell_eq c (kindNumber k)
  case short =>
    obtain ⟨w, hrun⟩ := Option.isSome_iff_exists.1 (placeRun_isSome_iff_due.2 hcount)
    exact exec_row_short herr hrun hshort
  case count =>
    have hnone : placeRun visitOrder syms s.work = none := by
      rw [← Option.not_isSome_iff_eq_none, placeRun_isSome_iff_due]
      exact hcount
    rw [exec_posfPieces, execPosfPieces, accepted_free herr, hnone]
    rfl

/-! ### The length of a stream (30_encoding.md R67) -/

theorem symLength_eq (sym : PieceSym) : symLength sym = 1 + if sym != .empty then 4 else 0 := by
  cases sym <;> rfl

theorem runLength_eq (syms : List PieceSym) :
    runLength syms = syms.length + 4 * syms.countP fun sym => sym != .empty := by
  induction syms with
  | nil => rfl
  | cons sym syms ih =>
    rw [runLength_cons, symLength_eq, ih, List.length_cons, List.countP_cons]
    split <;> omega

theorem PosStream.length_bits (p : PosStream) :
    p.bits.length = p.syms.length + 41 + 4 * p.pieces + 6 * p.epFlag := by
  have hep : (epBits p.ep).length = 1 + 6 * p.epFlag := by
    rw [length_epBits, PosStream.epFlag]
    split <;> rfl
  simp only [PosStream.bits, List.length_append, length_bitsOf, length_encodeSyms, runLength_eq, hep, PosStream.pieces]
  omega

/-- Settles O32: 41 bits, one for each symbol, four more for each piece and six for an en-passant square. -/
theorem streamLength : Obligations.StreamLength := by
  intro p hcount
  rw [p.length_bits, hcount]
  split <;> omega

/-! ### `POS.DEC` by what its nine steps answer (42_position.md R110, R121) -/

section PosDec

variable {s : State} {len : BitVec 6} {data : List Byte}

theorem posDec_completes {p : Work × Bit × Cursor} (herr : s.err = 0) (hlen : len.toNat ≤ 32)
    (h : decodePosition s.buf data len.toNat = .ok p) :
    exec (.posDec len data) s = .next (answer .ok (commitPosition p s)) := by
  rw [exec_posDec, execPosDec, accepted_free herr, if_pos ((lenInRange_iff len).2 hlen), h]
  rfl

theorem posDec_faults {e : Cause} (herr : s.err = 0) (hlen : len.toNat ≤ 32)
    (h : decodePosition s.buf data len.toNat = .error e) : exec (.posDec len data) s = .next (takeFault e s) := by
  rw [exec_posDec, execPosDec, accepted_free herr, if_pos ((lenInRange_iff len).2 hlen), h]
  rfl

/-- With 32 bytes the decode is the nine steps from bit 0. -/
theorem decodePosition_full (buf : Vector Byte 32) (data : List Byte) :
    decodePosition buf data 32 = readPosition (attachCursor buf 32 data) := rfl

theorem bitsAhead_attach_full (hlen : data.length = 32) (buf : Vector Byte 32) :
    bitsAhead (attachCursor buf 32 data) = bitsOfBytes data := by
  rw [← hlen, bitsAhead_attach buf data hlen.le]

end PosDec

/-- Settles O33: the bytes are counted before a bit is read. -/
theorem posDecShortFaults : Obligations.PosDecShortFaults :=
  fun _ _ _ herr hshort => posDec_faults herr (by omega) (if_pos hshort)

theorem PosStream.heads.length_le {p : PosStream} {data : List Byte} (h : p.heads data) : p.bits.length ≤ 256 := by
  obtain ⟨hlen, pad, hbits⟩ := h
  have hlength := congrArg List.length hbits
  rw [length_bitsOfBytes, hlen, List.length_append] at hlength
  omega

/-! ### A stream that fits -/

theorem cellOf_zero (sym : PieceSym) : cellOf sym 0 = boardCell (symColour sym) (symKind sym) := by
  cases sym <;> rfl

theorem PosStream.cellAt_due (p : PosStream) {sq : Sq} (hne1 : sq ≠ p.k1) (hne2 : sq ≠ p.k2) :
    p.cellAt sq = cellOf (p.syms.getD (p.filled.idxOf sq) .empty) 0 := by
  rw [PosStream.cellAt, if_neg hne2, if_neg hne1, List.getD_eq_getElem?_getD, cellOf_zero]
  cases p.syms[p.filled.idxOf sq]? <;> rfl

section Fits

variable {s : State} {p : PosStream} {data : List Byte} {w : Work}
  (hrun : placeRun visitOrder p.syms (putK2 p.k2 (putK1 p.k1 (startWork p.turn))) = some w)
include hrun

/-- The state that `POS.DEC` leaves after a stream whose symbols leave the scratch position `w`. -/
theorem posDec_heads (herr : s.err = 0) (hheads : p.heads data) :
    exec (.posDec 32 data) s = .next (answer .ok (commitPosition
      (finishedWork p w, p.hHi, cursorAfter (attachCursor s.buf 32 data) p.bits.length) s)) := by
  obtain ⟨hlen, pad, hbits⟩ := hheads
  refine posDec_completes (len := 32) herr le_rfl ((decodePosition_full s.buf data).trans ?_)
  exact readPosition_stream hrun ((bitsAhead_attach_full hlen s.buf).trans hbits)

/-- The board after the run is the one the stream spells. -/
theorem run_cellAt (sq : Sq) : w.board.getD sq.toNat 0 = p.cellAt sq := by
  by_cases hking : sq = p.k1 ∨ sq = p.k2
  · rw [placeRun_isKingSq hrun (isKingSq_iff.2 hking), kings_cell, PosStream.cellAt]
    rcases hking with rfl | rfl <;> simp
  · obtain ⟨hne1, hne2⟩ := not_or.1 hking
    rw [placeRun_due_cell hrun, kings_cell, if_neg hne2, if_neg hne1]
    exact (p.cellAt_due hne1 hne2).symm

theorem run_turn : w.turn = p.turn := by rw [(placeRun_spec hrun visit_nodup).1]; rfl

theorem run_castle : w.castle = 0 := by rw [(placeRun_spec hrun visit_nodup).1]; rfl

/-- What the decode leaves in the registers is what the stream's fields say. -/
theorem shown_of_run (hfits : p.bits.length ≤ 256) : p.Shown (answer .ok (commitPosition
    (finishedWork p w, p.hHi, cursorAfter (attachCursor s.buf 32 data) p.bits.length) s)) where
  board sq := by
    show (finishedWork p w).board.getD sq.toNat 0 = p.cellAt sq
    rw [finishedWork_board, run_cellAt hrun]
  turn := (finishedWork_turn p w).trans (run_turn hrun)
  castle := by
    show (finishedWork p w).castle.toNat = _
    rw [finishedWork_castle, castle_toNat _ _ _ _ _ (run_castle hrun)]
  ep := by
    show (if (finishedWork p w).epv = 1 then some (finishedWork p w).epsq else none) = p.ep
    rw [finishedWork_epv, finishedWork_epsq]
    cases p.ep <;> simp
  epsq hnone := by
    show (finishedWork p w).epsq = 0
    rw [finishedWork_epsq, hnone, Option.getD_none]
  hmc := joinHmc_toNat _ _
  fmn := joinFmn_toNat _ _
  pos := by
    show (BitVec.ofNat 9 (0 + p.bits.length)).toNat = p.bits.length
    rw [BitVec.toNat_ofNat]
    omega
  len := rfl

end Fits

/-- A full attach leaves the bytes in the buffer (40_bitcursor.md R90). -/
theorem bufHolds_of_attach {t : State} {buf : Vector Byte 32} {data : List Byte} (hlen : data.length = 32)
    (hbuf : t.buf = (attachCursor buf 32 data).buf) : bufHolds t data := by
  intro k hk
  have hk32 : k < 32 := hlen ▸ hk
  have htake : data.take 32 = data := List.take_of_length_le hlen.le
  rw [hbuf, getD_vector _ _ _ hk32]
  simp [attachCursor, getElem_fillBytes, htake, hk]

/-- Settles O31: the symbols are as many as the squares that are due, so the nine steps complete, and the state they
leave shows the stream. -/
theorem posDecDecodes : Obligations.PosDecDecodes := by
  intro s p data herr hcount hheads
  obtain ⟨w, hrun⟩ := placeRun_some p hcount
  exact ⟨_, posDec_heads hrun herr hheads, rfl, shown_of_run hrun hheads.length_le,
    bufHolds_of_attach (buf := s.buf) hheads.1 rfl, rfl⟩

/-! ### The rows of a stream one after another (30_encoding.md R67) -/

section RowByRow

variable {s : State} {w w' : Work}

theorem exec_curAttach_full {data : List Byte} (herr : s.err = 0) :
    exec (.curAttach 32 data) s = .next (answer .ok (setCursor (attachCursor s.buf 32 data) s)) :=
  accepted_free herr

theorem execAll_cons {i : Instr} {is : List Instr} {s t : State} (h : exec i s = .next t) :
    execAll (i :: is) s = execAll is t := by
  rw [execAll, h]

theorem execAll_append {is js : List Instr} {s t : State} (h : execAll is s = .next t) :
    execAll (is ++ js) s = execAll js t := by
  induction is generalizing s with
  | nil => injection h with h; subst h; rfl
  | cons i is ih =>
    rw [List.cons_append, execAll]
    rw [execAll] at h
    split at h
    · exact ih h
    · cases h
    · cases h

theorem afterField_afterField (m n : Nat) (w w' : Work) (s : State) :
    afterField n w' (afterField m w s) = afterField (m + n) w' s := by
  have hpos : BitVec.ofNat 9 ((BitVec.ofNat 9 (s.pos.toNat + m)).toNat + n) =
      BitVec.ofNat 9 (s.pos.toNat + (m + n)) := by
    apply BitVec.eq_of_toNat_eq
    simp only [BitVec.toNat_ofNat]
    omega
  simp only [afterField, hpos]

/-- Rows that exist one after another, met after `k` bits, each do their step and consume their encodings. -/
theorem execAll_rows {rows : List Instr} {k : Nat} (herr : s.err = 0)
    (hrows : rows.foldlM (fun w i => rowWork i w) w = some w')
    (hroom : s.pos.toNat + (k + (rows.flatMap encode).length) ≤ 8 * s.len.toNat) :
    execAll rows (afterField k w s) = .next (afterField (k + (rows.flatMap encode).length) w' s) := by
  induction rows generalizing k w with
  | nil => obtain rfl := Option.some.inj hrows; rfl
  | cons i rows ih =>
    obtain ⟨w1, hrow, hrest⟩ := Option.bind_eq_some_iff.1 hrows
    rw [List.flatMap_cons, List.length_append] at hroom ⊢
    have hpos : (afterField k w s).pos.toNat = s.pos.toNat + k := Advances.toNat_pos (.inr (by omega))
    have hexec : exec i (afterField k w s) = .next (afterField (k + (encode i).length) w1 s) := by
      rw [exec_row_room (s := afterField k w s) herr hrow (by rw [hpos]; show _ ≤ 8 * s.len.toNat; omega),
        afterField_afterField]
    rw [execAll_cons hexec, ← Nat.add_assoc]
    exact ih hrest (by omega)

/-- All rows of a stream but the last. -/
def PosStream.fieldRows (p : PosStream) : List Instr := p.rows.dropLast

theorem PosStream.rows_eq (p : PosStream) : p.rows = p.fieldRows ++ [.posfHmcHi p.hHi] := by
  rw [PosStream.fieldRows, PosStream.rows]
  cases p.ep <;> rfl

/-- The rows spell the stream. -/
theorem PosStream.bits_eq (p : PosStream) : p.bits = p.fieldRows.flatMap encode ++ bitsOf p.hHi := by
  rw [PosStream.fieldRows, PosStream.rows, PosStream.bits]
  cases p.ep <;> simp [encode, epBits, bitsOf, bitsOfNat]

/-- The steps of the rows before the last, in order, are the steps of the decode. -/
theorem fieldRows_work {p : PosStream}
    (hrun : placeRun visitOrder p.syms (putK2 p.k2 (putK1 p.k1 (startWork p.turn))) = some w') :
    p.fieldRows.foldlM (fun w i => rowWork i w) w = some (finishedWork p w') := by
  rw [PosStream.fieldRows, PosStream.rows, finishedWork]
  cases p.ep <;> simp [rowWork, hrun, putEpf]

theorem afterField_zero (hresp : s.resp = .ok) : afterField 0 s.work s = s := by
  simp only [afterField, Nat.add_zero, BitVec.ofNat_toNat, BitVec.setWidth_eq, ← hresp]

/-- All rows of a stream for which there is room: the fields leave the scratch position of the decode, and the last
row shows it (42_position.md R120). -/
theorem execAll_stream {p : PosStream} (herr : s.err = 0) (hresp : s.resp = .ok)
    (hroom : s.pos.toNat + p.bits.length ≤ 8 * s.len.toNat)
    (hrun : placeRun visitOrder p.syms (putK2 p.k2 (putK1 p.k1 (startWork p.turn))) = some w) :
    execAll p.rows s = .next (answer .ok (setPosition (finishedWork p w) p.hHi
      (setPos (s.pos.toNat + p.bits.length) (setWork (finishedWork p w) s)))) := by
  let n := (p.fieldRows.flatMap encode).length
  have hlength : p.bits.length = n + 1 := by rw [p.bits_eq, List.length_append, length_bitsOf]
  have hfields : execAll p.fieldRows s = .next (afterField n (finishedWork p w) s) := by
    have hall := execAll_rows (k := 0) herr (fieldRows_work (w := s.work) hrun) (by omega)
    rwa [afterField_zero hresp, Nat.zero_add] at hall
  have hpos : (afterField n (finishedWork p w) s).pos.toNat + 1 = s.pos.toNat + p.bits.length := by
    have hn : (afterField n (finishedWork p w) s).pos.toNat = s.pos.toNat + n := Advances.toNat_pos (.inr (by omega))
    omega
  have hlast := posfHmcHi_room (s := afterField n (finishedWork p w) s) (h := p.hHi) herr (hpos ▸ hroom)
  rw [p.rows_eq, execAll_append hfields, execAll_cons hlast, hpos]
  rfl

end RowByRow

/-- Showing a position after a cursor move is committing a decode that ended there, but for the hidden state. -/
theorem commitPosition_eq (w : Work) (h : Bit) (c : Cursor) (n : Nat) (s : State) :
    answer .ok (commitPosition (w, h, cursorAfter c n) s) =
      { answer .ok (setPosition w h (setPos (c.pos + n) (setWork w (answer .ok (setCursor c s))))) with
        work := s.work } := rfl

/-- Settles O42: attaching leaves the cursor at bit 0 with room for the stream, and its rows show the position that the
decode shows. -/
theorem posDecIsItsRows : Obligations.PosDecIsItsRows := by
  intro s p data herr hcount hheads
  obtain ⟨w, hrun⟩ := placeRun_some p hcount
  let a := answer .ok (setCursor (attachCursor s.buf 32 data) s)
  have hpos : a.pos.toNat = 0 := rfl
  have hlen : a.len.toNat = 32 := rfl
  have hfits := hheads.length_le
  have hrows := execAll_stream (s := a) herr rfl (by omega) hrun
  rw [hpos] at hrows
  exact ⟨_, (execAll_cons (exec_curAttach_full herr)).trans hrows,
    (posDec_heads hrun herr hheads).trans (congrArg _ (commitPosition_eq _ _ _ _ _))⟩

/-! ### A stream that the valid bytes cut off (40_bitcursor.md R91, 42_position.md R121 (b)) -/

/-- What a read can do when the bits ahead are the bits of `v` and of `rest` without their last bits `cut`: it runs out
of bits, or it delivers `v` and leaves `rest` without `cut`. -/
inductive ReadsCut {α : Type} (v : α) (rest cut : List Bool) : Except Cause (α × Cursor) → Prop
  | truncated : ReadsCut v rest cut (.error .truncatedRecord)
  | read {c : Cursor} (h : bitsAhead c ++ cut = rest) : ReadsCut v rest cut (.ok (v, c))

/-- Bits that begin with a code and are cut off: the code is whole, or the bits end inside it. -/
theorem whole_or_cut {ahead cut code rest : List Bool} (h : ahead ++ cut = code ++ rest) :
    (∃ r, ahead = code ++ r ∧ r ++ cut = rest) ∨ ∃ e, e ≠ [] ∧ ahead ++ e = code := by
  rcases List.append_eq_append_iff.1 h with ⟨e, hcode, hcut⟩ | ⟨r, hahead, hrest⟩
  · rcases eq_or_ne e [] with rfl | hne
    · exact .inl ⟨[], by simpa using hcode.symm, by simpa using hcut⟩
    · exact .inr ⟨e, hne, hcode.symm⟩
  · exact .inl ⟨r, hahead, hrest.symm⟩

section Cut

variable {c : Cursor} {rest cut : List Bool}

/-- A sequence of reads is truncated if its later part is, whenever the first read completes. -/
theorem ReadsCut.bind_truncated {α β : Type} {v : α} {x : Except Cause (α × Cursor)}
    {f : α × Cursor → Except Cause β} (hx : ReadsCut v rest cut x)
    (hf : ∀ c, bitsAhead c ++ cut = rest → f (v, c) = .error .truncatedRecord) :
    (x >>= f) = .error .truncatedRecord := by
  cases hx with
  | truncated => rfl
  | read h => exact hf _ h

theorem readField_cut {n : Nat} {v : BitVec n} (h : bitsAhead c ++ cut = bitsOf v ++ rest) :
    ReadsCut v rest cut (readField n c) := by
  rcases whole_or_cut h with ⟨r, hahead, hrest⟩ | ⟨e, hne, hv⟩
  · obtain ⟨hread, hafter⟩ := readField_append hahead
    rw [hread]
    exact .read (by rw [hafter, hrest])
  · have hlength := congrArg List.length hv
    rw [List.length_append, length_bitsOf] at hlength
    have hpos := List.length_pos_of_ne_nil hne
    rw [readField_eq, takeField_short (by omega)]
    exact .truncated

/-- A symbol that is cut off is no code yet (30_encoding.md R64). -/
theorem takeSymCode_cut {bits e : List Bool} {sym : PieceSym} (hne : e ≠ []) (h : bits ++ e = encodeSym sym) :
    ∃ err, takeSymCode bits = .error err := by
  have hrow : formatOf (rowOfSym sym) = .pieceSymbol ∧ encode (rowOfSym sym) = encodeSym sym := by
    cases sym with
    | empty => exact ⟨rfl, rfl⟩
    | man k c => cases k <;> exact ⟨rfl, rfl⟩
  have hdecode := decode_pieceSymbol_cut hrow.1 hne (h.trans hrow.2.symm)
  rw [decode, decodePieceSymbol] at hdecode
  rcases hcode : takeSymCode bits with err | ⟨code, r⟩
  · exact ⟨err, rfl⟩
  · rw [hcode] at hdecode
    cases code <;> cases hdecode

theorem decodePiece_cut {sym : PieceSym} (h : bitsAhead c ++ cut = encodeSym sym ++ rest) :
    ReadsCut sym rest cut (decodePiece c) := by
  rcases whole_or_cut h with ⟨r, hahead, hrest⟩ | ⟨e, hne, hsym⟩
  · rw [decodePiece_append hahead]
    exact .read (by rw [bitsAhead_after hahead (length_encodeSym sym), hrest])
  · obtain ⟨err, hcode⟩ := takeSymCode_cut hne hsym
    rw [decodePiece_eq, hcode]
    exact .truncated

theorem decodeSquares_cut {order : List Sq} {syms : List PieceSym} {w w' : Work}
    (hrun : placeRun order syms w = some w') (h : bitsAhead c ++ cut = syms.flatMap encodeSym ++ rest) :
    ReadsCut w' rest cut (decodeSquares order w c) := by
  induction order generalizing syms w c with
  | nil =>
    cases syms with
    | nil => obtain rfl := Option.some.inj hrun; exact .read h
    | cons sym syms => cases hrun
  | cons sq order ih =>
    rw [placeRun] at hrun
    rw [decodeSquares]
    split at hrun
    · rename_i hking
      rw [if_pos hking]
      exact ih hrun h
    · rename_i hdue
      rw [if_neg hdue]
      cases syms with
      | nil => cases hrun
      | cons sym syms =>
        rw [List.flatMap_cons, List.append_assoc] at h
        have hsym := decodePiece_cut h
        generalize decodePiece c = x at hsym ⊢
        cases hsym with
        | truncated => exact .truncated
        | read hafter => exact ih hrun hafter

/-- The flag, and the square only after a flag of 1 (30_encoding.md R67). -/
theorem epBits_eq (ep : Option Sq) : epBits ep = bitsOf (if ep.isSome then 1 else 0 : Bit) ++ ep.elim [] bitsOf := by
  cases ep <;> rfl

theorem readEpsq_cut {ep : Option Sq} {w : Work} (hflag : w.epv = if ep.isSome then 1 else 0)
    (h : bitsAhead c ++ cut = ep.elim [] bitsOf ++ rest) :
    ReadsCut (ep.elim w (putEpsq · w)) rest cut (readEpsq w c) := by
  cases ep with
  | none =>
    have hnot : ¬ w.epv = 1 := by rw [hflag]; decide
    rw [readEpsq, if_neg hnot]
    exact .read h
  | some sq =>
    have hone : w.epv = 1 := hflag
    rw [readEpsq, if_pos hone]
    have hsq := readField_cut (v := sq) h
    generalize readField 6 c = x at hsq ⊢
    cases hsq with
    | truncated => exact .truncated
    | read hafter => exact .read hafter

/-- The nine steps on a stream of which bits are missing: each completes or runs out of bits, and the last cannot
complete. -/
theorem readPosition_cut {p : PosStream} {w : Work}
    (hrun : placeRun visitOrder p.syms (putK2 p.k2 (putK1 p.k1 (startWork p.turn))) = some w)
    (hcut : cut ≠ []) (h : bitsAhead c ++ cut = p.bits) : readPosition c = .error .truncatedRecord := by
  have hturn : bitsAhead c ++ cut = p.bits ++ [] := by rw [h, List.append_nil]
  simp only [PosStream.bits, epBits_eq, List.append_assoc] at hturn
  refine (readField_cut hturn).bind_truncated fun c hk1 => ?_
  refine (readField_cut hk1).bind_truncated fun c hk2 => ?_
  refine (readField_cut hk2).bind_truncated fun c hsyms => ?_
  refine (decodeSquares_cut hrun hsyms).bind_truncated fun c hwk => ?_
  refine (readField_cut hwk).bind_truncated fun c hwq => ?_
  refine (readField_cut hwq).bind_truncated fun c hbk => ?_
  refine (readField_cut hbk).bind_truncated fun c hbq => ?_
  refine (readField_cut hbq).bind_truncated fun c hflag => ?_
  refine (readField_cut hflag).bind_truncated fun c hsq => ?_
  refine (readEpsq_cut rfl hsq).bind_truncated fun c hhmc => ?_
  refine (readField_cut hhmc).bind_truncated fun c hlow => ?_
  refine (readField_cut hlow).bind_truncated fun c hhigh => ?_
  refine (readField_cut hhigh).bind_truncated fun c hlast => ?_
  exact (readField_cut hlast).bind_truncated fun c hend => absurd (List.append_eq_nil_iff.1 hend).2 hcut

end Cut

/-- Settles O34: the 256 bits are the stream without the bits from 256 on, and there are such bits. -/
theorem posDecTooLongFaults : Obligations.PosDecTooLongFaults := by
  intro s p data herr hcount hlong hlen hbits
  obtain ⟨w, hrun⟩ := placeRun_some p hcount
  have hcut : p.bits.drop 256 ≠ [] := by simpa using hlong
  have hahead : bitsAhead (attachCursor s.buf 32 data) ++ p.bits.drop 256 = p.bits := by
    rw [bitsAhead_attach_full hlen, hbits, List.take_append_drop]
  exact posDec_faults (len := 32) herr le_rfl (readPosition_cut hrun hcut hahead)

/-! ### A stream with an unassigned code (42_position.md R121 (c)) -/

theorem bind_of_ok {α β : Type} {x : Except Cause α} {f : α → Except Cause β} {a : α} {y : Except Cause β}
    (hx : x = .ok a) (hf : f a = y) : (x >>= f) = y := by
  subst hx; exact hf

theorem bind_of_error {α β : Type} {x : Except Cause α} {f : α → Except Cause β} {e : Cause} (hx : x = .error e) :
    (x >>= f) = .error e := by
  subst hx; rfl

/-- Legal symbols for fewer squares than are due, and then a code that is none: the next square due meets it. -/
theorem decodeSquares_unassigned {order : List Sq} {syms : List PieceSym} {w : Work} {c : Cursor} {code : Nat}
    {r : List Bool} (hcount : syms.length < (order.filter fun sq => !isKingSq w sq).length) (hfirst : code % 2 = 1)
    (hkind : kindOfCode (BitVec.ofNat 4 code).toNat = none)
    (h : bitsAhead c = syms.flatMap encodeSym ++ (bitsOfNat 4 code ++ r)) :
    decodeSquares order w c = .error .corruptEncoding := by
  induction order generalizing syms w c with
  | nil => exact absurd hcount (Nat.not_lt_zero _)
  | cons sq order ih =>
    rw [decodeSquares]
    by_cases hking : isKingSq w sq = true
    · rw [if_pos hking]
      rw [List.filter_cons_of_neg (by simp [hking])] at hcount
      exact ih hcount h
    · rw [if_neg hking]
      rw [List.filter_cons_of_pos (by simp [hking])] at hcount
      cases syms with
      | nil =>
        have hcode : decodePiece c = .error .corruptEncoding := by
          rw [decodePiece_eq, h, List.flatMap_nil, List.nil_append, takeSymCode_unassigned hfirst hkind]
        rw [hcode]
        rfl
      | cons sym syms =>
        rw [List.flatMap_cons, List.append_assoc] at h
        rw [decodePiece_append h]
        refine ih ?_ (bitsAhead_after h (length_encodeSym sym))
        rw [isKingSq_putSym]
        exact Nat.lt_of_succ_lt_succ hcount

/-- Settles O35: the head is read, and the run meets the code at a square that is due. -/
theorem posDecCorruptFaults : Obligations.PosDecCorruptFaults := by
  intro s turn k1 k2 syms code r data herr hcount hcode hlen hbits
  have hunassigned : code % 2 = 1 ∧ kindOfCode (BitVec.ofNat 4 code).toNat = none := by
    rcases hcode with rfl | rfl | rfl <;> decide
  obtain ⟨hfirst, hkind⟩ := hunassigned
  have hahead := (bitsAhead_attach_full hlen s.buf).trans hbits
  simp only [List.append_assoc] at hahead
  obtain ⟨hturn, hafterTurn⟩ := readField_append hahead
  obtain ⟨hk1, hafterK1⟩ := readField_append hafterTurn
  obtain ⟨hk2, hafterK2⟩ := readField_append hafterK1
  have hdue : syms.length <
      (visitOrder.filter fun sq => !isKingSq (putK2 k2 (putK1 k1 (startWork turn))) sq).length := by
    rw [visitOrder_filter]
    exact (due_length k1 k2).symm ▸ hcount
  have hrun := decodeSquares_unassigned hdue hfirst hkind hafterK2
  exact posDec_faults (len := 32) herr le_rfl
    (bind_of_ok hturn (bind_of_ok hk1 (bind_of_ok hk2 (bind_of_error hrun))))

end Sys2Proof.Machine

/-! PROOFS of the move family (43_move.md): the fields of a move word in numbers and in bits, `MOVE.DEC` on every word
and by the form that the decoder reads from the word. -/

namespace Sys2Proof.Machine

/-! ### The fields of the word (43_move.md R130, R132) -/

theorem promoCode_toNat (w : Half) : (BitVec.setWidth 2 (w >>> 12)).toNat = w.toNat / 4096 % 4 := by
  simp [Nat.shiftRight_eq_div_pow]

/-- The form is the two highest bits of the word, so nothing of them is cut off. -/
theorem special_toNat (w : Half) : (BitVec.setWidth 2 (w >>> 14)).toNat = w.toNat / 16384 := by
  have hw := w.isLt
  simp [Nat.shiftRight_eq_div_pow]
  omega

theorem decodeMove_dest (w : Half) : (decodeMove w).dest = BitVec.ofNat 6 w.toNat :=
  BitVec.eq_of_toNat_eq (by simp [decodeMove])

theorem decodeMove_orig (w : Half) : (decodeMove w).orig = BitVec.ofNat 6 (w.toNat / 64) :=
  BitVec.eq_of_toNat_eq (by simp [decodeMove, Nat.shiftRight_eq_div_pow])

theorem decodeMove_special (w : Half) : (decodeMove w).special = BitVec.ofNat 2 (w.toNat / 16384) := by
  rw [← special_toNat, BitVec.ofNat_toNat, BitVec.setWidth_eq]
  rfl

theorem decodeMove_promo (w : Half) :
    (decodeMove w).promo = if w.toNat / 16384 = 1 then BitVec.ofNat 3 (w.toNat / 4096 % 4 + 2) else 0 := by
  have hform : BitVec.setWidth 2 (w >>> 14) = 1 ↔ w.toNat / 16384 = 1 := by
    rw [← special_toNat]
    exact BitVec.toNat_inj.symm
  show promoKind (BitVec.setWidth 2 (w >>> 14)) (BitVec.setWidth 2 (w >>> 12)) = _
  rw [promoKind, promoCode_add_two, promoCode_toNat]
  exact if_congr hform rfl rfl

theorem answer_setMove_decodeMove (w : Half) (s : State) :
    answer .ok (setMove (decodeMove w) s) = afterMove w.toNat s := by
  simp only [setMove, decodeMove_dest, decodeMove_orig, decodeMove_promo, decodeMove_special]
  rfl

/-- No move promotes to a Pawn or a King: the promotion is none, or a kind from 2 to 5 (43_move.md R132). -/
theorem MoveLegal.promo_ne {m : Move} (hm : MoveLegal m) : m.promo ≠ 1 ∧ m.promo ≠ 6 := by
  rcases hm.promo with hnone | hrange
  · rw [hnone]
    decide
  · exact ⟨fun hpawn => absurd (hpawn ▸ hrange) (by decide), fun hking => absurd (hking ▸ hrange) (by decide)⟩

/-- Settles O43: the fields of the word in numbers are those of the decoded move, whose promotion is legal. -/
theorem moveDecEffect : Obligations.MoveDecEffect := by
  intro s w herr
  have hpromo : (afterMove w.toNat s).mpromo = (decodeMove w).promo := (decodeMove_promo w).symm
  rw [hpromo, ← answer_setMove_decodeMove]
  exact ⟨accepted_free herr, (moveLegal_decodeMove w).promo_ne⟩

/-! ### The form of the word (30_encoding.md R70, R71) -/

/-- Bits that are as many as a vector is wide and have its value are its bits. -/
theorem bitsOf_eq_of_natOfBits {n : Nat} {v : BitVec n} {bits : List Bool} (hlen : bits.length = n)
    (hval : natOfBits bits = v.toNat) : bitsOf v = bits := by
  rw [bitsOf, ← hval, ← hlen, bitsOfNat_natOfBits]

/-- The word is its four fields, the lowest first. -/
theorem bitsOf_moveWord (w : Half) :
    bitsOf w = bitsOf (decodeMove w).dest ++ bitsOf (decodeMove w).orig ++ bitsOf (BitVec.setWidth 2 (w >>> 12)) ++
      bitsOf (decodeMove w).special := by
  have hw := w.isLt
  refine bitsOf_eq_of_natOfBits (by simp) ?_
  simp only [natOfBits_append, natOfBits_bitsOf, length_bitsOf, List.length_append, decodeMove_dest, decodeMove_orig,
    decodeMove_special, promoCode_toNat, BitVec.toNat_ofNat]
  omega

/-- Each value of `special` has its form, which is written as the four fields and makes the same move. -/
theorem exists_moveForm (special p : BitVec 2) (f t : Sq) :
    ∃ i, formatOf i = .moveWord ∧ i.wellFormed = true ∧
      encode i = bitsOf t ++ bitsOf f ++ bitsOf p ++ bitsOf special ∧
      ∀ s, exec i s =
        accepted s (complete (setMove ⟨f, t, promoKind special p, special⟩ s)) := by
  have hfour : ∀ special : BitVec 2, special = 0 ∨ special = 1 ∨ special = 2 ∨ special = 3 := by decide
  rcases hfour special with rfl | rfl | rfl | rfl
  · exact ⟨.moveNone p f t, rfl, rfl, rfl, fun _ => rfl⟩
  · exact ⟨.movePromo p f t, rfl, rfl, rfl, fun _ => rfl⟩
  · exact ⟨.moveEp p f t, rfl, rfl, rfl, fun _ => rfl⟩
  · exact ⟨.moveCastle p f t, rfl, rfl, rfl, fun _ => rfl⟩

/-- Settles O45: the word is the encoding of its form, so the decoder gives the form back. -/
theorem moveDecIsItsForm : Obligations.MoveDecIsItsForm := by
  intro s w
  obtain ⟨i, hformat, hwf, hencode, hexec⟩ := exists_moveForm (decodeMove w).special
    (BitVec.setWidth 2 (w >>> 12)) (decodeMove w).orig (decodeMove w).dest
  refine ⟨i, ?_, (hexec s).symm⟩
  rw [bitsOf_moveWord, ← hencode, ← hformat]
  exact decodeOfEncode i hwf

end Sys2Proof.Machine

/-! PROOFS of the record family (44_record.md): what `REC.READ` and `REC.RAW` answer by the bytes that are left, the
record as its parts, the moves of `RP`. -/

namespace Sys2Proof.Machine

/-! ### The bytes of a record (20_memory.md R42) -/

section Bytes

variable {m : Memory} {a n k : Nat}

theorem readRange_append {xs ys : List Byte} (hx : readRange m a n = some xs) (hy : readRange m (a + n) k = some ys) :
    readRange m a (n + k) = some (xs ++ ys) := by
  rw [readRange_add, hx, Option.bind_some, hy, Option.map_some]

/-- Below `FSIZE` there are bytes while the stream is as long as it was opened (log entry 13). -/
theorem exists_readRange {s : State} (hsize : s.fsize ≤ s.stream.size) (hroom : a + n ≤ s.fsize) :
    ∃ bs, readRange s.stream a n = some bs :=
  Option.isSome_iff_exists.1 (readRange_isSome s.stream a n (hroom.trans hsize))

theorem memRead_short {s : State} (hshort : s.fsize < a + n) : memRead s a n = .truncated := if_pos hshort

/-- Bytes that are as many as the vector is long take all of it. -/
theorem toList_fillBytes (v : Vector Byte n) {bs : List Byte} (hlen : bs.length = n) :
    (fillBytes v 0 bs).toList = bs := by
  refine List.ext_getElem (by simp [hlen]) fun k _ hk => ?_
  rw [Vector.getElem_toList, getElem_fillBytes _ _ _ _ (hlen ▸ hk)]
  simp [hk]

theorem getD_fillBytes (v : Vector Byte n) {bs : List Byte} (hlen : bs.length = n) (hk : k < n) :
    (fillBytes v 0 bs).getD k 0 = byteOf bs k := by
  rw [getD_vector _ _ _ hk, getElem_fillBytes, byteOf]
  simp [hlen, hk]

theorem byteOf_append_right {xs ys : List Byte} (hlen : xs.length = n) :
    byteOf (xs ++ ys) (n + k) = byteOf ys k := by
  rw [byteOf, List.getD_append_right _ _ _ _ (hlen ▸ Nat.le_add_right n k), hlen, Nat.add_sub_cancel_left, byteOf]

end Bytes

/-! ### The scalars of a record (30_encoding.md R69) -/

theorem le16_eq_ofNat (b0 b1 : Byte) : le16 b0 b1 = BitVec.ofNat 16 (b0.toNat + 256 * b1.toNat) := by
  rw [← le16_toNat, BitVec.ofNat_toNat, BitVec.setWidth_eq]

theorem le16_eq_append (b0 b1 : Byte) : le16 b0 b1 = b1 ++ b0 :=
  BitVec.eq_of_toNat_eq <| by
    rw [le16_toNat, BitVec.toNat_append, ← Nat.shiftLeft_add_eq_or_of_lt b0.isLt, Nat.shiftLeft_eq]
    omega

/-- What the last eight bytes `b` of a record leave, and `RP` at `a`: the move of the word, and the scalars beside it
(44_record.md R142). -/
theorem answer_setScalars (a : Nat) (b : List Byte) (s : State) :
    answer .ok (setRp a (setScalars b s)) =
      { answer .ok (setMove (decodeMove (le16 (byteOf b 2) (byteOf b 3))) s) with
        score := le16 (byteOf b 0) (byteOf b 1), movew := le16 (byteOf b 2) (byteOf b 3),
        ply := le16 (byteOf b 4) (byteOf b 5), result := byteOf b 6, rp := a,
        written := { s.written with move := true, score := true, movew := true, ply := true, result := true } } := by
  simp only [answer, setRp, setScalars, setResult, setPly, setMove, setMovew, setScore]

/-- The response before is overwritten. -/
theorem answer_setScalars_answer (a : Nat) (b : List Byte) (s : State) :
    answer .ok (setRp a (setScalars b (answer .ok s))) = answer .ok (setRp a (setScalars b s)) := by
  rw [answer_setScalars, answer_setScalars]
  rfl

theorem frame_scalars (a : Nat) (b : List Byte) (s : State) :
    Frame [.score, .movew, .move, .ply, .result, .rp] s (answer .ok (setRp a (setScalars b s))) :=
  (((frame_setScalars s b).trans (frame_setRp _ a)).trans (frame_answer _ _)).mono (by simp)

/-- What a position shows stands in three groups of registers. -/
theorem PosStream.Shown.of_sameGroup {p : PosStream} {s t : State} (h : p.Shown s) (hcursor : sameGroup .cursor s t)
    (hpos : sameGroup .pos s t) (hposition : sameGroup .position s t) : p.Shown t := by
  obtain ⟨-, hlen⟩ := hcursor
  obtain ⟨hboard, hturn, hcastle, hepv, hepsq, hhmc, hfmn, -⟩ := hposition
  exact {
    board := hboard ▸ h.board
    turn := hturn ▸ h.turn
    castle := hcastle ▸ h.castle
    ep := by rw [State.epTarget, hepv, hepsq]; exact h.ep
    epsq := hepsq ▸ h.epsq
    hmc := hhmc ▸ h.hmc
    fmn := hfmn ▸ h.fmn
    pos := (congrArg BitVec.toNat hpos).trans h.pos
    len := hlen.trans h.len }

/-! ### The commands of the reader, by the bytes that are left (44_record.md R143, R144) -/

/-- A closed reader refuses (60_exceptions.md R170). -/
theorem opened_closed {s : State} {body : Result} (herr : s.err = 0) (hopn : s.opn ≠ 1) :
    opened s body = .next (refusedAt s) :=
  (accepted_free herr).trans (if_neg (mt (isOpen_iff s).1 hopn))

section Reader

variable {s : State} {blob b : List Byte} {p : Work × Bit × Cursor} (herr : s.err = 0) (hopn : s.opn = 1)
include herr hopn

theorem recRaw_completes {bs : List Byte} (hroom : s.rp + 40 ≤ s.fsize)
    (hbs : readRange s.stream s.rp 40 = some bs) :
    exec .recRaw s = .next (answer .ok (setRp (s.rp + 40) (setRaw bs s))) := by
  rw [exec_recRaw, execRecRaw, opened_open herr hopn, memRead_of_readRange hroom hbs]
  rfl

theorem recRaw_short (hshort : s.fsize < s.rp + 40) : exec .recRaw s = .next (truncatedAt s) := by
  rw [exec_recRaw, execRecRaw, opened_open herr hopn, memRead_short hshort]
  rfl

theorem recRead_short (hshort : s.fsize < s.rp + 32) : exec .recRead s = .next (truncatedAt s) := by
  rw [exec_recRead, execRecRead, opened_open herr hopn, memRead_short hshort]
  rfl

theorem recRead_corrupt {c : Cause} (hroom : s.rp + 32 ≤ s.fsize) (hblob : readRange s.stream s.rp 32 = some blob)
    (hp : decodePosition s.buf blob 32 = .error c) : exec .recRead s = .next (takeFault c s) := by
  rw [exec_recRead, execRecRead, opened_open herr hopn, memRead_of_readRange hroom hblob, withBytes, hp]
  rfl

/-- Past a completed position the last eight bytes are read (44_record.md R142). -/
theorem recRead_position (hroom : s.rp + 32 ≤ s.fsize) (hblob : readRange s.stream s.rp 32 = some blob)
    (hp : decodePosition s.buf blob 32 = .ok p) :
    exec .recRead s = withBytes (memRead s (s.rp + 32) 8) s fun b =>
      complete (setRp (s.rp + 40) (setScalars b (commitPosition p s))) := by
  rw [exec_recRead, execRecRead, opened_open herr hopn, memRead_of_readRange hroom hblob, withBytes, hp]

theorem recRead_cut (hroom : s.rp + 32 ≤ s.fsize) (hblob : readRange s.stream s.rp 32 = some blob)
    (hp : decodePosition s.buf blob 32 = .ok p) (hshort : s.fsize < s.rp + 40) :
    exec .recRead s = .next (truncatedAt s) := by
  have hend : s.fsize < s.rp + 32 + 8 := hshort
  rw [recRead_position herr hopn hroom hblob hp, memRead_short hend]
  rfl

theorem recRead_completes (hroom : s.rp + 40 ≤ s.fsize) (hblob : readRange s.stream s.rp 32 = some blob)
    (hp : decodePosition s.buf blob 32 = .ok p) (hb : readRange s.stream (s.rp + 32) 8 = some b) :
    exec .recRead s = .next (answer .ok (setRp (s.rp + 40) (setScalars b (commitPosition p s)))) := by
  have hend : s.rp + 32 + 8 ≤ s.fsize := hroom
  rw [recRead_position herr hopn (by omega) hblob hp, memRead_of_readRange hend hb]
  rfl

end Reader

/-- A completed `POS.DEC` of 32 bytes is a completed decode of them. -/
theorem decode_of_posDec_ok {s u : State} {blob : List Byte} (h : exec (.posDec 32 blob) s = .next u)
    (hok : u.resp = .ok) : ∃ p, decodePosition s.buf blob 32 = .ok p ∧ u = answer .ok (commitPosition p s) := by
  obtain ⟨u, he, rfl⟩ := (exec_answers h).effect hok
  cases he with
  | posDec hp => exact ⟨_, hp, rfl⟩
  | bits hw | symbol hw | field hw | move hw => cases hw

/-- A record whose position `POS.DEC` decodes is decoded on top of it (44_record.md R142). -/
theorem recRead_of_posDec {s u : State} {blob b : List Byte} (herr : s.err = 0) (hopn : s.opn = 1)
    (hroom : s.rp + 40 ≤ s.fsize) (hblob : readRange s.stream s.rp 32 = some blob)
    (hb : readRange s.stream (s.rp + 32) 8 = some b) (hu : exec (.posDec 32 blob) s = .next u) (hok : u.resp = .ok) :
    exec .recRead s = .next (answer .ok (setRp (s.rp + 40) (setScalars b u))) := by
  obtain ⟨p, hp, rfl⟩ := decode_of_posDec_ok hu hok
  rw [answer_setScalars_answer]
  exact recRead_completes herr hopn hroom hblob hp hb

/-- A fault of `REC.READ` is the only thing it did, and the reader was open (60_exceptions.md R166, R170). -/
theorem recRead_faulted {s t : State} {c : Cause} (h : exec .recRead s = .next t) (hfault : t.resp = .fault c) :
    s.err = 0 ∧ s.opn = 1 ∧ t = takeFault c s := by
  rcases opened_next h with ⟨-, rfl⟩ | ⟨herr, hopn, -⟩
  · cases hfault
  · refine ⟨herr, hopn, ?_⟩
    cases exec_answers h with
    | faulted c' => obtain rfl := Response.fault.inj hfault; rfl
    | _ => cases hfault

/-! ### The claims about the commands -/

/-- Settles O46: no fault is latched, so the offset and the stream's size are taken. -/
theorem recOpenEffect : Obligations.RecOpenEffect :=
  fun _ _ herr => accepted_free herr

/-- Settles O47: the reader is open after `REC.OPEN`, and the size divided by 40 is the number of whole records. -/
theorem recCountAnswers : Obligations.RecCountAnswers := by
  refine ⟨fun s herr hopn => opened_open herr hopn, fun s soff k r herr hr hsize => ?_⟩
  refine ⟨_, _, recOpenEffect s soff herr, opened_open herr rfl, congrArg Response.okCount ?_⟩
  show s.stream.size / 40 = k
  omega

/-- Settles O48: the range of 40 bytes is read as a whole or not at all. -/
theorem recRawEffect : Obligations.RecRawEffect := by
  intro s herr
  refine ⟨fun hopn hroom hsize => ?_, recRaw_short herr, fun hopn => opened_closed herr (by simp [hopn])⟩
  obtain ⟨bs, hbs⟩ := exists_readRange hsize hroom
  obtain ⟨hlen, hbytes⟩ := readRange_some hbs
  refine ⟨fillBytes s.raw 0 bs, recRaw_completes herr hopn hroom hbs, fun k hk => ?_⟩
  rw [hbytes k hk, getD_fillBytes _ hlen hk]
  simp [byteOf, hlen, hk]

/-- Settles O49: the position is decoded as `POS.DEC` decodes it, and the last eight bytes are no part of it. -/
theorem recReadDecodes : Obligations.RecReadDecodes := by
  intro s p blob b0 b1 b2 b3 b4 b5 b6 b7 herr hopn hroom hblob hb hcount hheads
  obtain ⟨u, hu, hok, hshown, hbuf, honly⟩ := posDecDecodes s p blob herr hcount hheads
  have hframe := frame_scalars (s.rp + 40) [b0, b1, b2, b3, b4, b5, b6, b7] u
  have hbufEq : _ = u.buf := (hframe.groups .cursor (by simp)).1
  refine ⟨_, u, recRead_of_posDec herr hopn hroom hblob hb hu hok, ?shown, ?buf, honly, ?effect⟩
  case shown =>
    exact hshown.of_sameGroup (hframe.groups _ (by simp)) (hframe.groups _ (by simp)) (hframe.groups _ (by simp))
  case buf =>
    intro k hk
    rw [hbufEq]
    exact hbuf k hk
  case effect =>
    have hwritten : u.written = { s.written with position := true } := congrArg State.written honly
    have hword (x y : Byte) : BitVec.ofNat 16 (x.toNat + 256 * y.toNat) = le16 x y := (le16_eq_ofNat x y).symm
    rw [answer_setScalars, answer_setMove_decodeMove, hwritten, hword, hword, hword, ← le16_toNat]
    rfl

/-- Settles O50: the 40 raw bytes are the 32 of the position and then the last eight. -/
theorem recReadIsItsParts : Obligations.RecReadIsItsParts := by
  intro s herr hopn hroom hsize
  obtain ⟨blob, hblob⟩ := exists_readRange (a := s.rp) (n := 32) hsize (by omega)
  obtain ⟨b, hb⟩ := exists_readRange (a := s.rp + 32) (n := 8) hsize hroom
  have hblobLen : blob.length = 32 := (readRange_some hblob).1
  have hlen : (blob ++ b).length = 40 := by rw [List.length_append, hblobLen, (readRange_some hb).1]
  refine ⟨_, recRaw_completes herr hopn hroom (readRange_append hblob hb), ?_⟩
  intro raw word u hu hok
  have htake : (fillBytes s.raw 0 (blob ++ b)).toList.take 32 = blob := by
    rw [toList_fillBytes _ hlen, ← hblobLen, List.take_left]
  have hraw (k : Nat) (hk : 32 + k < 40) : raw (32 + k) = byteOf b k :=
    (getD_fillBytes s.raw hlen hk).trans (byteOf_append_right hblobLen)
  have hu : exec (.posDec 32 blob) s = .next u := htake ▸ hu
  obtain ⟨p, -, hup⟩ := decode_of_posDec_ok hu hok
  have hword : le16 (byteOf b 2) (byteOf b 3) = word := by
    rw [le16_eq_append, ← hraw 2 (by omega), ← hraw 3 (by omega)]
  refine ⟨_, accepted_free (hup ▸ herr), ?_⟩
  rw [recRead_of_posDec herr hopn hroom hblob hb hu hok, answer_setScalars, hword, le16_eq_append, le16_eq_append,
    ← hraw 0 (by omega), ← hraw 1 (by omega), ← hraw 4 (by omega), ← hraw 5 (by omega), ← hraw 6 (by omega)]
  rfl

/-- Settles O51: the first 32 bytes, their position and the last eight are looked at in this order. -/
theorem recReadFaultOrder : Obligations.RecReadFaultOrder := by
  intro s herr hopn hsize
  refine ⟨recRead_short herr hopn, fun hroom => ?_⟩
  obtain ⟨blob, hblob⟩ := exists_readRange hsize hroom
  cases hp : decodePosition s.buf blob 32 with
  | error c =>
    refine ⟨blob, _, hblob, posDec_faults (len := 32) herr le_rfl hp, ?_⟩
    rw [recRead_corrupt herr hopn hroom hblob hp]
    cases c with
    | truncatedRecord => exact ⟨fun _ => rfl, nofun, nofun, nofun⟩
    | corruptEncoding => exact ⟨nofun, fun _ => rfl, nofun, nofun⟩
  | ok p =>
    refine ⟨blob, _, hblob, posDec_completes (len := 32) herr le_rfl hp, nofun, nofun, fun _ hshort => ?_,
      fun _ hwhole => ?_⟩
    · exact recRead_cut herr hopn hroom hblob hp hshort
    · obtain ⟨b, hb⟩ := exists_readRange (a := s.rp + 32) (n := 8) hsize hwhole
      exact ⟨_, recRead_completes herr hopn hwhole hblob hp hb, rfl, herr⟩

/-! ### The moves of `RP` (44_record.md R141) -/

/-- Settles O52: what does not complete keeps `RP`, and what completes has the effect of its row. -/
theorem rpSequencing : Obligations.RpSequencing := by
  intro i s t hexec
  cases exec_answers hexec with
  | refused | faulted | counted => rfl
  | completed he =>
    rw [if_neg (by simp)]
    cases he with
    | bits hw | symbol hw | field hw | move hw =>
      split
      case h_1 | h_2 | h_3 => cases hw
      case h_4 => rfl
    | _ => rfl

/-- Settles O53: the fault changed nothing but the latch, so without it the 40 bytes are there to be read. -/
theorem badRecordSkipped : Obligations.BadRecordSkipped := by
  intro s t c hread hfault hroom hsize
  obtain ⟨herr, hopn, rfl⟩ := recRead_faulted hread hfault
  obtain ⟨bs, hbs⟩ := exists_readRange hsize hroom
  have hraw := recRaw_completes (s := answer .ok (returnFromFault (takeFault c s))) rfl hopn hroom hbs
  exact ⟨_, _, rfl, hraw, rfl, rfl, rfl⟩

/-! ### The move and position rows of a record (44_record.md R142) -/

/-- The position row does what `POS.DEC` of its 32 bytes does. -/
theorem recfPosition_eq_posDec {s : State} (blob : List Byte) (herr : s.err = 0) (hopn : s.opn = 1)
    (hroom : s.rp + 32 ≤ s.fsize) : exec (.recfPosition blob) s = exec (.posDec 32 blob) s := by
  rw [exec_recfPosition, execRecfPosition, extractField_room (f := .position) herr hopn hroom]
  cases hp : decodePosition s.buf blob 32 with
  | error c => exact (posDec_faults (len := 32) herr le_rfl hp).symm
  | ok p => exact (posDec_completes (len := 32) herr le_rfl hp).symm

/-- Settles O55: the move row is `MOVE.DEC` of the word with `MOVEW` beside it, the position row is `POS.DEC`. -/
theorem recordMoveAndPositionRows : Obligations.RecordMoveAndPositionRows := by
  intro s herr hopn
  refine ⟨fun w hroom => ?move, fun p blob hroom hcount hheads => ?position,
    fun blob => recfPosition_eq_posDec blob herr hopn⟩
  case move =>
    rw [exec_recfMove, execRecfMove, extractField_room (f := .move) herr hopn hroom, ← answer_setMove_decodeMove]
    rfl
  case position =>
    rw [recfPosition_eq_posDec blob herr hopn hroom]
    exact posDecDecodes s p blob herr hcount hheads

end Sys2Proof.Machine

/-! PROOFS of the exceptions family (60_exceptions.md): what an instruction does while a fault is latched, what a fault
and a refusal leave, when a command is refused, which fault a command raises, and the steps that run no instruction. -/

namespace Sys2Proof.Machine

/-! ### A latched fault (60_exceptions.md R169) -/

/-- Every arm but that of `ERR.CLR` is the acceptance test or a refusal. -/
theorem exec_latched {i : Instr} {s : State} (herr : s.err ≠ 0) (hi : i ≠ .errClr) :
    exec i s = .next (refusedAt s) := by
  cases i with
  | errClr => exact absurd rfl hi
  | reserved7 | reservedC | reservedD | reservedE | reservedF => rfl
  | _ => exact accepted_latched herr

/-- Settles O13: the acceptance test refuses before the body of an instruction is looked at. -/
theorem latchedFaultRefusesAll : Obligations.LatchedFaultRefusesAll :=
  fun _ _ herr hi => exec_latched herr hi

/-- Settles O12: `ERR.CLR` has no acceptance test, and what every other instruction answers while a fault is latched
is a refusal, which keeps `ERR`. -/
theorem errClrClears : Obligations.ErrClrClears := by
  refine ⟨fun _ => rfl, rfl, fun i s t hi herr hexec => ?_⟩
  obtain rfl : refusedAt s = t := Host.Outcome.next.inj ((exec_latched herr hi).symm.trans hexec)
  rfl

/-! ### What a fault and a refusal leave (60_exceptions.md R166, R170) -/

/-- Settles O14: the answer with a fault is the one shared fault entry. -/
theorem faultEntry : Obligations.FaultEntry := by
  intro i s t c hexec hfault
  cases exec_answers hexec with
  | faulted c' herr =>
    obtain rfl : c' = c := Response.fault.inj hfault
    cases c' with
    | truncatedRecord => exact ⟨herr, rfl⟩
    | corruptEncoding => exact ⟨herr, rfl⟩
  | refused | counted | completed => cases hfault

/-- Settles O15: the answer with a refusal is the one shared refusal. -/
theorem refusalChangesNothing : Obligations.RefusalChangesNothing := by
  intro i s t hexec hrefused
  cases exec_answers hexec with
  | refused => rfl
  | faulted | counted | completed => cases hrefused

/-! ### When a command is refused and which fault it raises (60_exceptions.md R160, R170)

A command with a ground of refusal is refused (`exec_of_ground`), and one without runs, and raises the faults of its
row in the table of R160 only (`exec_runs`). -/

/-- The four grounds of R170. -/
def RefusalGround (i : Instr) (s : State) : Prop :=
  isReserved i = true ∨ (s.err ≠ 0 ∧ i ≠ .errClr) ∨ operandOutOfRange i = true ∨ (needsOpen i = true ∧ s.opn = 0)

/-- The table of R160, by command: the faults that it can raise. -/
def faultsOf : Instr → List Cause
  | .curRdbit | .curRdbits _ | .recRaw => [.truncatedRecord]
  | .pieceDec | .posDec _ _ | .recRead => [.truncatedRecord, .corruptEncoding]
  | _ => []

theorem truncatedRecord_mem_faultsOf {i : Instr} :
    .truncatedRecord ∈ faultsOf i ↔ i = .curRdbit ∨ (∃ n, i = .curRdbits n) ∨ i = .pieceDec ∨
      (∃ len data, i = .posDec len data) ∨ i = .recRead ∨ i = .recRaw := by
  cases i <;> simp [faultsOf]

theorem corruptEncoding_mem_faultsOf {i : Instr} :
    .corruptEncoding ∈ faultsOf i ↔ i = .pieceDec ∨ (∃ len data, i = .posDec len data) ∨ i = .recRead := by
  cases i <;> simp [faultsOf]

/-- A meaning whose next state, where it has one, is no refusal and no fault but those of `cs`. -/
structure Runs (cs : List Cause) (m : Result) : Prop where
  notRefused : ∀ t, m = .next t → t.resp ≠ .refused
  raises : ∀ t c, m = .next t → t.resp = .fault c → c ∈ cs

namespace Runs

variable {cs : List Cause} {s : State} {body : Result}

theorem next {t : State} (hne : t.resp ≠ .refused) (hc : ∀ c, t.resp = .fault c → c ∈ cs) : Runs cs (.next t) where
  notRefused := fun _ h => Host.Outcome.next.inj h ▸ hne
  raises := fun _ c h => Host.Outcome.next.inj h ▸ hc c

theorem complete (u : State) : Runs cs (complete u) := .next nofun nofun

theorem raiseFault {c : Cause} (hc : c ∈ cs) (u : State) : Runs cs (raiseFault c u) :=
  .next nofun fun _ h => Response.fault.inj h ▸ hc

theorem accepted (herr : s.err = 0) (h : Runs cs body) : Runs cs (accepted s body) := by
  rw [accepted_free herr]; exact h

theorem opened (herr : s.err = 0) (hopn : s.opn = 1) (h : Runs cs body) : Runs cs (opened s body) := by
  rw [opened_open herr hopn]; exact h

/-- The body behind the test of an operand that is in range. -/
theorem inRange {b : Bool} {m : Result} (hb : b = true) (h : Runs cs body) : Runs cs (if b then body else m) := by
  rw [if_pos hb]; exact h

theorem withBytes {m : MemResult} {k : List Byte → Result} (hc : .truncatedRecord ∈ cs) (hk : ∀ bs, Runs cs (k bs)) :
    Runs cs (withBytes m s k) := by
  cases m with
  | bytes bs => exact hk bs
  | truncated => exact .raiseFault hc s
  | absent =>
    have hne (t : State) : (.fault .streamShrunk : Result) ≠ .next t := by simp
    exact ⟨fun t h => absurd h (hne t), fun t _ h => absurd h (hne t)⟩

end Runs

/-- A read of bits raises `TruncatedRecord` only (40_bitcursor.md R93). -/
theorem readBits_error {n : Nat} {c : Cursor} {e : Cause} (h : readBits n c = .error e) : e = .truncatedRecord := by
  rw [readBits_eq] at h
  split at h
  · cases h
  · exact (Except.error.inj h).symm

theorem readBit_error {c : Cursor} {e : Cause} (h : readBit c = .error e) : e = .truncatedRecord := by
  rw [readBit_eq] at h
  split at h
  · exact (Except.error.inj h).symm
  · cases h

/-- A command without a ground of refusal runs: its tests let it through to its body. -/
theorem exec_runs {i : Instr} {s : State} (hf : formatOf i = .command) (hno : ¬ RefusalGround i s) :
    Runs (faultsOf i) (exec i s) := by
  simp only [RefusalGround, not_or] at hno
  obtain ⟨hres, hlatch, hrange, hclosed⟩ := hno
  have herr (hi : i ≠ .errClr) : s.err = 0 := not_not.1 fun h => hlatch ⟨h, hi⟩
  have hopn (hi : needsOpen i = true) : s.opn = 1 := by
    have hne : s.opn ≠ 0 := fun h => hclosed ⟨hi, h⟩
    bv_omega
  have hlen (len : BitVec 6) (h : ¬ decide (32 < len.toNat) = true) : lenInRange len = true := by simpa using h
  have hboth (c : Cause) : c ∈ [Cause.truncatedRecord, .corruptEncoding] := by cases c <;> simp
  cases i <;> cases hf
  case errClr => exact .complete _
  case reserved7 | reservedC | reservedD | reservedE | reservedF => exact absurd rfl hres
  case moveDec | recOpen => exact .accepted (herr nofun) (.complete _)
  case curAttach => exact .accepted (herr nofun) (.inRange (hlen _ hrange) (.complete _))
  case curRdbit =>
    refine .accepted (herr nofun) ?_
    split
    · rename_i e he; exact .raiseFault (by simp [readBit_error he, faultsOf]) s
    · exact .complete _
  case curRdbits =>
    refine .accepted (herr nofun) (.inRange (by simpa [operandOutOfRange] using hrange) ?_)
    split
    · rename_i e he; exact .raiseFault (by simp [readBits_error he, faultsOf]) s
    · exact .complete _
  case pieceDec =>
    refine .accepted (herr nofun) ?_
    split
    · exact .raiseFault (hboth _) s
    · exact .complete _
  case posDec =>
    refine .accepted (herr nofun) (.inRange (hlen _ hrange) ?_)
    split
    · exact .raiseFault (hboth _) s
    · exact .complete _
  case recRead =>
    refine .opened (herr nofun) (hopn rfl) (.withBytes (hboth _) fun _ => ?_)
    split
    · exact .raiseFault (hboth _) s
    · exact .withBytes (hboth _) fun _ => .complete _
  case recRaw =>
    exact .opened (herr nofun) (hopn rfl) (.withBytes (List.mem_singleton_self _) fun _ => .complete _)
  case recCount => exact .opened (herr nofun) (hopn rfl) (.next nofun nofun)

/-- An operand out of range fails the test behind the acceptance test (30_encoding.md R73). -/
theorem exec_outOfRange {i : Instr} {s : State} (herr : s.err = 0) (h : operandOutOfRange i = true) :
    exec i s = .next (refusedAt s) := by
  cases i <;> simp only [operandOutOfRange, decide_eq_true_eq, reduceCtorEq] at h
  case curAttach | posDec =>
    exact (accepted_free herr).trans (if_neg fun hin => Nat.not_le.2 h ((lenInRange_iff _).1 hin))
  case curRdbits =>
    exact (accepted_free herr).trans (if_neg fun hin => Nat.not_le.2 h ((widthInRange_iff _).1 hin))

/-- The commands of the reader begin with the test that it is open. -/
theorem exec_needsOpen {i : Instr} {s : State} (h : needsOpen i = true) : ∃ body, exec i s = opened s body := by
  have hi : i = .recRead ∨ i = .recRaw ∨ i = .recCount := by simpa [needsOpen, or_assoc] using h
  rcases hi with rfl | rfl | rfl <;> exact ⟨_, rfl⟩

theorem exec_reserved {i : Instr} (h : isReserved i = true) (s : State) : exec i s = .next (refusedAt s) := by
  obtain ⟨h7, hC, hD, hE, hF⟩ := reservedCodesRefused s
  have hi : i = .reserved7 ∨ i = .reservedC ∨ i = .reservedD ∨ i = .reservedE ∨ i = .reservedF := by
    simpa [isReserved, or_assoc] using h
  rcases hi with rfl | rfl | rfl | rfl | rfl <;> assumption

/-- An instruction with a ground of refusal is refused. -/
theorem exec_of_ground {i : Instr} {s : State} (h : RefusalGround i s) : exec i s = .next (refusedAt s) := by
  rcases h with hres | ⟨herr, hi⟩ | hrange | ⟨hneeds, hclosed⟩
  · exact exec_reserved hres s
  · exact exec_latched herr hi
  · by_cases herr : s.err = 0
    · exact exec_outOfRange herr hrange
    · exact exec_latched herr (by rintro rfl; cases hrange)
  · by_cases herr : s.err = 0
    · obtain ⟨body, hexec⟩ := exec_needsOpen (s := s) hneeds
      exact hexec.trans (opened_closed herr (by simp [hclosed]))
    · exact exec_latched herr (by rintro rfl; cases hneeds)

/-- Settles O16: without a ground the command runs, and what runs does not answer with a refusal. -/
theorem refusedExactlyWhen : Obligations.RefusedExactlyWhen := by
  intro i s hf
  refine ⟨fun hexec => ?_, exec_of_ground⟩
  by_contra hno
  exact (exec_runs hf hno).notRefused _ hexec rfl

/-- A fault that a command raises stands in its row of the table of R160. -/
theorem mem_faultsOf {i : Instr} {s t : State} {c : Cause} (hf : formatOf i = .command) (hexec : exec i s = .next t)
    (hfault : t.resp = .fault c) : c ∈ faultsOf i := by
  by_cases hground : RefusalGround i s
  · obtain rfl : refusedAt s = t := Host.Outcome.next.inj ((exec_of_ground hground).symm.trans hexec)
    cases hfault
  · exact (exec_runs hf hground).raises t c hexec hfault

/-- Settles O18: the two columns of the table of R160. -/
theorem whichCommandsFault : Obligations.WhichCommandsFault :=
  fun _ _ _ hf hexec =>
    ⟨fun h => truncatedRecord_mem_faultsOf.1 (mem_faultsOf hf hexec h),
      fun h => corruptEncoding_mem_faultsOf.1 (mem_faultsOf hf hexec h)⟩

/-! ### The steps that run no instruction (60_exceptions.md R161, R162, R169, R176) -/

section Fetch

variable {s : State} {fmt : Format} {bits : List Bool} {e : DecodeError}

theorem fetchSymbol_of_error (h : decode fmt bits = .error e) : fetchSymbol fmt bits = .raises (causeOfReject e) := by
  rw [fetchSymbol, h]

theorem fetchWord_of_error (h : decode fmt bits = .error e) : fetchWord fmt bits = .notACommand := by
  rw [fetchWord, h]

/-- While a fault is latched no unit takes a symbol (60_exceptions.md R169). -/
theorem fetch_latched {r : Request} (herr : s.err ≠ 0) (hcommand : ∀ bits, r ≠ .command bits)
    (hword : ∀ bits, r ≠ .moveWord bits) : fetch r s = .turnedAway := by
  have hbusy : ¬ faultFree s = true := mt (faultFree_iff s).1 herr
  cases r with
  | command bits => exact absurd rfl (hcommand bits)
  | moveWord bits => exact absurd rfl (hword bits)
  | pieceSymbol | posPieces => exact if_neg hbusy
  | posField | recField => exact if_neg fun h => hbusy (Bool.and_eq_true_iff.1 h).1

/-- The en-passant square does not exist after a flag of 0 (30_encoding.md R72). -/
theorem fetch_epsq_unflagged (hflag : s.work.epv = 0) : fetch (.posField .epsq) s = .turnedAway :=
  if_neg fun h =>
    have hone : s.work.epv = 1 := (fieldExists_iff .epsq s).1 (Bool.and_eq_true_iff.1 h).2 rfl
    absurd (hflag.symm.trans hone) (by decide)

theorem fetch_recField_closed (f : RecField) (hopn : s.opn = 0) : fetch (.recField f) s = .turnedAway :=
  if_neg fun h =>
    have hone : s.opn = 1 := (isOpen_iff s).1 (Bool.and_eq_true_iff.1 h).2
    absurd (hopn.symm.trans hone) (by decide)

theorem fetch_recField_short {f : RecField} (herr : s.err = 0) (hopn : s.opn = 1)
    (hshort : s.fsize < s.rp + recOffset f + recSize f) : fetch (.recField f) s = .raises .truncatedRecord := by
  have hready : (faultFree s && isOpen s) = true := by rw [(faultFree_iff s).2 herr, (isOpen_iff s).2 hopn]; rfl
  rw [fetch, if_pos hready, fetchRecField, memRead_short hshort]

end Fetch

section Step

variable {s : State} {r : Request} {rest : List Request}

theorem step_of_raises {c : Cause} (hin : s.inbox = r :: rest) (hf : fetch r { s with inbox := rest } = .raises c) :
    step s = .next (takeFault c { s with inbox := rest }) := by
  rw [step_request hin, hf]

theorem step_of_turnedAway (hin : s.inbox = r :: rest) (hf : fetch r { s with inbox := rest } = .turnedAway) :
    step s = .next (refusedAt { s with inbox := rest }) := by
  rw [step_request hin, hf]
  rfl

theorem step_of_notACommand (hin : s.inbox = r :: rest) (hf : fetch r { s with inbox := rest } = .notACommand) :
    step s = .refused .notACommand := by
  rw [step_request hin, hf]

end Step

/-- Every fixed-width field of a position stream has a bit (30_encoding.md R67). -/
theorem length_encode_posField_pos {i : Instr} {f : PosField} (hf : formatOf i = .posField f) :
    0 < (encode i).length := by
  cases i <;> cases hf <;> simp [encode]

/-- Settles O7: what the fetch of each request gives when it gives no instruction. -/
theorem stepOtherwise : Obligations.StepOtherwise := by
  intro s rest
  refine ⟨step_idle, ?pieceSymbol, ?posField, ?posPieces, ?recField, ?latched, ?absent, ?command, ?moveWord⟩
  case pieceSymbol =>
    intro i cut hin herr hf hcut hbits
    have hd := decode_pieceSymbol_cut hf hcut hbits
    exact step_of_raises hin ((fetch_pieceSymbol herr).trans (fetchSymbol_of_error hd))
  case posField =>
    intro i f hin herr hflag hf hshort
    have hlen : (bitsAhead (cursorOf s)).length < (encode i).length := by
      have hpos := length_encode_posField_pos hf
      simp only [length_bitsAhead, cursorOf]
      omega
    have hd := decode_posField_short hf hlen
    exact step_of_raises hin ((fetch_posField herr hflag).trans (fetchSymbol_of_error hd))
  case posPieces =>
    exact fun hin herr =>
      have hstep {e : DecodeError} (hd : _ = Except.error e) :=
        step_of_raises hin ((fetch_posPieces herr).trans (fetchSymbol_of_error hd))
      ⟨hstep, hstep⟩
  case recField =>
    exact fun f hin herr hopn hshort => step_of_raises hin (fetch_recField_short herr hopn hshort)
  case latched =>
    rintro herr (hin | ⟨f, hin⟩ | hin | ⟨f, hin⟩) <;> exact step_of_turnedAway hin (fetch_latched herr nofun nofun)
  case absent =>
    rintro (⟨hin, hflag⟩ | ⟨f, hin, hopn⟩)
    · exact step_of_turnedAway hin (fetch_epsq_unflagged hflag)
    · exact step_of_turnedAway hin (fetch_recField_closed f hopn)
  case command => exact fun bits e hin hd => step_of_notACommand hin (fetchWord_of_error hd)
  case moveWord =>
    exact fun bits hin hshort => step_of_notACommand hin (fetchWord_of_error (decode_moveWord_short hshort))

end Sys2Proof.Machine

/-! PROOFS of the family of reset and the end of a run (70_reset_and_hazards.md): the commands issued right after reset,
and the mark that keeps a run with a refusal from being final. -/

namespace Sys2Proof.Machine

/-! ### The first command after reset (70_reset_and_hazards.md R191) -/

section FirstCommand

variable {s : State} (herr : s.err = 0)
include herr

/-- With no valid bit ahead there is no first bit of a symbol (41_piececode.md R103). -/
theorem pieceDec_end (hend : 8 * s.len.toNat ≤ s.pos.toNat) : exec .pieceDec s = .next (truncatedAt s) := by
  have hcode : takeSymCode (bitsAhead (cursorOf s)) = .error .tooShort := by
    rw [bitsAhead_nil hend]
    rfl
  exact pieceDec_of_error herr hcode

/-- `POS.DEC` with a length in range completes or takes the fault of its decode (42_position.md R110, R121). -/
theorem posDec_outcome {len : BitVec 6} (data : List Byte) (hlen : len.toNat ≤ 32) :
    ∃ t, exec (.posDec len data) s = .next t ∧ (t.resp = .ok ∨ t = truncatedAt s ∨ t = corruptAt s) := by
  cases hp : decodePosition s.buf data len.toNat with
  | ok p => exact ⟨_, posDec_completes herr hlen hp, .inl rfl⟩
  | error c =>
    refine ⟨_, posDec_faults herr hlen hp, .inr ?_⟩
    cases c with
    | truncatedRecord => exact .inl rfl
    | corruptEncoding => exact .inr rfl

end FirstCommand

/-- Settles O10: after reset no fault is latched, no byte is attached and the reader is closed, whatever the stream. -/
theorem afterReset : Obligations.AfterReset := by
  intro m s
  have herr : s.err = 0 := rfl
  have hlen : s.len.toNat = 0 := rfl
  have hpos : s.pos.toNat = 0 := rfl
  have hclosed (i : Instr) (hneeds : needsOpen i = true) : exec i s = .next (refusedAt s) :=
    exec_of_ground (.inr (.inr (.inr ⟨hneeds, rfl⟩)))
  have hrdbits (n : BitVec 5) (hone : 1 ≤ n.toNat) (hn : n.toNat ≤ 16) :
      exec (.curRdbits n) s = .next (truncatedAt s) :=
    curRdbits_short herr hn (by omega) (by omega)
  exact ⟨curRdbit_short herr (by omega), hrdbits, pieceDec_end herr (by omega), hclosed _ rfl, hclosed _ rfl,
    hclosed _ rfl, fun w => (moveDecEffect s w herr).1, fun data _ => posDec_outcome herr data (Nat.le_refl 32)⟩

/-! ### The mark of a refused command and the final state (70_reset_and_hazards.md R198) -/

/-- The mark is no register: what a completing instruction does keeps it. -/
theorem Effect.refusedSeen {i : Instr} {s u : State} (he : Effect i s u) : u.refusedSeen = s.refusedSeen := by
  cases he <;> rfl

/-- Only a refusal sets the mark, and no answer clears it. -/
theorem Answers.refusedSeen_iff {i : Instr} {s t : State} (ha : Answers i s t) :
    t.refusedSeen = true ↔ s.refusedSeen = true ∨ t.resp = .refused := by
  cases ha with
  | refused | faulted | counted => simp
  | completed he => simp [he.refusedSeen]

theorem State.isFinal_iff {s : State} :
    s.isFinal = true ↔ s.inbox = [] ∧ s.err = 0 ∧ s.refusedSeen = false := by
  simp [State.isFinal, and_assoc]

/-- Settles O19: a final state has a clear mark, and an instruction leaves it clear only where it found it clear. -/
theorem refusalRemembered : Obligations.RefusalRemembered := by
  intro i s t hexec
  have hmark := (exec_answers hexec).refusedSeen_iff
  refine ⟨hmark, fun hfinal => ?_⟩
  obtain ⟨hinbox, herr, hclear⟩ := State.isFinal_iff.1 hfinal
  have hbefore : s.refusedSeen ≠ true := fun hseen => absurd (hmark.2 (.inl hseen)) (by simp [hclear])
  exact ⟨Bool.eq_false_iff.2 hbefore, herr, hinbox⟩

end Sys2Proof.Machine
